-- ==== Sys2Proof/Word.lean ====
section
/-! DEFINITION. The word of the machine: every register and every memory cell is 16 bits wide (spec R8, R10). -/

namespace Sys2Proof

/-- A word: an unsigned integer 0..0xFFFF (R10). Addresses are words too (R60). -/
abbrev Word := BitVec 16

/-- A byte: only the program image loader ever sees one (R66). -/
abbrev Byte := BitVec 8

end Sys2Proof
end

