-- ==== Sys2Proof/Config.lean ====
section
/-! DEFINITION. What an implementation fixes before reset and no step changes (R9, R35): the types of the parameters, and
the constants of which the spec gives no value at all. The default values stand in Machine/Params.lean. -/

namespace Sys2Proof

/-- SKIP_INVALID (R170, D6): what the skip chain does with an invalid opcode word. The spec leaves it OPEN. -/
inductive SkipInvalid
  | skip
  | fire
  deriving DecidableEq, Repr

/-- SHIFT_SEMANTICS (D12, I8): every count exact, or the count taken modulo 32. -/
inductive ShiftSemantics
  | exact
  | mask32
  deriving DecidableEq, Repr

/-- ADX_EX_MODE (R190, D13, I23): EX is the carry flag, or the high word of the sum. -/
inductive AdxExMode
  | flag
  | highWord
  deriving DecidableEq, Repr

/-- SBX_EX_READING (R191, D14, I24): how SBX reads the incoming EX. -/
inductive SbxExReading
  | unsigned
  | signed
  deriving DecidableEq, Repr

/-- EX_WRITE_ORDER (D15, I25): which of the destination and EX is written first. -/
inductive ExWriteOrder
  | destThenEx
  | exThenDest
  deriving DecidableEq, Repr

/-- IA0_DROP (R264, D35, I3): what a dispatch with IA = 0 drops. -/
inductive Ia0Drop
  | all
  | head
  deriving DecidableEq, Repr

/-- BASE_COST (R350, D2, I20): the base cost of every instruction, in cycles. -/
structure BaseCosts where
  set : Nat
  add : Nat
  sub : Nat
  mul : Nat
  mli : Nat
  div : Nat
  dvi : Nat
  mod : Nat
  mdi : Nat
  and : Nat
  bor : Nat
  xor : Nat
  shr : Nat
  asr : Nat
  shl : Nat
  ifb : Nat
  ifc : Nat
  ife : Nat
  ifn : Nat
  ifg : Nat
  ifa : Nat
  ifl : Nat
  ifu : Nat
  adx : Nat
  sbx : Nat
  sti : Nat
  std : Nat
  jsr : Nat
  int : Nat
  iag : Nat
  ias : Nat
  rfi : Nat
  iaq : Nat
  hwn : Nat
  hwq : Nat
  hwi : Nat
  deriving DecidableEq, Repr

/-- OPCODE_VALUES (R9, R99, R100, D1, I19): the numeric value of every mnemonic, in the opcode field for a basic instruction and in the
special opcode field for a special one. -/
structure OpcodeValues where
  set : BitVec 5
  add : BitVec 5
  sub : BitVec 5
  mul : BitVec 5
  mli : BitVec 5
  div : BitVec 5
  dvi : BitVec 5
  mod : BitVec 5
  mdi : BitVec 5
  and : BitVec 5
  bor : BitVec 5
  xor : BitVec 5
  shr : BitVec 5
  asr : BitVec 5
  shl : BitVec 5
  ifb : BitVec 5
  ifc : BitVec 5
  ife : BitVec 5
  ifn : BitVec 5
  ifg : BitVec 5
  ifa : BitVec 5
  ifl : BitVec 5
  ifu : BitVec 5
  adx : BitVec 5
  sbx : BitVec 5
  sti : BitVec 5
  std : BitVec 5
  jsr : BitVec 5
  int : BitVec 5
  iag : BitVec 5
  ias : BitVec 5
  rfi : BitVec 5
  iaq : BitVec 5
  hwn : BitVec 5
  hwq : BitVec 5
  hwi : BitVec 5
  deriving DecidableEq, Repr

/-- The command values, error codes, flag bits and interrupt types of the Disk (R310, R311, D30, I14). A flag is the number of its bit. -/
structure DiskCodes where
  mediaQuery : Word
  parameterQuery : Word
  flagsGet : Word
  flagsSet : Word
  interruptTypeQuery : Word
  interruptMessageSet : Word
  readSectors : Word
  writeSectors : Word
  qualityQuery : Word
  /-- ERROR_NONE, ERROR_NO_MEDIA, ERROR_INVALID_SECTOR and ERROR_PENDING, R311. -/
  errorNone : Word
  errorNoMedia : Word
  errorInvalidSector : Word
  errorPending : Word
  /-- FLAG_NON_BLOCKING and FLAG_MEDIA_STATUS_INTERRUPT, R310. -/
  flagNonBlocking : Fin 16
  flagMediaStatus : Fin 16
  /-- INT_NONE, INT_MEDIA_STATUS, INT_READ_COMPLETE and INT_WRITE_COMPLETE, R310. -/
  intNone : Word
  intMediaStatus : Word
  intReadComplete : Word
  intWriteComplete : Word
  deriving DecidableEq, Repr

/-- The parameters of R9 and of the reference devices (R310, R311, R320), as plain data. -/
structure Params where
  /-- OPCODE_VALUES, R99, R100. -/
  opcodes : OpcodeValues
  /-- BASE_COST, R350. -/
  cost : BaseCosts
  /-- CLOCK_HZ, R355. -/
  clockHz : Nat
  /-- INT_ENTRY_CYCLES, D7. -/
  intEntryCycles : Nat
  skipInvalid : SkipInvalid
  shiftSemantics : ShiftSemantics
  adxExMode : AdxExMode
  sbxExReading : SbxExReading
  exWriteOrder : ExWriteOrder
  ia0Drop : Ia0Drop
  /-- DISPLAY_NAMETABLE_WORDS, R8, I9. -/
  nametableWords : Nat
  /-- DEFAULT_FONT, R320: no default. -/
  defaultFont : Vector Word 256
  /-- DEFAULT_PALETTE, R320, I16. -/
  defaultPalette : Vector Word 16
  /-- The Disk's command values, codes, bits and types, R310, R311, I14. -/
  diskCodes : DiskCodes
  /-- DISK_SECTOR_WORDS, R310. -/
  diskSectorWords : Nat
  /-- DISK_SECTORS, R310. -/
  diskSectors : Nat
  /-- DISK_SEEK_CYCLES, R310, R313: no default. -/
  diskSeekCycles : Nat
  /-- DISK_TRANSFER_CYCLES, R310, R313: no default. -/
  diskTransferCycles : Nat
  deriving DecidableEq, Repr

/-- DISK_SEEK_CYCLES of the reference drive: the spec gives no value (N67, I13), so nothing here does (log 30). -/
opaque Config.diskSeekCycles : Nat

/-- DISK_TRANSFER_CYCLES of the reference drive: no value in the spec (N67, I13, log 30). -/
opaque Config.diskTransferCycles : Nat

/-- DEFAULT_FONT (R320, I15): word k of the 256 words of the built-in font. No value in the spec (N69, log 32). -/
opaque Config.defaultFontWord : Nat → Word

end Sys2Proof
end

