-- ==== Sys2Proof/Syntax.lean ====
section
/-! DEFINITION. The instructions: one constructor for each row of the opcode table (R99, R100), over operand codes (R85 to
R94). An instruction is what its first word says: next words are read when an operand is resolved (R84, R110, log 45). -/

namespace Sys2Proof

/-- The eight general registers, in the order of their index (R12, R20). -/
inductive Gpr
  | a
  | b
  | c
  | x
  | y
  | z
  | i
  | j
  deriving DecidableEq, Repr

/-- An operand code (section 2 of 30_encoding.md). -/
inductive Operand
  /-- 0x00 to 0x07, register direct (R85). -/
  | reg (r : Gpr)
  /-- 0x08 to 0x0F, register indirect (R86). -/
  | ind (r : Gpr)
  /-- 0x10 to 0x17, register indirect with the next word as offset (R87). -/
  | indNext (r : Gpr)
  /-- 0x18, PUSH in the b field and POP in the a field (R88). -/
  | pushPop
  /-- 0x19, PEEK (R89). -/
  | peek
  /-- 0x1A, PICK n (R90). -/
  | pick
  /-- 0x1B, SP (R91). -/
  | sp
  /-- 0x1C, PC (R91). -/
  | pc
  /-- 0x1D, EX (R91). -/
  | ex
  /-- 0x1E, memory at the next word (R92). -/
  | memNext
  /-- 0x1F, the next word as a literal (R93). -/
  | litNext
  /-- 0x20 + k, the literal k - 1 (R94): a field only. -/
  | inline (k : BitVec 5)
  deriving DecidableEq, Repr

/-- The 36 instructions. A basic instruction takes b, the destination, and a, the source, in the order of its spelling
`MNEMONIC b, a` (R81, R104); a special instruction takes a (R82). -/
inductive Instr
  | set (b a : Operand)
  | add (b a : Operand)
  | sub (b a : Operand)
  | mul (b a : Operand)
  | mli (b a : Operand)
  | div (b a : Operand)
  | dvi (b a : Operand)
  | mod (b a : Operand)
  | mdi (b a : Operand)
  | and (b a : Operand)
  | bor (b a : Operand)
  | xor (b a : Operand)
  | shr (b a : Operand)
  | asr (b a : Operand)
  | shl (b a : Operand)
  | ifb (b a : Operand)
  | ifc (b a : Operand)
  | ife (b a : Operand)
  | ifn (b a : Operand)
  | ifg (b a : Operand)
  | ifa (b a : Operand)
  | ifl (b a : Operand)
  | ifu (b a : Operand)
  | adx (b a : Operand)
  | sbx (b a : Operand)
  | sti (b a : Operand)
  | std (b a : Operand)
  | jsr (a : Operand)
  | int (a : Operand)
  | iag (a : Operand)
  | ias (a : Operand)
  | rfi (a : Operand)
  | iaq (a : Operand)
  | hwn (a : Operand)
  | hwq (a : Operand)
  | hwi (a : Operand)
  deriving DecidableEq, Repr

end Sys2Proof
end

