-- ==== Sys2Proof/WellFormed.lean ====
section
/-! DEFINITION. Well-formed instructions: those an instruction word can spell. The one check is that a b field, five bits
wide, does not hold an inline literal (R81, R94). -/

namespace Sys2Proof

/-- The 5-bit b field can spell this operand: codes 0x00 to 0x1F only (R94). -/
def Operand.fitsB : Operand → Bool
  | .inline _ => false
  | _ => true

/-- An instruction word can spell this instruction (R81, R82). -/
def Instr.wf : Instr → Bool
  | .set b _ => b.fitsB
  | .add b _ => b.fitsB
  | .sub b _ => b.fitsB
  | .mul b _ => b.fitsB
  | .mli b _ => b.fitsB
  | .div b _ => b.fitsB
  | .dvi b _ => b.fitsB
  | .mod b _ => b.fitsB
  | .mdi b _ => b.fitsB
  | .and b _ => b.fitsB
  | .bor b _ => b.fitsB
  | .xor b _ => b.fitsB
  | .shr b _ => b.fitsB
  | .asr b _ => b.fitsB
  | .shl b _ => b.fitsB
  | .ifb b _ => b.fitsB
  | .ifc b _ => b.fitsB
  | .ife b _ => b.fitsB
  | .ifn b _ => b.fitsB
  | .ifg b _ => b.fitsB
  | .ifa b _ => b.fitsB
  | .ifl b _ => b.fitsB
  | .ifu b _ => b.fitsB
  | .adx b _ => b.fitsB
  | .sbx b _ => b.fitsB
  | .sti b _ => b.fitsB
  | .std b _ => b.fitsB
  | .jsr _ => true
  | .int _ => true
  | .iag _ => true
  | .ias _ => true
  | .rfi _ => true
  | .iaq _ => true
  | .hwn _ => true
  | .hwq _ => true
  | .hwi _ => true

end Sys2Proof
end

