-- ==== Sys2Proof/Decode.lean ====
section
/-! DEFINITION. The instruction word: its fields (R80), the operand codes (R85 to R94), the decoder (R99 to R101), the
length of an instruction (R83), and the encoder (R81, R82). Decoding is total and depends only on the word and the numbering
OPCODE_VALUES, a parameter (R9, R110). -/

namespace Sys2Proof

/-- The opcode field, bits 4 to 0 (R80). -/
def opField (w : Word) : BitVec 5 := w.extractLsb' 0 5

/-- The b field, bits 9 to 5 (R80): a destination code, or the special opcode. -/
def bField (w : Word) : BitVec 5 := w.extractLsb' 5 5

/-- The a field, bits 15 to 10 (R80). -/
def aField (w : Word) : BitVec 6 := w.extractLsb' 10 6

/-- A register from its index (R12, R20). -/
def gprOfIndex (n : BitVec 3) : Gpr :=
  match n.toNat with
  | 0 => .a
  | 1 => .b
  | 2 => .c
  | 3 => .x
  | 4 => .y
  | 5 => .z
  | 6 => .i
  | _ => .j

/-- The index of a register (R12, R20). -/
def gprIndex : Gpr → BitVec 3
  | .a => 0
  | .b => 1
  | .c => 2
  | .x => 3
  | .y => 4
  | .z => 5
  | .i => 6
  | .j => 7

/-- The operand a 6-bit code spells: the operand table of 30_encoding.md section 2. -/
def decodeOperand (code : BitVec 6) : Operand :=
  let r := gprOfIndex (code.extractLsb' 0 3)
  let k := code.extractLsb' 0 5
  match (code.extractLsb' 3 3).toNat with
  | 0 => .reg r
  | 1 => .ind r
  | 2 => .indNext r
  | 3 =>
    match (code.extractLsb' 0 3).toNat with
    | 0 => .pushPop
    | 1 => .peek
    | 2 => .pick
    | 3 => .sp
    | 4 => .pc
    | 5 => .ex
    | 6 => .memNext
    | _ => .litNext
  | _ => .inline k

/-- The code of an operand: the same table read the other way. -/
def encodeOperand : Operand → BitVec 6
  | .reg r => 0b000#3 ++ gprIndex r
  | .ind r => 0b001#3 ++ gprIndex r
  | .indNext r => 0b010#3 ++ gprIndex r
  | .pushPop => 0x18
  | .peek => 0x19
  | .pick => 0x1A
  | .sp => 0x1B
  | .pc => 0x1C
  | .ex => 0x1D
  | .memNext => 0x1E
  | .litNext => 0x1F
  | .inline k => 0b1#1 ++ k

/-- Why a word is no instruction (R101). -/
inductive DecodeError
  /-- The opcode field is not 0 and is the value of no basic instruction: 0x18, 0x19, 0x1C or 0x1D by default. -/
  | invalidBasic (o : BitVec 5)
  /-- The opcode field is 0 and the special opcode is the value of none of the nine. -/
  | invalidSpecial (op : BitVec 5)
  deriving DecidableEq, Repr

/-- The DCPU-16 1.7 numbering, the default of OPCODE_VALUES (R99, R100, D1, log 3). -/
def defaultOpcodes : OpcodeValues where
  set := 0x01
  add := 0x02
  sub := 0x03
  mul := 0x04
  mli := 0x05
  div := 0x06
  dvi := 0x07
  mod := 0x08
  mdi := 0x09
  and := 0x0A
  bor := 0x0B
  xor := 0x0C
  shr := 0x0D
  asr := 0x0E
  shl := 0x0F
  ifb := 0x10
  ifc := 0x11
  ife := 0x12
  ifn := 0x13
  ifg := 0x14
  ifa := 0x15
  ifl := 0x16
  ifu := 0x17
  adx := 0x1A
  sbx := 0x1B
  sti := 0x1E
  std := 0x1F
  jsr := 0x01
  int := 0x08
  iag := 0x09
  ias := 0x0A
  rfi := 0x0B
  iaq := 0x0C
  hwn := 0x10
  hwq := 0x11
  hwi := 0x12

/-- The basic opcode map (R99), from SET to SHL. -/
def arithmeticTable (v : OpcodeValues) : List (BitVec 5 × (Operand → Operand → Instr)) :=
  [(v.set, Instr.set), (v.add, Instr.add), (v.sub, Instr.sub), (v.mul, Instr.mul),
    (v.mli, Instr.mli), (v.div, Instr.div), (v.dvi, Instr.dvi), (v.mod, Instr.mod),
    (v.mdi, Instr.mdi), (v.and, Instr.and), (v.bor, Instr.bor), (v.xor, Instr.xor),
    (v.shr, Instr.shr), (v.asr, Instr.asr), (v.shl, Instr.shl)]

/-- The basic opcode map, the conditional class (R99, R103). -/
def conditionalTable (v : OpcodeValues) : List (BitVec 5 × (Operand → Operand → Instr)) :=
  [(v.ifb, Instr.ifb), (v.ifc, Instr.ifc), (v.ife, Instr.ife), (v.ifn, Instr.ifn),
    (v.ifg, Instr.ifg), (v.ifa, Instr.ifa), (v.ifl, Instr.ifl), (v.ifu, Instr.ifu)]

/-- The basic opcode map, from ADX to STD (R99). -/
def carryTable (v : OpcodeValues) : List (BitVec 5 × (Operand → Operand → Instr)) :=
  [(v.adx, Instr.adx), (v.sbx, Instr.sbx), (v.sti, Instr.sti), (v.std, Instr.std)]

/-- The basic opcode map (R99), the conditionals first. -/
def basicTable (v : OpcodeValues) : List (BitVec 5 × (Operand → Operand → Instr)) :=
  conditionalTable v ++ (arithmeticTable v ++ carryTable v)

/-- The special opcode map (R100). -/
def specialTable (v : OpcodeValues) : List (BitVec 5 × (Operand → Instr)) :=
  [(v.jsr, Instr.jsr), (v.int, Instr.int), (v.iag, Instr.iag), (v.ias, Instr.ias),
    (v.rfi, Instr.rfi), (v.iaq, Instr.iaq), (v.hwn, Instr.hwn), (v.hwq, Instr.hwq),
    (v.hwi, Instr.hwi)]

/-- A numbering: no two basic instructions share a value and none has 0, which marks a special instruction; no two special
instructions share a value (R99, R100). -/
def OpcodeValues.wf (v : OpcodeValues) : Bool :=
  decide ((basicTable v).map Prod.fst).Nodup && decide (0 ∉ (basicTable v).map Prod.fst)
    && decide ((specialTable v).map Prod.fst).Nodup

/-- The row of an opcode value. -/
def findRow {α : Type} (o : BitVec 5) : List (BitVec 5 × α) → Option α
  | [] => none
  | (k, x) :: rows => if o = k then some x else findRow o rows

/-- A basic instruction (R99), or an invalid opcode value (R101). -/
def decodeBasic (v : OpcodeValues) (o : BitVec 5) (b a : Operand) : Except DecodeError Instr :=
  match findRow o (basicTable v) with
  | some mk => .ok (mk b a)
  | none => .error (.invalidBasic o)

/-- A special instruction (R100), or an invalid special opcode (R101). -/
def decodeSpecial (v : OpcodeValues) (op : BitVec 5) (a : Operand) : Except DecodeError Instr :=
  match findRow op (specialTable v) with
  | some mk => .ok (mk a)
  | none => .error (.invalidSpecial op)

/-- The decoder under a numbering: every word is one of the 36 instructions or invalid by name (R101, R109). -/
def decode (v : OpcodeValues) (w : Word) : Except DecodeError Instr :=
  if opField w = 0 then decodeSpecial v (bField w) (decodeOperand (aField w))
  else decodeBasic v (opField w) (decodeOperand (0b0#1 ++ bField w)) (decodeOperand (aField w))

/-- The word is an invalid encoding (R101, R170). -/
def isInvalid (v : OpcodeValues) (w : Word) : Bool :=
  match decode v w with
  | .ok _ => false
  | .error _ => true

/-- The word is a conditional: a basic word whose opcode is that of an IF, 0x10 to 0x17 by default (R103). -/
def isConditional (v : OpcodeValues) (w : Word) : Bool :=
  opField w != 0 && ((conditionalTable v).map Prod.fst).contains (opField w)

/-- How many next words an operand takes: 0 or 1 (R83). -/
def nextWords : Operand → Nat
  | .indNext _ => 1
  | .pick => 1
  | .memNext => 1
  | .litNext => 1
  | _ => 0

/-- The length in words of the instruction a word begins, told from that word alone; of an invalid word too (R83). -/
def lengthOf (w : Word) : Nat :=
  1 + nextWords (decodeOperand (aField w))
    + (if opField w = 0 then 0 else nextWords (decodeOperand (0b0#1 ++ bField w)))

/-- A basic instruction word, `aaaaaabbbbbooooo` (R81). -/
def encodeBasic (o : BitVec 5) (b a : Operand) : Word :=
  encodeOperand a ++ (encodeOperand b).extractLsb' 0 5 ++ o

/-- A special instruction word, `aaaaaaooooo00000` (R82). -/
def encodeSpecial (op : BitVec 5) (a : Operand) : Word := encodeOperand a ++ op ++ 0b00000#5

/-- The encoder under a numbering: the first word of an instruction (R99, R100). -/
def encode (v : OpcodeValues) : Instr → Word
  | .set b a => encodeBasic v.set b a
  | .add b a => encodeBasic v.add b a
  | .sub b a => encodeBasic v.sub b a
  | .mul b a => encodeBasic v.mul b a
  | .mli b a => encodeBasic v.mli b a
  | .div b a => encodeBasic v.div b a
  | .dvi b a => encodeBasic v.dvi b a
  | .mod b a => encodeBasic v.mod b a
  | .mdi b a => encodeBasic v.mdi b a
  | .and b a => encodeBasic v.and b a
  | .bor b a => encodeBasic v.bor b a
  | .xor b a => encodeBasic v.xor b a
  | .shr b a => encodeBasic v.shr b a
  | .asr b a => encodeBasic v.asr b a
  | .shl b a => encodeBasic v.shl b a
  | .ifb b a => encodeBasic v.ifb b a
  | .ifc b a => encodeBasic v.ifc b a
  | .ife b a => encodeBasic v.ife b a
  | .ifn b a => encodeBasic v.ifn b a
  | .ifg b a => encodeBasic v.ifg b a
  | .ifa b a => encodeBasic v.ifa b a
  | .ifl b a => encodeBasic v.ifl b a
  | .ifu b a => encodeBasic v.ifu b a
  | .adx b a => encodeBasic v.adx b a
  | .sbx b a => encodeBasic v.sbx b a
  | .sti b a => encodeBasic v.sti b a
  | .std b a => encodeBasic v.std b a
  | .jsr a => encodeSpecial v.jsr a
  | .int a => encodeSpecial v.int a
  | .iag a => encodeSpecial v.iag a
  | .ias a => encodeSpecial v.ias a
  | .rfi a => encodeSpecial v.rfi a
  | .iaq a => encodeSpecial v.iaq a
  | .hwn a => encodeSpecial v.hwn a
  | .hwq a => encodeSpecial v.hwq a
  | .hwi a => encodeSpecial v.hwi a

/-- The first word of an instruction whose `nbits` lowest bits are those of `w` and whose other bits are 0: bit 0 is the
least significant bit of the first word. -/
def firstWordOf (nbits w : Nat) : Word := BitVec.ofNat 16 (w % 2 ^ nbits)

/-- The instruction the decoder reads from a word of the opcode table, whose numbering is the default. -/
def decodeTableWord (nbits w : Nat) : Option Instr :=
  match decode defaultOpcodes (firstWordOf nbits w) with
  | .ok i => some i
  | .error _ => none

end Sys2Proof
end

