-- ==== Sys2Proof/Machine/Params.lean ====
section
/-! DEFINITION. The default value of every parameter (R9), as the spec states it; where it states none, see the log entry. -/

namespace Sys2Proof.Machine

/-- The base cost table (R350, D2, log 4). -/
def defaultCosts : BaseCosts where
  set := 1
  add := 2
  sub := 2
  mul := 2
  mli := 2
  div := 3
  dvi := 3
  mod := 3
  mdi := 3
  and := 1
  bor := 1
  xor := 1
  shr := 1
  asr := 1
  shl := 1
  ifb := 2
  ifc := 2
  ife := 2
  ifn := 2
  ifg := 2
  ifa := 2
  ifl := 2
  ifu := 2
  adx := 3
  sbx := 3
  sti := 2
  std := 2
  jsr := 3
  int := 4
  iag := 1
  ias := 1
  rfi := 3
  iaq := 2
  hwn := 2
  hwq := 4
  hwi := 4

/-- The HMD2043's command values, error codes, flag bits and interrupt types (R310, R311, D30, log 30). -/
def defaultDiskCodes : DiskCodes where
  mediaQuery := 0x0000
  parameterQuery := 0x0001
  flagsGet := 0x0002
  flagsSet := 0x0003
  interruptTypeQuery := 0x0004
  interruptMessageSet := 0x0005
  readSectors := 0x0010
  writeSectors := 0x0011
  qualityQuery := 0xFFFF
  errorNone := 0x0000
  errorNoMedia := 0x0001
  errorInvalidSector := 0x0002
  errorPending := 0x0003
  flagNonBlocking := 0
  flagMediaStatus := 1
  intNone := 0
  intMediaStatus := 1
  intReadComplete := 2
  intWriteComplete := 3

/-- The LEM1802's palette (R320, D34, log 32). -/
def lemPalette : Vector Word 16 :=
  #v[0x0000, 0x000A, 0x00A0, 0x00AA, 0x0A00, 0x0A0A, 0x0A50, 0x0AAA,
    0x0555, 0x055F, 0x05F5, 0x05FF, 0x0F55, 0x0F5F, 0x0FF5, 0x0FFF]

/-- The parameters of a machine nobody has configured otherwise (R9, R310, R320). `skipInvalid` is OPEN in the spec: DESIGN
CHOICE, unsafe, log 5. The font and the two disk time constants are OPEN and stay free (log 30, log 32). -/
def defaultParams : Params where
  opcodes := defaultOpcodes
  cost := defaultCosts
  clockHz := 100000
  intEntryCycles := 0
  skipInvalid := .skip
  shiftSemantics := .exact
  adxExMode := .flag
  sbxExReading := .unsigned
  exWriteOrder := .destThenEx
  ia0Drop := .all
  nametableWords := 386
  defaultFont := Vector.ofFn fun k => Config.defaultFontWord k.val
  defaultPalette := lemPalette
  diskCodes := defaultDiskCodes
  diskSectorWords := 512
  diskSectors := 1440
  diskSeekCycles := Config.diskSeekCycles
  diskTransferCycles := Config.diskTransferCycles

end Sys2Proof.Machine
end

