-- ==== Sys2Proof/Machine/State.lean ====
section
/-! DEFINITION. The state of the machine as plain data (10_state.md), the ways a step stops, and the state after reset. -/

namespace Sys2Proof.Machine

/-- One word of memory at an address: the machine addresses words and never a byte (R60, R62, R66, log 1). -/
abbrev WordCell := Nat × Word

/-- Memory in canonical form (`Memory.wf`): addresses strictly rising, no cell that holds what an unlisted address reads
as. The same form holds a disk's medium (log 43). -/
abbrev Memory := List WordCell

/-- The general registers (R20). -/
structure Gprs where
  a : Word
  b : Word
  c : Word
  x : Word
  y : Word
  z : Word
  i : Word
  j : Word
  deriving DecidableEq, Repr

/-- The record a fatal fault leaves (R28, R251): its kind, and the information recorded with it. -/
inductive Fire
  /-- Code 1: the instruction word and its address. -/
  | invalidOpcode (word addr : Word)
  /-- Code 2: the device index. -/
  | noSuchDevice (index : Word)
  /-- Code 3: the message whose append overflowed. -/
  | queueOverflow (message : Word)
  deriving DecidableEq, Repr

/-- A range of memory a device reads: start address and length, re-resolved at each access (R74). -/
structure View where
  base : Word
  len : Nat
  deriving DecidableEq, Repr

/-- Clock state (R301). -/
structure ClockState where
  rate : Word
  ticks : Word
  acc60 : Nat
  message : Word
  deriving DecidableEq, Repr

/-- Keyboard state (R305). `down` is a set: codes strictly rising (log 29). -/
structure KeyboardState where
  buffer : List Word
  down : List Word
  message : Word
  deriving DecidableEq, Repr

/-- The direction of a disk job (R310). -/
inductive JobDirection
  | read
  | write
  deriving DecidableEq, Repr

/-- A disk job (R310): one sector. -/
structure Job where
  direction : JobDirection
  sector : Nat
  address : Word
  deriving DecidableEq, Repr

/-- Disk state (R310). Word k of sector n of the medium has the key `n * DISK_SECTOR_WORDS + k` (log 43). -/
structure DiskState where
  media : Option Memory
  flags : Word
  intType : Word
  message : Word
  head : Nat
  jobs : List Job
  acc : Nat
  deriving DecidableEq, Repr

/-- Display state (R320). `nametable = none` is null; `font = none` and `palette = none` are the defaults. -/
structure DisplayState where
  nametable : Option View
  font : Option View
  palette : Option View
  border : BitVec 4
  deriving DecidableEq, Repr

/-- A register a device can reach through its CPU handle (R291). -/
inductive HandleReg
  | gpr (r : Gpr)
  | pc
  | sp
  | ex
  | ia
  deriving DecidableEq, Repr

/-- What a device can do to the machine through its CPU handle at any time it may act (R291, R292). -/
inductive BusAction
  | setReg (r : HandleReg) (v : Word)
  | setMem (addr v : Word)
  | trigger (message : Word)
  deriving DecidableEq, Repr

/-- What a device can do during `receive`: also consume cycles (R292, R293). -/
inductive ReceiveAction
  | act (b : BusAction)
  | consume (cycles : Nat)
  deriving DecidableEq, Repr

/-- A device that is none of the reference devices: what it will do at its next `receive` calls and at its next `clock`
calls, one list of actions a call. The spec gives such a device no behaviour, so this is a FREE VALUE: a claim about all
states holds for every behaviour (log 10). -/
structure OtherState where
  receives : List (List ReceiveAction)
  clocks : List (List BusAction)
  deriving DecidableEq, Repr

/-- The device variants (R287). -/
inductive DeviceBody
  | clock (c : ClockState)
  | keyboard (k : KeyboardState)
  | disk (d : DiskState)
  | display (d : DisplayState)
  | other (o : OtherState)
  deriving DecidableEq, Repr

/-- The read-only identity of a device (R288). -/
structure DeviceIdent where
  deviceId : BitVec 32
  vendorId : BitVec 32
  revision : Word
  description : String
  deriving DecidableEq, Repr

/-- An attached device. `handle` tells device objects apart (R285 "device already present", log 11). -/
structure Device where
  handle : Nat
  ident : DeviceIdent
  body : DeviceBody
  deriving DecidableEq, Repr

/-- The whole machine (R37), with the configuration a step reads (`image`, `params`; R35, log 2). -/
structure State where
  /-- A, B, C, X, Y, Z, I, J (R20). -/
  gpr : Gprs
  /-- The address of the next word the engine will fetch (R22). -/
  pc : Word
  /-- The stack pointer (R23). -/
  sp : Word
  /-- The overflow register (R24). -/
  ex : Word
  /-- The interrupt address (R25). -/
  ia : Word
  /-- The queueing flag (R26). -/
  iaq : Bool
  /-- The interrupt queue, front first (R27). -/
  queue : List Word
  /-- The fire state (R28). -/
  fire : Option Fire
  /-- Main memory (R30). -/
  mem : Memory
  /-- The attached devices, by index (R29). -/
  devices : List Device
  /-- The cost of the step so far; after a step, the cost it returned (R31, R109, log 36). -/
  cyc : Nat
  /-- Configuration: the program image the next reset installs (R35, R331). -/
  image : List Word
  /-- Configuration: the parameters (R9, R35). -/
  params : Params
  deriving DecidableEq, Repr

/-- Why the machine stops. -/
inductive Fault
  /-- A fatal machine fault (R250, R251), and the machine as the fault left it (R252), `post.fire` set. Raised by decode and
  by the skip chain (INVALID_OPCODE), by HWQ and HWI (NO_SUCH_DEVICE), by a device's trigger (QUEUE_OVERFLOW), and by a step
  of a machine already on fire. It is the spec's own stop (log 8, log 13): safe. -/
  | fire (kind : Fire) (post : State)
  /-- A skip chain that never ends, so a step that never returns (R171, I11 "stuck"). Raised by a failed conditional. The
  bound that finds it is exact (log 9): safe. -/
  | skipChainHangs
  deriving DecidableEq, Repr

/-- Why a call has no meaning. -/
inductive Refusal
  /-- Raised by a dispatch arm that has no meaning yet: safe. No arm is one. -/
  | notModelled (mnemonic : String)
  /-- Raised by `attach` of a device already present, or with 65535 devices attached: the spec's own "reject" (R285, I28).
  The machine is unchanged: safe. -/
  | attachRejected
  /-- Raised by `load` of an image over 65536 words or of a byte stream of odd length or over 131072 bytes (R331, D19, I26):
  safe. -/
  | imageRefused
  /-- Raised by a host event addressed to a device that is not attached or is of another kind: the spec gives such a call no
  meaning (R335). Safe. -/
  | noSuchEventTarget
  deriving DecidableEq, Repr

/-- What a step, an instruction or a host call answers. -/
abbrev Result := Host.Outcome State Fault Refusal

/-- The machine right after reset, newly constructed: no image, no device (R37, R330, R332). -/
def State.reset : State where
  gpr := ⟨0, 0, 0, 0, 0, 0, 0, 0⟩
  pc := 0
  sp := 0
  ex := 0
  ia := 0
  iaq := false
  queue := []
  fire := none
  mem := []
  devices := []
  cyc := 0
  image := []
  params := defaultParams

end Sys2Proof.Machine
end

