-- ==== Sys2Proof/Machine/Ops.lean ====
section
/-! DEFINITION. The shared operations: registers, memory, the stack, the fetch of a word, the fatal fault, and the interrupt
controller with entry and return (R12, R13, R15, R96, R250, R262 to R264, R270, R214). -/

namespace Sys2Proof.Machine

/-! ## Numbers (R10, R11) -/

/-- `u16(v) = v mod 2^16`, of any integer (R10). -/
def u16 (v : Int) : Word := BitVec.ofInt 16 v

/-- The unsigned reading of a word, as an integer (R10). -/
def uval (w : Word) : Int := (w.toNat : Int)

/-- `sext_16(w)`, the two's-complement reading of a word (R11). -/
def sval (w : Word) : Int := if w.toNat < 0x8000 then (w.toNat : Int) else (w.toNat : Int) - 0x10000

/-! ## Memory (R13, R30, R60 to R65) -/

/-- What an unlisted address reads as: reset zeroes all of memory that the image does not cover (R30, R330). -/
def unlistedWord : Word := 0

/-- The word at an address. -/
def Memory.read : Memory → Nat → Word
  | [], _ => unlistedWord
  | (k, w) :: m, a => if a = k then w else Memory.read m a

/-- The memory with `v` stored at `a`, in canonical form again. -/
def Memory.write : Memory → Nat → Word → Memory
  | [], a, v => if v = unlistedWord then [] else [(a, v)]
  | (k, w) :: m, a, v =>
    if a < k then
      if v = unlistedWord then (k, w) :: m else (a, v) :: (k, w) :: m
    else if a = k then
      if v = unlistedWord then m else (a, v) :: m
    else (k, w) :: Memory.write m a v

/-- The addresses rise strictly from `lo` on, stay below `bound`, and no cell holds what an unlisted address reads as. -/
def Memory.wfFrom (lo bound : Nat) : Memory → Bool
  | [] => true
  | (k, w) :: m => lo ≤ k && k < bound && w != unlistedWord && Memory.wfFrom (k + 1) bound m

/-- The canonical form of a memory of `bound` words. -/
def Memory.wf (bound : Nat) (m : Memory) : Bool := Memory.wfFrom 0 bound m

/-- The memory that holds a word sequence from address `base` on and nothing else, in canonical form (R331). -/
def Memory.ofWordsFrom (base : Nat) : List Word → Memory
  | [] => []
  | w :: ws =>
    if w = unlistedWord then Memory.ofWordsFrom (base + 1) ws else (base, w) :: Memory.ofWordsFrom (base + 1) ws

/-- Main memory has 65536 words (R8 MEM_WORDS). -/
def memWords : Nat := 65536

/-- `MemRead(addr, 1)` (R13). -/
def State.readMem (s : State) (a : Word) : Word := Memory.read s.mem a.toNat

/-- `MemWrite(addr, 1, v)` (R13). -/
def State.writeMem (s : State) (a v : Word) : State := { s with mem := Memory.write s.mem a.toNat v }

/-! ## Registers (R12, R20 to R26) -/

/-- Read general register r (R12). -/
def Gprs.get (g : Gprs) : Gpr → Word
  | .a => g.a
  | .b => g.b
  | .c => g.c
  | .x => g.x
  | .y => g.y
  | .z => g.z
  | .i => g.i
  | .j => g.j

/-- Write general register r (R12). -/
def Gprs.put (g : Gprs) (r : Gpr) (v : Word) : Gprs :=
  match r with
  | .a => { g with a := v }
  | .b => { g with b := v }
  | .c => { g with c := v }
  | .x => { g with x := v }
  | .y => { g with y := v }
  | .z => { g with z := v }
  | .i => { g with i := v }
  | .j => { g with j := v }

def State.setGpr (s : State) (r : Gpr) (v : Word) : State := { s with gpr := s.gpr.put r v }

def State.setPc (s : State) (v : Word) : State := { s with pc := v }

def State.setSp (s : State) (v : Word) : State := { s with sp := v }

def State.setEx (s : State) (v : Word) : State := { s with ex := v }

def State.setIa (s : State) (v : Word) : State := { s with ia := v }

def State.setIaq (s : State) (b : Bool) : State := { s with iaq := b }

def State.setQueue (s : State) (q : List Word) : State := { s with queue := q }

def State.setFire (s : State) (f : Option Fire) : State := { s with fire := f }

/-- The step's cost grows (R31); also `Consume` (R293). -/
def State.addCycles (s : State) (n : Nat) : State := { s with cyc := s.cyc + n }

/-- The state of device `i`'s own, if there is such a device (R29). -/
def State.bodyAt (s : State) (i : Nat) : Option DeviceBody := (s.devices[i]?).map Device.body

/-- The list of devices with the body of device `i` replaced; as it was where there is no device `i`. -/
def putBody : List Device → Nat → DeviceBody → List Device
  | [], _, _ => []
  | d :: ds, 0, b => { d with body := b } :: ds
  | d :: ds, i + 1, b => d :: putBody ds i b

/-- Device `i` moves to another state of its own (R29). -/
def State.setBody (s : State) (i : Nat) (b : DeviceBody) : State := { s with devices := putBody s.devices i b }

/-! ## The stack and the fetch of a word (R13) -/

/-- `FetchNext()`: the word at PC, and PC one further. -/
def fetchNext (s : State) : Word × State := (s.readMem s.pc, s.setPc (s.pc + 1))

/-- `Push(v)`: SP goes down, then the word is written. -/
def push (v : Word) (s : State) : State := (s.setSp (s.sp - 1)).writeMem (s.sp - 1) v

/-- `Pop()`: the word is read, then SP goes up. -/
def pop (s : State) : Word × State := (s.readMem s.sp, s.setSp (s.sp + 1))

/-! ## Outcomes -/

/-- Go on from the next state; a stop stays a stop. -/
def andThen (r : Result) (f : State → Result) : Result :=
  match r with
  | .next s => f s
  | .fault e => .fault e
  | .refused e => .refused e

/-- `raise Fire(k)`: set fire, and end the step at once with the state reached (R250, R252). -/
def raise (k : Fire) (s : State) : Result := .fault (.fire k (s.setFire (some k)))

/-- The code of a fault kind (R251, D18). -/
def Fire.code : Fire → Nat
  | .invalidOpcode _ _ => 1
  | .noSuchDevice _ => 2
  | .queueOverflow _ => 3

/-! ## The interrupt controller -/

/-- QUEUE_MAX (R8, R263). -/
def queueMax : Nat := 256

/-- Interrupt entry with message `m`, `rest` staying queued: queueing on, PC then A pushed, PC at the handler, the message in
A (R264, R270). The cost INT_ENTRY_CYCLES is 0 by default (D7, log 18). -/
def enterInterrupt (m : Word) (rest : List Word) (s : State) : State :=
  let s1 := push s.pc (s.setIaq true)
  let s2 := push (s1.gpr.get .a) s1
  ((((s2.setPc s2.ia).setGpr .a m).setQueue rest).addCycles s2.params.intEntryCycles)

/-- What stays queued of the messages when a dispatch finds IA = 0 (R264, D35, log 17). -/
def droppedQueue (mode : Ia0Drop) (rest : List Word) : List Word :=
  match mode with
  | .all => []
  | .head => rest

/-- `Dispatch()` (R264). -/
def dispatch (s : State) : State :=
  match s.queue with
  | [] => s
  | m :: rest =>
    if s.iaq then s
    else if s.ia = 0 then s.setQueue (droppedQueue s.params.ia0Drop rest)
    else enterInterrupt m rest s

/-- `Trigger(msg, bypass)` (R262). -/
def trigger (m : Word) (bypass : Bool) (s : State) : Result :=
  if s.fire.isSome then .next s
  else if bypass then .next (dispatch ((s.setIaq false).setQueue (m :: s.queue)))
  else if queueMax < (s.queue ++ [m]).length then raise (.queueOverflow m) (s.setQueue (s.queue ++ [m]))
  else .next (dispatch (s.setQueue (s.queue ++ [m])))

/-- The return from an interrupt: queueing off, A popped, then PC, then a waiting message dispatched (R214, R271). -/
def returnFromInterrupt (s : State) : State :=
  let p := pop (s.setIaq false)
  let q := pop (p.2.setGpr .a p.1)
  dispatch (q.2.setPc q.1)

end Sys2Proof.Machine
end

