-- ==== Sys2Proof/Machine/Clock.lean ====
section
/-! DEFINITION. The reference Clock (60_exceptions.md section 6.1). -/

namespace Sys2Proof.Machine

/-- Every field at its reset value (R301). -/
def clockReset : ClockState := ⟨0, 0, 0, 0⟩

/-- The Generic Clock's identity (R301, R318, log 27). -/
def clockIdent : DeviceIdent := ⟨0x12D0B402, 0x00000000, 0x0001, "Generic Clock"⟩

/-- The Clock's commands, on the Clock that is device `i` (R302). -/
def clockReceive (i : Nat) (c : ClockState) (command : Word) (s : State) : State :=
  match command.toNat with
  | 0 => s.setBody i (.clock { c with rate := s.gpr.get .b, ticks := 0, acc60 := 0 })
  | 1 => (s.setGpr .c c.ticks).setBody i (.clock { c with ticks := 0 })
  | 2 => s.setBody i (.clock { c with message := s.gpr.get .b })
  | _ => s

/-- Sixty times the cycles of one tick: CLOCK_HZ x rate (R303). -/
def clockPeriod60 (p : Params) (c : ClockState) : Nat := p.clockHz * c.rate.toNat

/-- `n` passes of the tick loop: each takes one tick's cycles, counts it, and triggers if the message is not 0 (R303). -/
def clockTicks (i : Nat) : Nat → ClockState → State → Result
  | 0, _, s => .next s
  | n + 1, c, s =>
    let c' := { c with acc60 := c.acc60 - clockPeriod60 s.params c, ticks := c.ticks + 1 }
    let s' := s.setBody i (.clock c')
    if c.message = 0 then clockTicks i n c' s'
    else andThen (trigger c.message false s') (clockTicks i n c')

/-- `clock(n)` on the Clock that is device `i` (R303). The loop runs while the accumulator holds a whole period: as often as the
period goes into it. With a period of 0 (CLOCK_HZ = 0) no tick is counted (log 23). -/
def clockAdvance (i : Nat) (c : ClockState) (n : Nat) (s : State) : Result :=
  if c.rate = 0 then .next s
  else
    let c' := { c with acc60 := c.acc60 + 60 * n }
    clockTicks i (c'.acc60 / clockPeriod60 s.params c') c' (s.setBody i (.clock c'))

end Sys2Proof.Machine
end

