-- ==== Sys2Proof/Machine/Disk.lean ====
section
/-! DEFINITION. The reference Disk controller (60_exceptions.md section 6.3). Command values, error codes, flag bits and interrupt
types are parameters, the HMD2043's by default (R310, R311, I14, log 30); the rules the source leaves open are those of D42 (log 31). -/

namespace Sys2Proof.Machine

/-- FLAG_NON_BLOCKING and FLAG_MEDIA_STATUS_INTERRUPT of the flags register (R310). -/
def flagNonBlocking (p : Params) (d : DiskState) : Bool := d.flags.getLsbD p.diskCodes.flagNonBlocking
def flagMediaStatus (p : Params) (d : DiskState) : Bool := d.flags.getLsbD p.diskCodes.flagMediaStatus

/-- A disk newly made, with this medium (R310). -/
def diskNew (p : Params) (media : Option Memory) : DiskState := ⟨media, 0, p.diskCodes.intNone, 0, 0, [], 0⟩

/-- Every field at its reset value; the medium stays (R310). -/
def diskReset (p : Params) (d : DiskState) : DiskState := diskNew p d.media

/-- The HMD2043's identity (R310, R318, log 27). -/
def diskIdent : DeviceIdent := ⟨0x74FA4CAE, 0x21544948, 0x07C2, "HMD2043"⟩

/-- Job cost: the seek distance times the seek constant, plus the transfer constant (R313). -/
def jobCost (p : Params) (head : Nat) (j : Job) : Nat :=
  (if head ≤ j.sector then j.sector - head else head - j.sector) * p.diskSeekCycles + p.diskTransferCycles

/-- Word k of the memory block of a job (R312): addresses wrap (R61). -/
def jobAddress (j : Job) (k : Nat) : Nat := (j.address + BitVec.ofNat 16 k).toNat

/-- Word k of the sector of a job, as a key of the medium. -/
def jobKey (p : Params) (j : Job) (k : Nat) : Nat := j.sector * p.diskSectorWords + k

/-- A read job's transfer: the sector's words go to memory, in order (R312). -/
def sectorToMemory (p : Params) (j : Job) (media mem : Memory) : Memory :=
  (List.range p.diskSectorWords).foldl
    (fun m k => Memory.write m (jobAddress j k) (Memory.read media (jobKey p j k))) mem

/-- A write job's transfer: the memory block's words go to the sector, in order (R312). -/
def memoryToSector (p : Params) (j : Job) (mem media : Memory) : Memory :=
  (List.range p.diskSectorWords).foldl
    (fun m k => Memory.write m (jobKey p j k) (Memory.read mem (jobAddress j k))) media

/-- The medium and main memory after the transfer of a job (R312). A job never waits while there is no medium (R316); were it to,
nothing would move (log 43). -/
def transfer (p : Params) (j : Job) (media : Option Memory) (mem : Memory) : Option Memory × Memory :=
  match media with
  | none => (none, mem)
  | some md =>
    match j.direction with
    | .read => (some md, sectorToMemory p j md mem)
    | .write => (some (memoryToSector p j mem md), mem)

/-- The disk that is device `i` runs job `j`: transfer, and the head moves to its sector; `d` is the disk without the job (R313 to
R315). -/
def runJob (i : Nat) (j : Job) (d : DiskState) (s : State) : DiskState × State :=
  let t := transfer s.params j d.media s.mem
  let d' := { d with media := t.1, head := j.sector }
  (d', { s with mem := t.2 }.setBody i (.disk d'))

/-- Blocking mode: every queued job runs within the call, its cost consumed first (R314). -/
def runBlocking (i : Nat) : List Job → DiskState → State → State
  | [], _, s => s
  | j :: rest, d, s =>
    let r := runJob i j { d with jobs := rest } (s.addCycles (jobCost s.params d.head j))
    runBlocking i rest r.1 r.2

/-- The jobs of a request: one a sector (R312). -/
def requestJobs (p : Params) (dir : JobDirection) (sector count : Nat) (address : Word) : List Job :=
  (List.range count).map fun k => ⟨dir, sector + k, address + BitVec.ofNat 16 (k * p.diskSectorWords)⟩

/-- A read or write request: B the first sector, C the count, X the address; the first case that applies (R312). -/
def diskRequest (i : Nat) (dir : JobDirection) (d : DiskState) (s : State) : State :=
  let sector := (s.gpr.get .b).toNat
  let count := (s.gpr.get .c).toNat
  if d.media.isNone then s.setGpr .a s.params.diskCodes.errorNoMedia
  else if d.jobs ≠ [] then s.setGpr .a s.params.diskCodes.errorPending
  else if s.params.diskSectors < sector + count then s.setGpr .a s.params.diskCodes.errorInvalidSector
  else
    let jobs := requestJobs s.params dir sector count (s.gpr.get .x)
    let d' := { d with jobs := jobs }
    let s' := (s.setGpr .a s.params.diskCodes.errorNone).setBody i (.disk d')
    if flagNonBlocking s.params d then s' else runBlocking i jobs d' s'

/-- The Disk's commands, on the Disk that is device `i` (R311), their values those of the parameters. -/
def diskReceive (i : Nat) (d : DiskState) (command : Word) (s : State) : State :=
  let c := s.params.diskCodes
  if command = c.mediaQuery then (s.setGpr .b (if d.media.isSome then 1 else 0)).setGpr .a c.errorNone
  else if command = c.parameterQuery then
    if d.media.isSome then
      (((s.setGpr .b (BitVec.ofNat 16 s.params.diskSectorWords)).setGpr .c
        (BitVec.ofNat 16 s.params.diskSectors)).setGpr .x 0).setGpr .a c.errorNone
    else s.setGpr .a c.errorNoMedia
  else if command = c.flagsGet then (s.setGpr .b d.flags).setGpr .a c.errorNone
  else if command = c.flagsSet then
    (s.setBody i (.disk { d with flags := s.gpr.get .b })).setGpr .a c.errorNone
  else if command = c.interruptTypeQuery then (s.setGpr .b d.intType).setGpr .a c.errorNone
  else if command = c.interruptMessageSet then
    (s.setBody i (.disk { d with message := s.gpr.get .b })).setGpr .a c.errorNone
  else if command = c.readSectors then diskRequest i .read d s
  else if command = c.writeSectors then diskRequest i .write d s
  else if command = c.qualityQuery then (s.setGpr .b 0x7FFF).setGpr .a c.errorNone
  else s

/-- The interrupt type a drained queue leaves, from its last job (R315). -/
def completionType (p : Params) : JobDirection → Word
  | .read => p.diskCodes.intReadComplete
  | .write => p.diskCodes.intWriteComplete

/-- The Disk's interrupt, if it is enabled (R300, R315, R316). -/
def diskSignal (d : DiskState) (s : State) : Result :=
  if d.message = 0 then .next s else trigger d.message false s

/-- The job loop of `clock(n)`, the accumulator already advanced: run the front job while its cost is covered; when the queue
drains, record the cause and trigger once (R315). -/
def drainJobs (i : Nat) : List Job → DiskState → State → Result
  | [], _, s => .next s
  | j :: rest, d, s =>
    if d.acc < jobCost s.params d.head j then .next s
    else
      let r := runJob i j { d with jobs := rest, acc := d.acc - jobCost s.params d.head j } s
      match rest with
      | [] =>
        let d' := { r.1 with acc := 0, intType := completionType s.params j.direction }
        diskSignal d' (r.2.setBody i (.disk d'))
      | k :: more => drainJobs i (k :: more) r.1 r.2

/-- `clock(n)` on the Disk that is device `i` (R315). -/
def diskAdvance (i : Nat) (d : DiskState) (n : Nat) (s : State) : Result :=
  match d.jobs with
  | [] => .next s
  | jobs =>
    let d' := { d with acc := d.acc + n }
    drainJobs i jobs d' (s.setBody i (.disk d'))

/-- A medium goes in (`some`) or out (`none`): jobs are cleared, and the media-status interrupt is raised if it is enabled
(R316). -/
def mediaChange (i : Nat) (media : Option Memory) (d : DiskState) (s : State) : Result :=
  let d1 := { d with media := media, jobs := [], acc := 0 }
  if flagMediaStatus s.params d then
    let d2 := { d1 with intType := s.params.diskCodes.intMediaStatus }
    diskSignal d2 (s.setBody i (.disk d2))
  else .next (s.setBody i (.disk d1))

end Sys2Proof.Machine
end

