-- ==== Sys2Proof/Machine/Display.lean ====
section
/-! DEFINITION. The register half of the reference Display (60_exceptions.md section 6.4), and what its views show (R74, R322). -/

namespace Sys2Proof.Machine

/-- Every field at its reset value (R320). -/
def displayReset : DisplayState := ⟨none, none, none, 0⟩

/-- The LEM1802's identity (R318, log 27). -/
def displayIdent : DeviceIdent := ⟨0x7349F615, 0x1C6C8B36, 0x1802, "LEM1802"⟩

/-- FONT and PALETTE lengths (R8, R320). -/
def fontWords : Nat := 256
def paletteWords : Nat := 16

/-- A view at `base`, or none for 0 (R321). -/
def viewAt (base : Word) (len : Nat) : Option View := if base = 0 then none else some ⟨base, len⟩

/-- Write words to memory from an address on; addresses wrap (R61, R321, D28). -/
def storeWords (base : Word) : List Word → State → State
  | [], s => s
  | w :: ws, s => storeWords (base + 1) ws (s.writeMem base w)

/-- The Display's commands, on the Display that is device `i` (R321). -/
def displayReceive (i : Nat) (d : DisplayState) (command : Word) (s : State) : State :=
  match command.toNat with
  | 0 => s.setBody i (.display { d with nametable := viewAt (s.gpr.get .b) s.params.nametableWords })
  | 1 => s.setBody i (.display { d with font := viewAt (s.gpr.get .b) fontWords })
  | 2 => s.setBody i (.display { d with palette := viewAt (s.gpr.get .b) paletteWords })
  | 3 => s.setBody i (.display { d with border := (s.gpr.get .b).extractLsb' 0 4 })
  | 4 => (storeWords (s.gpr.get .b) s.params.defaultFont.toList s).addCycles 256
  | 5 => (storeWords (s.gpr.get .b) s.params.defaultPalette.toList s).addCycles 16
  | _ => s

/-- The words of a view, resolved against memory as it is now; a view past 0xFFFF wraps (R74, R321, R322). -/
def viewWords (v : View) (s : State) : List Word :=
  (List.range v.len).map fun k => s.readMem (v.base + BitVec.ofNat 16 k)

/-- The font the renderer reads (R322). -/
def shownFont (d : DisplayState) (s : State) : List Word :=
  match d.font with
  | none => s.params.defaultFont.toList
  | some v => viewWords v s

/-- The palette the renderer reads (R322). -/
def shownPalette (d : DisplayState) (s : State) : List Word :=
  match d.palette with
  | none => s.params.defaultPalette.toList
  | some v => viewWords v s

/-- The nametable the renderer reads, if the display is connected (R322). -/
def shownNametable (d : DisplayState) (s : State) : Option (List Word) :=
  match d.nametable with
  | none => none
  | some v => some (viewWords v s)

end Sys2Proof.Machine
end

