-- ==== Sys2Proof/Machine/Keyboard.lean ====
section
/-! DEFINITION. The reference Keyboard (60_exceptions.md section 6.2). -/

namespace Sys2Proof.Machine

/-- Every field at its reset value (R305). -/
def keyboardReset : KeyboardState := ⟨[], [], 0⟩

/-- The Generic Keyboard's identity (R305, R318, log 27). -/
def keyboardIdent : DeviceIdent := ⟨0x30CF7406, 0x00000000, 0x0001, "Generic Keyboard"⟩

/-- A key of the host (R306). -/
inductive HostKey
  | backspace
  | return
  | insert
  | delete
  /-- The ASCII character 0x20 + k: the 96 characters 0x20 to 0x7F, and no other, so no code of the table is given twice. -/
  | ascii (k : Fin 96)
  | up
  | down
  | left
  | right
  | shift
  | control
  deriving DecidableEq, Repr

/-- KEY_CODES, the default table, row by row (R306, log 29). -/
def keyCode : HostKey → Word
  | .backspace => 0x10
  | .return => 0x11
  | .insert => 0x12
  | .delete => 0x13
  | .ascii k => BitVec.ofNat 16 (0x20 + k.val)
  | .up => 0x80
  | .down => 0x81
  | .left => 0x82
  | .right => 0x83
  | .shift => 0x90
  | .control => 0x91

/-- Put a code into the set of held keys, kept strictly rising. -/
def holdKey : List Word → Word → List Word
  | [], k => [k]
  | d :: ds, k => if k < d then k :: d :: ds else if k = d then d :: ds else d :: holdKey ds k

/-- Take a code out of the set of held keys. -/
def releaseKey (down : List Word) (k : Word) : List Word := down.filter (· != k)

/-- The Keyboard's commands, on the Keyboard that is device `i` (R307). -/
def keyboardReceive (i : Nat) (k : KeyboardState) (command : Word) (s : State) : State :=
  match command.toNat with
  | 0 => s.setBody i (.keyboard { k with buffer := [] })
  | 1 =>
    match k.buffer with
    | [] => s.setGpr .c 0
    | code :: rest => (s.setGpr .c code).setBody i (.keyboard { k with buffer := rest })
  | 2 => s.setGpr .c (if k.down.contains (s.gpr.get .b) then 1 else 0)
  | 3 => s.setBody i (.keyboard { k with message := s.gpr.get .b })
  | _ => s

/-- The Keyboard's interrupt, if it is enabled (R300, R306). -/
def keyboardSignal (k : KeyboardState) (s : State) : Result :=
  if k.message = 0 then .next s else trigger k.message false s

/-- `KeyDown(k)` on the Keyboard that is device `i` (R306). -/
def keyDown (i : Nat) (k : KeyboardState) (code : Word) (s : State) : Result :=
  keyboardSignal k
    (s.setBody i (.keyboard { k with down := holdKey k.down code, buffer := k.buffer ++ [code] }))

/-- `KeyUp(k)` on the Keyboard that is device `i` (R306). -/
def keyUp (i : Nat) (k : KeyboardState) (code : Word) (s : State) : Result :=
  keyboardSignal k (s.setBody i (.keyboard { k with down := releaseKey k.down code }))

end Sys2Proof.Machine
end

