-- ==== Sys2Proof/Machine/OtherDevice.lean ====
section
/-! DEFINITION. The CPU handle offered to devices (R291, R292), and a device whose behaviour the spec does not give (log 10). -/

namespace Sys2Proof.Machine

/-- A device writes a register through its handle (R291). -/
def setHandleReg (r : HandleReg) (v : Word) (s : State) : State :=
  match r with
  | .gpr g => s.setGpr g v
  | .pc => s.setPc v
  | .sp => s.setSp v
  | .ex => s.setEx v
  | .ia => s.setIa v

/-- A device acts on the machine (R291); `receive(msg)` on the CPU is the non-bypass trigger (R262). -/
def busAction (a : BusAction) (s : State) : Result :=
  match a with
  | .setReg r v => .next (setHandleReg r v s)
  | .setMem addr v => .next (s.writeMem addr v)
  | .trigger m => trigger m false s

/-- Several actions in their order; a fault ends them (R250). -/
def busActions : List BusAction → State → Result
  | [], s => .next s
  | a :: rest, s => andThen (busAction a s) (busActions rest)

/-- An action during `receive` (R292, R293). -/
def receiveAction (a : ReceiveAction) (s : State) : Result :=
  match a with
  | .act b => busAction b s
  | .consume n => .next (s.addCycles n)

/-- Several actions during `receive`, in their order. -/
def receiveActions : List ReceiveAction → State → Result
  | [], s => .next s
  | a :: rest, s => andThen (receiveAction a s) (receiveActions rest)

/-- `receive` of the other device that is device `i`: its next actions happen, and are used up. -/
def otherReceive (i : Nat) (o : OtherState) (s : State) : Result :=
  match o.receives with
  | [] => .next s
  | actions :: later => receiveActions actions (s.setBody i (.other { o with receives := later }))

/-- `clock` of the other device that is device `i`. -/
def otherAdvance (i : Nat) (o : OtherState) (s : State) : Result :=
  match o.clocks with
  | [] => .next s
  | actions :: later => busActions actions (s.setBody i (.other { o with clocks := later }))

end Sys2Proof.Machine
end

