-- ==== Sys2Proof/Machine/Bus.lean ====
section
/-! DEFINITION. The device bus: `receive`, `clock` and the clock broadcast, `reset`, `detach` (R287, R290, R294). -/

namespace Sys2Proof.Machine

/-- `dev[i].receive(A)` (R290): the message is A when it is called (R232). A device that is not there does nothing; HWI has
checked the index. -/
def deviceReceive (i : Nat) (s : State) : Result :=
  match s.bodyAt i with
  | none => .next s
  | some (.clock c) => .next (clockReceive i c (s.gpr.get .a) s)
  | some (.keyboard k) => .next (keyboardReceive i k (s.gpr.get .a) s)
  | some (.disk d) => .next (diskReceive i d (s.gpr.get .a) s)
  | some (.display d) => .next (displayReceive i d (s.gpr.get .a) s)
  | some (.other o) => otherReceive i o s

/-- `dev[i].clock(n)` (R287, R294): the Keyboard and the Display do nothing with it (R322). -/
def deviceClock (i n : Nat) (s : State) : Result :=
  match s.bodyAt i with
  | none => .next s
  | some (.clock c) => clockAdvance i c n s
  | some (.keyboard _) => .next s
  | some (.disk d) => diskAdvance i d n s
  | some (.display _) => .next s
  | some (.other o) => otherAdvance i o s

/-- Clock these devices, in this order; a fault ends it (R250, R252). -/
def clockDevices (n : Nat) : List Nat → State → Result
  | [], s => .next s
  | i :: rest, s => andThen (deviceClock i n s) (clockDevices n rest)

/-- The clock broadcast: every device, in index order, with the step's full cost (R294, D9, log 24). -/
def broadcast (s : State) : Result := clockDevices s.cyc (List.range s.devices.length) s

/-- A device's own `reset()` (R287, R300). What another device will do next is no state of a reference device and stays (log 10). -/
def bodyReset (p : Params) : DeviceBody → DeviceBody
  | .clock _ => .clock clockReset
  | .keyboard _ => .keyboard keyboardReset
  | .disk d => .disk (diskReset p d)
  | .display _ => .display displayReset
  | .other o => .other o

def deviceReset (p : Params) (d : Device) : Device := { d with body := bodyReset p d.body }

/-- A device's own `detach()`: it drops its views (R74, R286, R287). -/
def deviceDetach (d : Device) : Device :=
  match d.body with
  | .display k => { d with body := .display { k with nametable := none, font := none, palette := none } }
  | .clock _ => d
  | .keyboard _ => d
  | .disk _ => d
  | .other _ => d

end Sys2Proof.Machine
end

