-- ==== Sys2Proof/Machine/Cycle.lean ====
section
/-! DEFINITION. What a step does before and after the instruction (R109, R250). -/

namespace Sys2Proof.Machine

/-- What the beginning of a step comes to. -/
inductive Start
  /-- An instruction runs, in this state: its word is fetched, PC is past it, and cyc is 0. -/
  | run (i : Instr) (s : State)
  /-- The step ends before any instruction. -/
  | stop (r : Result)
  deriving Repr

/-- The fetch of the instruction word, cyc starting at 0 (R31, R109). -/
def fetchWord (s : State) : Word × State := fetchNext { s with cyc := 0 }

/-- The beginning of a step: no step on fire (R250); fetch; decode, an invalid word firing with PC already past it and no operand
resolved (R101, D3, log 13). -/
def beginStep (s : State) : Start :=
  match s.fire with
  | some k => .stop (.fault (.fire k s))
  | none =>
    match decode s.params.opcodes (fetchWord s).1 with
    | .error _ => .stop (raise (.invalidOpcode (fetchWord s).1 s.pc) (fetchWord s).2)
    | .ok i => .run i (fetchWord s).2

/-- The end of a step that did not fire: the clock broadcast, then a dispatch attempt (R109, R265, R294). -/
def endStep (s : State) : Result := andThen (broadcast s) fun s' => .next (dispatch s')

/-- The words stored at consecutive addresses, wrapping (R61): word 0 is the low 16 bits of `w`. -/
def placeWords : Nat → Word → Nat → State → State
  | 0, _, _, s => s
  | n + 1, addr, w, s => placeWords n (addr + 1) (w / 65536) (s.writeMem addr (BitVec.ofNat 16 w))

/-- An instruction is at most three words long (R83). -/
def maxLength : Nat := 3

/-- Store an instruction whose `nbits` lowest bits are those of `w`, and whose other bits are 0, at PC, and take the machine off
fire so that the next step fetches it (log 40). -/
def placeInstruction (s : State) (nbits w : Nat) : State :=
  (placeWords maxLength s.pc (w % 2 ^ nbits) s).setFire none

end Sys2Proof.Machine
end

