-- ==== Sys2Proof/Machine/Operands.lean ====
section
/-! DEFINITION. Operand references, their resolution and their write (R14, R85 to R98), and the two execution frames (R107,
R108). -/

namespace Sys2Proof.Machine

/-- The position of an operand: the a field is `src` and the b field is `dst`, in both formats (R88, D16, log 19). -/
inductive Pos
  | src
  | dst
  deriving DecidableEq, Repr

/-- A register an operand can name (R85, R91). -/
inductive LocReg
  | gpr (r : Gpr)
  | sp
  | pc
  | ex
  deriving DecidableEq, Repr

/-- Where an operand's value lies (R14). -/
inductive Loc
  | reg (r : LocReg)
  | mem (addr : Word)
  | lit
  deriving DecidableEq, Repr

/-- An operand reference: its location, and its value captured at resolution (R14, R95). -/
structure Ref where
  loc : Loc
  u : Word
  deriving DecidableEq, Repr

/-- The signed view of the captured value (R14, R95). -/
def Ref.s (r : Ref) : Int := sval r.u

/-- A reference to the word at `addr`, read now. -/
def memRef (addr : Word) (s : State) : Ref × State := (⟨.mem addr, s.readMem addr⟩, s)

/-- `Resolve(code, pos)`: the reference, and the state after the next-word fetch and SP change of the resolution. -/
def resolve (o : Operand) (pos : Pos) (s : State) : Ref × State :=
  match o with
  | .reg r => (⟨.reg (.gpr r), s.gpr.get r⟩, s)
  | .ind r => memRef (s.gpr.get r) s
  | .indNext r => memRef (s.gpr.get r + (fetchNext s).1) (fetchNext s).2
  | .pushPop =>
    match pos with
    | .dst => memRef (s.sp - 1) (s.setSp (s.sp - 1))
    | .src => memRef s.sp (s.setSp (s.sp + 1))
  | .peek => memRef s.sp s
  | .pick => memRef (s.sp + (fetchNext s).1) (fetchNext s).2
  | .sp => (⟨.reg .sp, s.sp⟩, s)
  | .pc => (⟨.reg .pc, s.pc⟩, s)
  | .ex => (⟨.reg .ex, s.ex⟩, s)
  | .memNext => memRef (fetchNext s).1 (fetchNext s).2
  | .litNext => (⟨.lit, (fetchNext s).1⟩, (fetchNext s).2)
  | .inline k => (⟨.lit, u16 ((k.toNat : Int) - 1)⟩, s)

/-- `Write(ref, v)`: store to the location fixed at resolution; a write to a literal is discarded (R96). -/
def writeRef (r : Ref) (v : Word) (s : State) : State :=
  match r.loc with
  | .reg (.gpr g) => s.setGpr g v
  | .reg .sp => s.setSp v
  | .reg .pc => s.setPc v
  | .reg .ex => s.setEx v
  | .mem addr => s.writeMem addr v
  | .lit => s

/-- What the basic frame hands to the instruction: both references and the state after resolution. -/
structure BasicFrame where
  rb : Ref
  ra : Ref
  st : State
  deriving DecidableEq, Repr

/-- The basic execution frame: a resolved completely, then b, and the cost counted (R97, R107). -/
def basicFrame (cost : Nat) (b a : Operand) (s : State) : BasicFrame :=
  let pa := resolve a .src s
  let pb := resolve b .dst pa.2
  ⟨pb.1, pa.1, pb.2.addCycles (cost + nextWords a + nextWords b)⟩

/-- What the special frame hands to the instruction. -/
structure SpecialFrame where
  ra : Ref
  st : State
  deriving DecidableEq, Repr

/-- The special execution frame (R98, R108). -/
def specialFrame (cost : Nat) (a : Operand) (s : State) : SpecialFrame :=
  let pa := resolve a .src s
  ⟨pa.1, pa.2.addCycles (cost + nextWords a)⟩

end Sys2Proof.Machine
end

