-- ==== Sys2Proof/Machine/Flags.lean ====
section
/-! DEFINITION. Results and EX: the machine has no flags register, and what other machines keep in flags is the word EX (R24,
R32). Each function gives the value for the destination and the value for EX from the captured operands. -/

namespace Sys2Proof.Machine

/-- A result with its EX. -/
structure ValEx where
  val : Word
  ex : Word
  deriving DecidableEq, Repr

/-- Write a result and its EX in the order of EX_WRITE_ORDER: the destination, then EX, by default (D15, log 16). -/
def writeValEx (rb : Ref) (r : ValEx) (s : State) : State :=
  match s.params.exWriteOrder with
  | .destThenEx => (writeRef rb r.val s).setEx r.ex
  | .exThenDest => writeRef rb r.val (s.setEx r.ex)

/-! ## Arithmetic -/

/-- ADD (R121): EX is 1 on unsigned carry, else 0. -/
def addVal (b a : Word) : ValEx :=
  let t := uval b + uval a
  ⟨u16 t, if 0xFFFF < t then 1 else 0⟩

/-- SUB (R122): EX is 0xFFFF on unsigned borrow, else 0. -/
def subVal (b a : Word) : ValEx :=
  let t := uval b - uval a
  ⟨u16 t, if t < 0 then 0xFFFF else 0⟩

/-- MUL (R123): EX is the high word of the unsigned product. -/
def mulVal (b a : Word) : ValEx :=
  let p := uval b * uval a
  ⟨u16 p, u16 (p.fdiv 0x10000)⟩

/-- MLI (R124): EX is the arithmetic high word of the signed product. -/
def mliVal (b a : Word) : ValEx :=
  let p := sval b * sval a
  ⟨u16 p, u16 (p.fdiv 0x10000)⟩

/-- DIV (R125): EX is the 16 fraction bits; both are 0 when the divisor is 0. -/
def divVal (b a : Word) : ValEx :=
  if a = 0 then ⟨0, 0⟩
  else ⟨u16 ((uval b).fdiv (uval a)), u16 ((uval b * 0x10000).fdiv (uval a))⟩

/-- DVI (R126): rounding toward zero; both are 0 when the divisor is 0. -/
def dviVal (b a : Word) : ValEx :=
  if a = 0 then ⟨0, 0⟩
  else ⟨u16 ((sval b).tdiv (sval a)), u16 ((sval b * 0x10000).tdiv (sval a))⟩

/-- MOD (R127): 0 when the divisor is 0. -/
def modVal (b a : Word) : Word := if a = 0 then 0 else u16 ((uval b).fmod (uval a))

/-- MDI (R128): the remainder has the sign of the dividend; 0 when the divisor is 0. -/
def mdiVal (b a : Word) : Word := if a = 0 then 0 else u16 (sval b - sval a * (sval b).tdiv (sval a))

/-! ## Shifts -/

/-- The shift count: the whole word, or the word modulo 32 (D12, I8, log 14). -/
def shiftCount (mode : ShiftSemantics) (a : Word) : Nat :=
  match mode with
  | .exact => a.toNat
  | .mask32 => a.toNat % 32

/-- SHR by n (R153). -/
def shrVal (b : Word) (n : Nat) : ValEx :=
  ⟨u16 ((uval b).fdiv (2 ^ n)), u16 ((uval b * 0x10000).fdiv (2 ^ n))⟩

/-- ASR by n (R154). -/
def asrVal (b : Word) (n : Nat) : ValEx :=
  ⟨u16 ((sval b).fdiv (2 ^ n)), u16 ((sval b * 0x10000).fdiv (2 ^ n))⟩

/-- SHL by n (R155). -/
def shlVal (b : Word) (n : Nat) : ValEx :=
  let t := uval b * 2 ^ n
  ⟨u16 t, u16 (t.fdiv 0x10000)⟩

/-! ## Carry arithmetic -/

/-- ADX (R190) with the EX on entry; EX is the carry flag by default (D13, log 15). -/
def adxVal (mode : AdxExMode) (b a ex : Word) : ValEx :=
  let t := uval b + uval a + uval ex
  match mode with
  | .flag => ⟨u16 t, if 0xFFFF < t then 1 else 0⟩
  | .highWord => ⟨u16 t, u16 (t.fdiv 0x10000)⟩

/-- How SBX reads EX (R191, D14, log 15). -/
def sbxReading (mode : SbxExReading) (ex : Word) : Int :=
  match mode with
  | .unsigned => uval ex
  | .signed => sval ex

/-- SBX (R191) with EX on entry read as `e`: EX is 0xFFFF on underflow, 1 on overflow, else 0. -/
def sbxVal (b a : Word) (e : Int) : ValEx :=
  let t := uval b - uval a + e
  ⟨u16 t, if t < 0 then 0xFFFF else if 0xFFFF < t then 1 else 0⟩

end Sys2Proof.Machine
end

