-- ==== Sys2Proof/Machine/Arithmetic.lean ====
section
/-! DEFINITION. SET, ADD, SUB, MUL, MLI, DIV, DVI, MOD, MDI (40_arithmetic.md). -/

namespace Sys2Proof.Machine

/-- SET b, a (R120). -/
def execSet (b a : Operand) (s : State) : Result :=
  let f := basicFrame s.params.cost.set b a s
  .next (writeRef f.rb f.ra.u f.st)

/-- ADD b, a (R121). -/
def execAdd (b a : Operand) (s : State) : Result :=
  let f := basicFrame s.params.cost.add b a s
  .next (writeValEx f.rb (addVal f.rb.u f.ra.u) f.st)

/-- SUB b, a (R122). -/
def execSub (b a : Operand) (s : State) : Result :=
  let f := basicFrame s.params.cost.sub b a s
  .next (writeValEx f.rb (subVal f.rb.u f.ra.u) f.st)

/-- MUL b, a (R123). -/
def execMul (b a : Operand) (s : State) : Result :=
  let f := basicFrame s.params.cost.mul b a s
  .next (writeValEx f.rb (mulVal f.rb.u f.ra.u) f.st)

/-- MLI b, a (R124). -/
def execMli (b a : Operand) (s : State) : Result :=
  let f := basicFrame s.params.cost.mli b a s
  .next (writeValEx f.rb (mliVal f.rb.u f.ra.u) f.st)

/-- DIV b, a (R125). -/
def execDiv (b a : Operand) (s : State) : Result :=
  let f := basicFrame s.params.cost.div b a s
  .next (writeValEx f.rb (divVal f.rb.u f.ra.u) f.st)

/-- DVI b, a (R126). -/
def execDvi (b a : Operand) (s : State) : Result :=
  let f := basicFrame s.params.cost.dvi b a s
  .next (writeValEx f.rb (dviVal f.rb.u f.ra.u) f.st)

/-- MOD b, a (R127); EX is not written (D11, log 22). -/
def execMod (b a : Operand) (s : State) : Result :=
  let f := basicFrame s.params.cost.mod b a s
  .next (writeRef f.rb (modVal f.rb.u f.ra.u) f.st)

/-- MDI b, a (R128); EX is not written (D11, log 22). -/
def execMdi (b a : Operand) (s : State) : Result :=
  let f := basicFrame s.params.cost.mdi b a s
  .next (writeRef f.rb (mdiVal f.rb.u f.ra.u) f.st)


end Sys2Proof.Machine
end

