-- ==== Sys2Proof/Machine/Bitwise.lean ====
section
/-! DEFINITION. AND, BOR, XOR, SHR, ASR, SHL (41_bitwise_shift.md). -/

namespace Sys2Proof.Machine

/-- AND b, a (R150); EX is not written. -/
def execAnd (b a : Operand) (s : State) : Result :=
  let f := basicFrame s.params.cost.and b a s
  .next (writeRef f.rb (f.rb.u &&& f.ra.u) f.st)

/-- BOR b, a (R151); EX is not written. -/
def execBor (b a : Operand) (s : State) : Result :=
  let f := basicFrame s.params.cost.bor b a s
  .next (writeRef f.rb (f.rb.u ||| f.ra.u) f.st)

/-- XOR b, a (R152); EX is not written. -/
def execXor (b a : Operand) (s : State) : Result :=
  let f := basicFrame s.params.cost.xor b a s
  .next (writeRef f.rb (f.rb.u ^^^ f.ra.u) f.st)

/-- SHR b, a (R153). -/
def execShr (b a : Operand) (s : State) : Result :=
  let f := basicFrame s.params.cost.shr b a s
  .next (writeValEx f.rb (shrVal f.rb.u (shiftCount f.st.params.shiftSemantics f.ra.u)) f.st)

/-- ASR b, a (R154). -/
def execAsr (b a : Operand) (s : State) : Result :=
  let f := basicFrame s.params.cost.asr b a s
  .next (writeValEx f.rb (asrVal f.rb.u (shiftCount f.st.params.shiftSemantics f.ra.u)) f.st)

/-- SHL b, a (R155). -/
def execShl (b a : Operand) (s : State) : Result :=
  let f := basicFrame s.params.cost.shl b a s
  .next (writeValEx f.rb (shlVal f.rb.u (shiftCount f.st.params.shiftSemantics f.ra.u)) f.st)


end Sys2Proof.Machine
end

