-- ==== Sys2Proof/Machine/Carry.lean ====
section
/-! DEFINITION. ADX, SBX, STI, STD (43_carry_and_stream.md). -/

namespace Sys2Proof.Machine

/-- ADX b, a (R190): EX is read after both operands are resolved. -/
def execAdx (b a : Operand) (s : State) : Result :=
  let f := basicFrame s.params.cost.adx b a s
  .next (writeValEx f.rb (adxVal f.st.params.adxExMode f.rb.u f.ra.u f.st.ex) f.st)

/-- SBX b, a (R191): EX is read after both operands are resolved. -/
def execSbx (b a : Operand) (s : State) : Result :=
  let f := basicFrame s.params.cost.sbx b a s
  .next (writeValEx f.rb (sbxVal f.rb.u f.ra.u (sbxReading f.st.params.sbxExReading f.st.ex)) f.st)

/-- Add `d` to I and to J (R192, R193). -/
def stepIJ (d : Word) (s : State) : State :=
  (s.setGpr .i (s.gpr.get .i + d)).setGpr .j (s.gpr.get .j + d)

/-- STI b, a (R192). -/
def execSti (b a : Operand) (s : State) : Result :=
  let f := basicFrame s.params.cost.sti b a s
  .next (stepIJ 1 (writeRef f.rb f.ra.u f.st))

/-- STD b, a (R193). -/
def execStd (b a : Operand) (s : State) : Result :=
  let f := basicFrame s.params.cost.std b a s
  .next (stepIJ (-1) (writeRef f.rb f.ra.u f.st))


end Sys2Proof.Machine
end

