-- ==== Sys2Proof/Machine/Conditional.lean ====
section
/-! DEFINITION. The skip chain and IFB, IFC, IFE, IFN, IFG, IFA, IFL, IFU (42_conditional.md). -/

namespace Sys2Proof.Machine

/-- One pass and the rest of the skip chain `Skip()` (R170): pass over the instruction at PC for one cycle, its operands
unresolved, and go on while it is a conditional. A chain that passes over `fuel` conditionals has not ended (log 9). -/
def skipChain : Nat → State → Result
  | 0, _ => .fault .skipChainHangs
  | fuel + 1, s =>
    let w := s.readMem s.pc
    if isInvalid s.params.opcodes w && s.params.skipInvalid == .fire then raise (.invalidOpcode w s.pc) s
    else
      let s' := (s.setPc (s.pc + BitVec.ofNat 16 (lengthOf w))).addCycles 1
      if isConditional s.params.opcodes w then skipChain fuel s' else .next s'

/-- `Skip()` (R170). The chain writes no memory, so after 65536 conditionals it has come back to an address it has passed
before and never ends (R171, I11, log 9). -/
def skip (s : State) : Result := skipChain memWords s

/-- The conditional frame's `Compute` (R171): go on, or skip. -/
def continueIf (test : Bool) (s : State) : Result := if test then .next s else skip s

/-- IFB b, a (R172): continue if any bit in common. -/
def execIfb (b a : Operand) (s : State) : Result :=
  let f := basicFrame s.params.cost.ifb b a s
  continueIf (f.rb.u &&& f.ra.u != 0) f.st

/-- IFC b, a (R173): continue if no bit in common. -/
def execIfc (b a : Operand) (s : State) : Result :=
  let f := basicFrame s.params.cost.ifc b a s
  continueIf (f.rb.u &&& f.ra.u == 0) f.st

/-- IFE b, a (R174): continue if equal. -/
def execIfe (b a : Operand) (s : State) : Result :=
  let f := basicFrame s.params.cost.ife b a s
  continueIf (f.rb.u == f.ra.u) f.st

/-- IFN b, a (R175): continue if not equal. -/
def execIfn (b a : Operand) (s : State) : Result :=
  let f := basicFrame s.params.cost.ifn b a s
  continueIf (f.rb.u != f.ra.u) f.st

/-- IFG b, a (R176): continue if greater, unsigned. -/
def execIfg (b a : Operand) (s : State) : Result :=
  let f := basicFrame s.params.cost.ifg b a s
  continueIf (decide (uval f.ra.u < uval f.rb.u)) f.st

/-- IFA b, a (R177): continue if above, signed. -/
def execIfa (b a : Operand) (s : State) : Result :=
  let f := basicFrame s.params.cost.ifa b a s
  continueIf (decide (f.ra.s < f.rb.s)) f.st

/-- IFL b, a (R178): continue if less, unsigned. -/
def execIfl (b a : Operand) (s : State) : Result :=
  let f := basicFrame s.params.cost.ifl b a s
  continueIf (decide (uval f.rb.u < uval f.ra.u)) f.st

/-- IFU b, a (R179): continue if under, signed. -/
def execIfu (b a : Operand) (s : State) : Result :=
  let f := basicFrame s.params.cost.ifu b a s
  continueIf (decide (f.rb.s < f.ra.s)) f.st

end Sys2Proof.Machine
end

