-- ==== Sys2Proof/Machine/Control.lean ====
section
/-! DEFINITION. JSR, INT, IAG, IAS, RFI, IAQ (44_special_control.md). -/

namespace Sys2Proof.Machine

/-- JSR a (R210): the address past the instruction is pushed, and PC is the operand's value. -/
def execJsr (a : Operand) (s : State) : Result :=
  let f := specialFrame s.params.cost.jsr a s
  .next ((push f.st.pc f.st).setPc f.ra.u)

/-- INT a (R211): a software interrupt, by the bypass trigger. -/
def execInt (a : Operand) (s : State) : Result :=
  let f := specialFrame s.params.cost.int a s
  trigger f.ra.u true f.st

/-- IAG a (R212). -/
def execIag (a : Operand) (s : State) : Result :=
  let f := specialFrame s.params.cost.iag a s
  .next (writeRef f.ra f.st.ia f.st)

/-- IAS a (R213). -/
def execIas (a : Operand) (s : State) : Result :=
  let f := specialFrame s.params.cost.ias a s
  .next (f.st.setIa f.ra.u)

/-- RFI a (R214): the operand is resolved and otherwise ignored. -/
def execRfi (a : Operand) (s : State) : Result :=
  let f := specialFrame s.params.cost.rfi a s
  .next (returnFromInterrupt f.st)

/-- IAQ a (R215). -/
def execIaq (a : Operand) (s : State) : Result :=
  let f := specialFrame s.params.cost.iaq a s
  if f.ra.u != 0 then .next (f.st.setIaq true) else .next (dispatch (f.st.setIaq false))


end Sys2Proof.Machine
end

