-- ==== Sys2Proof/Machine/Hardware.lean ====
section
/-! DEFINITION. HWN, HWQ, HWI (45_special_hardware.md). -/

namespace Sys2Proof.Machine

/-- N, the number of attached devices, as a word (R230). -/
def deviceCount (s : State) : Word := BitVec.ofNat 16 s.devices.length

/-- HWN a (R230). -/
def execHwn (a : Operand) (s : State) : Result :=
  let f := specialFrame s.params.cost.hwn a s
  .next (writeRef f.ra (deviceCount f.st) f.st)

/-- The identity of a device in A, B, C, X and Y (R231). -/
def reportIdent (d : DeviceIdent) (s : State) : State :=
  ((((s.setGpr .a (d.deviceId.extractLsb' 0 16)).setGpr .b (d.deviceId.extractLsb' 16 16)).setGpr .c
    d.revision).setGpr .x (d.vendorId.extractLsb' 0 16)).setGpr .y (d.vendorId.extractLsb' 16 16)

/-- HWQ a (R231): NO_SUCH_DEVICE after the operand is resolved (D23, log 13). -/
def execHwq (a : Operand) (s : State) : Result :=
  let f := specialFrame s.params.cost.hwq a s
  match f.st.devices[f.ra.u.toNat]? with
  | none => raise (.noSuchDevice f.ra.u) f.st
  | some d => .next (reportIdent d.ident f.st)

/-- HWI a (R232): NO_SUCH_DEVICE after the operand is resolved (D23, log 13). -/
def execHwi (a : Operand) (s : State) : Result :=
  let f := specialFrame s.params.cost.hwi a s
  match f.st.devices[f.ra.u.toNat]? with
  | none => raise (.noSuchDevice f.ra.u) f.st
  | some _ => deviceReceive f.ra.u.toNat f.st

end Sys2Proof.Machine
end

