-- ==== Sys2Proof/Machine/Step.lean ====
section
/-! DEFINITION. The step: fetch, decode, execute, clock broadcast, dispatch attempt (R109). -/

namespace Sys2Proof.Machine

/-- One step (R109). -/
def step (s : State) : Host.Outcome State Fault Refusal :=
  match beginStep s with
  | .stop r => r
  | .run i s' => andThen (exec i s') endStep

/-- The state in which the next step fetches and runs the instruction with these bits. -/
def State.withFetchWord (s : State) (nbits w : Nat) : State := placeInstruction s nbits w

end Sys2Proof.Machine
end

