-- ==== Sys2Proof/Machine/HostCalls.lean ====
section
/-! DEFINITION. What the host does between steps, but for the step itself (R335): reset, load, attach, detach, events. -/

namespace Sys2Proof.Machine

/-- `Reset()` (R330): memory is the image, then zeros; registers, controller and fire are cleared; every device is reset; the device
list, the image and the parameters stay. -/
def resetMachine (s : State) : State :=
  { State.reset with
    mem := Memory.ofWordsFrom 0 s.image
    devices := s.devices.map (deviceReset s.params)
    image := s.image
    params := s.params }

/-- LOAD_BYTE_ORDER (R66). -/
inductive ByteOrder
  | big
  | little
  deriving DecidableEq, Repr

/-- A word from two bytes of the stream, in the order chosen (R66). -/
def wordOfBytes (order : ByteOrder) (b0 b1 : Byte) : Word :=
  match order with
  | .big => b0 ++ b1
  | .little => b1 ++ b0

/-- A byte stream as words; none when its length is odd (R66, D19). -/
def wordsOfBytes (order : ByteOrder) : List Byte → Option (List Word)
  | [] => some []
  | [_] => none
  | b0 :: b1 :: rest => (wordsOfBytes order rest).map (wordOfBytes order b0 b1 :: ·)

/-- Install an image, for the next reset; over 65536 words it is refused (R331, D19, log 35). -/
def loadWords (image : List Word) (s : State) : Result :=
  if memWords < image.length then .refused .imageRefused else .next { s with image := image }

/-- Install an image from a byte stream (R66, R331, D19). -/
def loadBytes (order : ByteOrder) (bytes : List Byte) (s : State) : Result :=
  match wordsOfBytes order bytes with
  | none => .refused .imageRefused
  | some image => loadWords image s

/-- MAX_DEVICES (R8, R285). -/
def maxDevices : Nat := 65535

/-- A device object with this handle is attached (R285). -/
def attached (handle : Nat) (s : State) : Bool := s.devices.any (·.handle == handle)

/-- `attach(d)` (R285): rejected when full or already present; else appended, and the machine reset. -/
def attach (d : Device) (s : State) : Result :=
  if maxDevices ≤ s.devices.length || attached d.handle s then .refused .attachRejected
  else .next (resetMachine { s with devices := s.devices ++ [d] })

/-- The device object `detach` gives back, its views dropped, if it was attached (R286). -/
def detachedDevice (handle : Nat) (s : State) : Option Device := (s.devices.find? (·.handle == handle)).map deviceDetach

/-- `detach(d)` (R286): no effect on a device that is not attached (D33, log 34); else removed, and the machine reset. -/
def detach (handle : Nat) (s : State) : Result :=
  if attached handle s then
    .next (resetMachine { s with devices := s.devices.filter (·.handle != handle) })
  else .next s

/-- A call of the host between steps (R335). An event names the index of its device. -/
inductive HostCall
  | reset
  | loadWords (image : List Word)
  | loadBytes (order : ByteOrder) (bytes : List Byte)
  | attach (d : Device)
  | detach (handle : Nat)
  | keyDown (index : Nat) (code : Word)
  | keyUp (index : Nat) (code : Word)
  | insertMedia (index : Nat) (media : Memory)
  | ejectMedia (index : Nat)
  /-- An event of a device that is none of the reference devices: what it does then (R272, R292). -/
  | otherEvent (index : Nat) (actions : List BusAction)
  deriving DecidableEq, Repr

/-- A key event goes to a keyboard (R306). -/
def keyEvent (i : Nat) (f : KeyboardState → State → Result) (s : State) : Result :=
  match s.bodyAt i with
  | some (.keyboard k) => f k s
  | _ => .refused .noSuchEventTarget

/-- A media event goes to a disk (R316). -/
def mediaEvent (i : Nat) (f : DiskState → State → Result) (s : State) : Result :=
  match s.bodyAt i with
  | some (.disk d) => f d s
  | _ => .refused .noSuchEventTarget

/-- An event of another device (R272). -/
def otherEvent (i : Nat) (actions : List BusAction) (s : State) : Result :=
  match s.bodyAt i with
  | some (.other _) => busActions actions s
  | _ => .refused .noSuchEventTarget

/-- The effect of a host call (R335). An event's trigger dispatches at once (R272, D32, log 33). -/
def hostCall (c : HostCall) (s : State) : Result :=
  match c with
  | .reset => .next (resetMachine s)
  | .loadWords image => loadWords image s
  | .loadBytes order bytes => loadBytes order bytes s
  | .attach d => attach d s
  | .detach handle => detach handle s
  | .keyDown i code => keyEvent i (fun k => keyDown i k code) s
  | .keyUp i code => keyEvent i (fun k => keyUp i k code) s
  | .insertMedia i media => mediaEvent i (mediaChange i (some media)) s
  | .ejectMedia i => mediaEvent i (mediaChange i none) s
  | .otherEvent i actions => otherEvent i actions s

end Sys2Proof.Machine
end

