-- ==== Sys2Proof/Machine/Run.lean ====
section
/-! DEFINITION. The host's run loop (R336). -/

namespace Sys2Proof.Machine

/-- How a run ends. -/
inductive RunResult
  /-- The loop ended: the budget left (0 or less when it is used up, the deficit being the host's to carry) and the machine, which
  tells whether it is on fire (R336). -/
  | ended (budget : Int) (s : State)
  /-- A step of the run never returned, or was refused. -/
  | stuck (r : Result)
  /-- `fuel` steps were not enough: the model's own bound (log 41). -/
  | unfinished (budget : Int) (s : State)
  deriving Repr

/-- `run(budget)`, for at most `fuel` steps (R336, D43). -/
def run : Nat → Int → State → RunResult
  | 0, budget, s => .unfinished budget s
  | fuel + 1, budget, s =>
    if 0 < budget ∧ s.fire = none then
      match step s with
      | .next s' => run fuel (budget - s'.cyc) s'
      | .fault (.fire _ post) => .ended budget post
      | .fault e => .stuck (.fault e)
      | .refused e => .stuck (.refused e)
    else .ended budget s

end Sys2Proof.Machine
end

