-- ==== Sys2Proof/Safety.lean ====
section
/-! DEFINITION. What claims about this machine are stated in: the invariant of the machine between steps, what a host call must
hand over, and a run without a fatal fault. -/

namespace Sys2Proof.Machine

/-- Codes strictly rising: the form of the keyboard's set of held keys. -/
def strictlyRising (codes : List Word) : Bool := decide (codes.Pairwise (· < ·))

/-- A disk's medium is canonical and no larger than the drive's geometry (R310, log 43). -/
def mediumFits (p : Params) : Option Memory → Bool
  | none => true
  | some md => Memory.wf (p.diskSectors * p.diskSectorWords) md

/-- A disk between steps: its medium fits; its jobs name sectors of the drive, wait only for a medium that is there, and no cycles
are held while there is none (R310, R312, R315, R316). -/
def diskOk (p : Params) (d : DiskState) : Bool :=
  mediumFits p d.media && d.jobs.all (fun j => decide (j.sector < p.diskSectors))
    && (d.jobs.isEmpty || d.media.isSome) && (!d.jobs.isEmpty || d.acc == 0)

/-- A clock between steps: disabled and empty, or short of a whole tick (R303). -/
def clockOk (p : Params) (c : ClockState) : Bool :=
  if c.rate = 0 then c.acc60 == 0 else decide (c.acc60 < clockPeriod60 p c)

/-- A view the display holds starts at an address other than 0 and has the length of its command (R321). -/
def viewOk (len : Nat) : Option View → Bool
  | none => true
  | some v => v.base != 0 && v.len == len

/-- A device between steps. -/
def bodyOk (p : Params) : DeviceBody → Bool
  | .clock c => clockOk p c
  | .keyboard k => strictlyRising k.down
  | .disk d => diskOk p d
  | .display d => viewOk p.nametableWords d.nametable && viewOk fontWords d.font && viewOk paletteWords d.palette
  | .other _ => true

/-- The medium of a device, where it has one. -/
def bodyMedium : DeviceBody → Option Memory
  | .disk d => d.media
  | _ => none

/-- What the host side keeps through every step, every fault and every reset: at most 65535 devices, all different objects, media
that fit, an image that fits, and a clock rate that is not 0 (R8, R29, R285, R331, R355). -/
structure HostOk (s : State) : Prop where
  deviceCount : s.devices.length ≤ maxDevices
  handlesDiffer : (s.devices.map Device.handle).Nodup
  mediaFit : ∀ d ∈ s.devices, mediumFits s.params (bodyMedium d.body) = true
  imageFits : s.image.length ≤ memWords
  clockRuns : 0 < s.params.clockHz

/-- The invariant of the machine between steps: canonical memory (R30); a bounded queue (R263, R266 c) that is held only while
queueing is on (R266 a, for IA0_DROP = all); no fatal fault (R250); devices in order. -/
structure Inv (s : State) : Prop where
  host : HostOk s
  memWf : Memory.wf memWords s.mem = true
  queueBound : s.queue.length ≤ queueMax
  queueHeld : s.params.ia0Drop = .all → s.queue ≠ [] → s.iaq = true
  notOnFire : s.fire = none
  devicesOk : ∀ d ∈ s.devices, bodyOk s.params d.body = true

/-- What a host call hands over is what it says: a medium that fits (R310, log 43). -/
def hostCallOk (p : Params) : HostCall → Bool
  | .attach d => mediumFits p (bodyMedium d.body)
  | .insertMedia _ media => mediumFits p (some media)
  | .reset => true
  | .loadWords _ => true
  | .loadBytes _ _ => true
  | .detach _ => true
  | .keyDown _ _ => true
  | .keyUp _ _ => true
  | .ejectMedia _ => true
  | .otherEvent _ _ => true

/-- `n` steps from `s`, none of them firing, cost `c` cycles together and end in `t`: the steps of a run (R109, R336), the runs a claim
about a program is about (D4, D17). -/
def StepsTo : Nat → Nat → State → State → Prop
  | 0, c, s, t => c = 0 ∧ t = s
  | n + 1, c, s, t => ∃ u d, step s = .next u ∧ c = u.cyc + d ∧ StepsTo n d u t

end Sys2Proof.Machine
end

