-- ==== Sys2Proof/Certificates/Slice0/Obligations.lean ====
section
/-! DEFINITION. The statements for the provers. Those of basis 'stated' formalise the rules named in OBLIGATIONS.json; a docstring says
where a statement rests on a choice of the spec (D<n>) or of the model (log <n>). -/

namespace Sys2Proof.Claims

open Sys2Proof.Machine

/-! ## Words the statements are written in -/

/-- The reference of the a operand: resolved first (R97). -/
def srcRef (a : Operand) (s : State) : Ref := (resolve a .src s).1

/-- The reference of the b operand: resolved in the state a's resolution left (R97). -/
def dstRef (b a : Operand) (s : State) : Ref := (resolve b .dst (resolve a .src s).2).1

/-- The state after both operands of a basic instruction are resolved, its cost counted (R107). -/
def afterBasic (cost : Nat) (b a : Operand) (s : State) : State :=
  (resolve b .dst (resolve a .src s).2).2.addCycles (cost + nextWords a + nextWords b)

/-- The state after the operand of a special instruction is resolved, its cost counted (R108). -/
def afterSpecial (cost : Nat) (a : Operand) (s : State) : State :=
  (resolve a .src s).2.addCycles (cost + nextWords a)

/-- The words of a basic instruction, `aaaaaabbbbbooooo`, decode to it under every numbering, and `o` is its opcode by default (R81,
R99). -/
def BasicWord (value : OpcodeValues → BitVec 5) (o : BitVec 5) (mk : Operand → Operand → Instr) : Prop :=
  value defaultOpcodes = o ∧
  ∀ v : OpcodeValues, v.wf = true → ∀ (A : BitVec 6) (B : BitVec 5),
    decode v (A ++ B ++ value v) = .ok (mk (decodeOperand (0b0#1 ++ B)) (decodeOperand A))

/-- The rule of a basic instruction: its words; its base cost by default; and it runs on every operand form, in every state, and ends in
the stated effect. -/
def BasicRule (value : OpcodeValues → BitVec 5) (o : BitVec 5) (mk : Operand → Operand → Instr)
    (base : BaseCosts → Nat) (cycles : Nat) (effect : Ref → Ref → State → State) : Prop :=
  BasicWord value o mk ∧
  base defaultCosts = cycles ∧
  ∀ (b a : Operand) (s : State),
    exec (mk b a) s = .next (effect (dstRef b a s) (srcRef a s) (afterBasic (base s.params.cost) b a s))

/-- The words of a special instruction, `aaaaaaooooo00000`, in the same way (R82, R100). -/
def SpecialWord (value : OpcodeValues → BitVec 5) (op : BitVec 5) (mk : Operand → Instr) : Prop :=
  value defaultOpcodes = op ∧
  ∀ v : OpcodeValues, v.wf = true → ∀ A : BitVec 6,
    decode v (A ++ value v ++ 0b00000#5) = .ok (mk (decodeOperand A))

/-- Both writes of a rule that writes its destination and EX, in the order of EX_WRITE_ORDER: the destination, then EX, is the default
(D15); the other order is I25. -/
def bothWrites (rb : Ref) (value ex : Word) (s : State) : State :=
  if s.params.exWriteOrder = .destThenEx then (writeRef rb value s).setEx ex else writeRef rb value (s.setEx ex)

/-- The count of a shift under SHIFT_SEMANTICS: the whole word is the default (D12); modulo 32 is I8. -/
def countOf (s : State) (a : Word) : Nat :=
  if s.params.shiftSemantics = .exact then a.toNat else a.toNat % 32

/-- Nothing of the controller, the devices, the fault state or the configuration has changed. -/
structure Untouched (s t : State) : Prop where
  ia : t.ia = s.ia
  iaq : t.iaq = s.iaq
  queue : t.queue = s.queue
  fire : t.fire = s.fire
  devices : t.devices = s.devices
  image : t.image = s.image
  params : t.params = s.params

/-- The basic instructions that write their destination and nothing else. -/
def plainWriters : List (Operand → Operand → Instr) :=
  [Instr.set, Instr.mod, Instr.mdi, Instr.and, Instr.bor, Instr.xor]

/-- The basic instructions that write their destination and EX. -/
def exWriters : List (Operand → Operand → Instr) :=
  [Instr.add, Instr.sub, Instr.mul, Instr.mli, Instr.div, Instr.dvi, Instr.shr, Instr.asr, Instr.shl, Instr.adx,
    Instr.sbx]

/-- The instructions that write their destination and move I and J. -/
def streamWriters : List (Operand → Operand → Instr) := [Instr.sti, Instr.std]

/-- The conditionals. -/
def conditionals : List (Operand → Operand → Instr) :=
  [Instr.ifb, Instr.ifc, Instr.ife, Instr.ifn, Instr.ifg, Instr.ifa, Instr.ifl, Instr.ifu]

/-- The rule of a conditional: words, base cost, the continuation when the test passes and the skip chain when it fails. -/
def IfRule (value : OpcodeValues → BitVec 5) (o : BitVec 5) (mk : Operand → Operand → Instr)
    (base : BaseCosts → Nat) (test : Ref → Ref → Prop) : Prop :=
  BasicWord value o mk ∧
  base defaultCosts = 2 ∧
  ∀ (b a : Operand) (s : State),
    (test (dstRef b a s) (srcRef a s) → exec (mk b a) s = .next (afterBasic (base s.params.cost) b a s)) ∧
    (¬ test (dstRef b a s) (srcRef a s) → exec (mk b a) s = skip (afterBasic (base s.params.cost) b a s))

/-- Where the skip chain that begins at `p` comes after `n` instructions: past each, its next words included (R170). -/
def skipAddress (s : State) (p : Word) : Nat → Word
  | 0 => p
  | n + 1 => skipAddress s p n + BitVec.ofNat 16 (lengthOf (s.readMem (skipAddress s p n)))

/-- The first `n` instructions the chain of `s` meets are conditionals. -/
def conditionalsFor (s : State) (n : Nat) : Prop :=
  ∀ k < n, isConditional s.params.opcodes (s.readMem (skipAddress s s.pc k)) = true

/-- R83's nw, on the code as a number. -/
def nwCode (c : Nat) : Nat :=
  if (0x10 ≤ c ∧ c ≤ 0x17) ∨ c = 0x1A ∨ c = 0x1E ∨ c = 0x1F then 1 else 0

/-- The opcode values of the 27 basic instructions (R99). -/
def basicValues (v : OpcodeValues) : List (BitVec 5) :=
  [v.set, v.add, v.sub, v.mul, v.mli, v.div, v.dvi, v.mod, v.mdi, v.and, v.bor, v.xor, v.shr, v.asr, v.shl,
    v.ifb, v.ifc, v.ife, v.ifn, v.ifg, v.ifa, v.ifl, v.ifu, v.adx, v.sbx, v.sti, v.std]

/-- The opcode values of the nine special instructions (R100). -/
def specialValues (v : OpcodeValues) : List (BitVec 5) :=
  [v.jsr, v.int, v.iag, v.ias, v.rfi, v.iaq, v.hwn, v.hwq, v.hwi]

/-- The word is an invalid encoding of the default numbering, as R101 lists them. -/
def listedInvalid (w : Word) : Prop :=
  (opField w).toNat ∈ [0x18, 0x19, 0x1C, 0x1D] ∨
  ((opField w).toNat = 0 ∧
    ((bField w).toNat = 0 ∨ (0x02 ≤ (bField w).toNat ∧ (bField w).toNat ≤ 0x07) ∨
      (0x0D ≤ (bField w).toNat ∧ (bField w).toNat ≤ 0x0F) ∨ 0x13 ≤ (bField w).toNat))

/-- No device is one whose behaviour the spec does not give. -/
def referenceDevicesOnly (s : State) : Prop := ∀ i o, s.bodyAt i ≠ some (.other o)

/-- A clock after `n` cycles: whole periods become ticks, the rest stays (R303). -/
def clockAfter (p : Params) (c : ClockState) (n : Nat) : ClockState :=
  if c.rate = 0 then c
  else { c with
    acc60 := (c.acc60 + 60 * n) % (p.clockHz * c.rate.toNat)
    ticks := c.ticks + BitVec.ofNat 16 ((c.acc60 + 60 * n) / (p.clockHz * c.rate.toNat)) }

/-- Every base cost is at least one cycle. -/
def costsPositive (c : BaseCosts) : Prop :=
  ∀ n ∈ [c.set, c.add, c.sub, c.mul, c.mli, c.div, c.dvi, c.mod, c.mdi, c.and, c.bor, c.xor, c.shr, c.asr, c.shl,
    c.ifb, c.ifc, c.ife, c.ifn, c.ifg, c.ifa, c.ifl, c.ifu, c.adx, c.sbx, c.sti, c.std, c.jsr, c.int, c.iag, c.ias,
    c.rfi, c.iaq, c.hwn, c.hwq, c.hwi], 0 < n

/-- The seek distance of a job (R313). -/
def seekDistance (head sector : Nat) : Nat := if head ≤ sector then sector - head else head - sector

/-- The cost of jobs one after another, from a head position on (R313). -/
def jobsCost (p : Params) : Nat → List Job → Nat
  | _, [] => 0
  | head, j :: rest => seekDistance head j.sector * p.diskSeekCycles + p.diskTransferCycles + jobsCost p j.sector rest

/-- The medium and memory after the transfers of jobs, the first first (R315). -/
def transferAll (p : Params) (jobs : List Job) (media : Option Memory) (mem : Memory) : Option Memory × Memory :=
  jobs.foldl (fun moved j => transfer p j moved.1 moved.2) (media, mem)

/-- The head's position after jobs (R313). -/
def headAfter (head : Nat) (jobs : List Job) : Nat := jobs.foldl (fun _ j => j.sector) head

/-- The message of a device, if it is enabled, is triggered once (R300). -/
def signalled (message : Word) (t : State) : Result := if message = 0 then .next t else trigger message false t

end Sys2Proof.Claims

open Sys2Proof Sys2Proof.Machine Sys2Proof.Claims

/-! ## Encoding -/

/-- The default numbering is one, and under it words of the spec's worked examples and vectors decode to the instructions they stand
for. -/
def Obligations.DecodedExampleWords : Prop :=
  defaultOpcodes.wf = true ∧
  decode defaultOpcodes 0xC401 = .ok (.set (.reg .a) (.inline 17)) ∧
  decode defaultOpcodes 0x03C1 = .ok (.set .memNext (.reg .a)) ∧
  decode defaultOpcodes 0x7A01 = .ok (.set (.indNext .a) .memNext) ∧
  decode defaultOpcodes 0x0402 = .ok (.add (.reg .a) (.reg .b)) ∧
  decode defaultOpcodes 0x6362 = .ok (.add .sp .pushPop) ∧
  decode defaultOpcodes 0x940F = .ok (.shl (.reg .a) (.inline 5)) ∧
  decode defaultOpcodes 0x8812 = .ok (.ife (.reg .a) (.inline 2)) ∧
  decode defaultOpcodes 0x041B = .ok (.sbx (.reg .a) (.reg .b)) ∧
  decode defaultOpcodes 0x3DDE = .ok (.sti (.ind .i) (.ind .j)) ∧
  decode defaultOpcodes 0x7C20 = .ok (.jsr .litNext) ∧
  decode defaultOpcodes 0x8560 = .ok (.rfi (.inline 1)) ∧
  decode defaultOpcodes 0x0220 = .ok (.hwq (.reg .a))

/-- Decoding the word of a well-formed instruction gives the instruction back, under every numbering. -/
def Obligations.DecodeOfEncode : Prop :=
  ∀ (v : OpcodeValues) (i : Instr), v.wf = true → i.wf = true → decode v (encode v i) = .ok i

/-- Every word that decodes is the word of what it decodes to, and only well-formed instructions come out. -/
def Obligations.EncodeOfDecode : Prop :=
  ∀ (v : OpcodeValues) (w : Word) (i : Instr), decode v w = .ok i → i.wf = true ∧ encode v i = w

/-- R101: the invalid encodings are exactly those listed, under any other numbering those whose opcode value no instruction has, and
executing one fires at decode: PC is past the word, the fault records the word and its address, and nothing else has changed. -/
def Obligations.InvalidEncodingFiresAtDecode : Prop :=
  (∀ w : Word, isInvalid defaultOpcodes w = true ↔ listedInvalid w) ∧
  (∀ (v : OpcodeValues) (w : Word),
    isInvalid v w = true ↔ if opField w = 0 then bField w ∉ specialValues v else opField w ∉ basicValues v) ∧
  ∀ s : State, s.fire = none → isInvalid s.params.opcodes (s.readMem s.pc) = true →
    step s = .fault (.fire (.invalidOpcode (s.readMem s.pc) s.pc)
      { s with pc := s.pc + 1, cyc := 0, fire := some (.invalidOpcode (s.readMem s.pc) s.pc) })

/-- R83: the length of an instruction is told by its first word: one, two or three words, a special one at most two. -/
def Obligations.LengthFromFirstWord : Prop :=
  ∀ w : Word,
    lengthOf w = 1 + nwCode (aField w).toNat + (if opField w ≠ 0 then nwCode (bField w).toNat else 0) ∧
    1 ≤ lengthOf w ∧ lengthOf w ≤ 3 ∧ (opField w = 0 → lengthOf w ≤ 2)

/-! ## Operands -/

/-- R85 to R87, R89 and R90: the operand codes of registers, in the order of R20, of memory at a register, and of the stack without a
change of SP. PUSH and POP stand beside them (R88; that the position is the field is D16, log 19). -/
def Obligations.RegisterAndStackOperands : Prop :=
  ∀ (n : Fin 8) (pos : Pos) (s : State),
    let r := [Gpr.a, Gpr.b, Gpr.c, Gpr.x, Gpr.y, Gpr.z, Gpr.i, Gpr.j].getD n.val .a
    let u := [s.gpr.a, s.gpr.b, s.gpr.c, s.gpr.x, s.gpr.y, s.gpr.z, s.gpr.i, s.gpr.j].getD n.val 0
    resolve (decodeOperand (BitVec.ofNat 6 n.val)) pos s = (⟨.reg (.gpr r), u⟩, s) ∧
    resolve (decodeOperand (BitVec.ofNat 6 (0x08 + n.val))) pos s = (⟨.mem u, s.readMem u⟩, s) ∧
    resolve (decodeOperand (BitVec.ofNat 6 (0x10 + n.val))) pos s =
      (⟨.mem (u + s.readMem s.pc), s.readMem (u + s.readMem s.pc)⟩, s.setPc (s.pc + 1)) ∧
    resolve (decodeOperand 0x18) .dst s = (⟨.mem (s.sp - 1), s.readMem (s.sp - 1)⟩, s.setSp (s.sp - 1)) ∧
    resolve (decodeOperand 0x18) .src s = (⟨.mem s.sp, s.readMem s.sp⟩, s.setSp (s.sp + 1)) ∧
    resolve (decodeOperand 0x19) pos s = (⟨.mem s.sp, s.readMem s.sp⟩, s) ∧
    resolve (decodeOperand 0x1A) pos s =
      (⟨.mem (s.sp + s.readMem s.pc), s.readMem (s.sp + s.readMem s.pc)⟩, s.setPc (s.pc + 1))

/-- R92 to R94: the codes of memory and literals at the next word, and of inline literals, which no b field spells; with R91, the codes of
SP, PC and EX. A write goes to the location fixed at resolution, at every address, 0xFFFF included (D21, log 20, DEDUCED), and a write to a literal is
discarded (R96). -/
def Obligations.SpecialRegisterAndLiteralOperands : Prop :=
  (∀ (pos : Pos) (s : State),
    resolve (decodeOperand 0x1B) pos s = (⟨.reg .sp, s.sp⟩, s) ∧
    resolve (decodeOperand 0x1C) pos s = (⟨.reg .pc, s.pc⟩, s) ∧
    resolve (decodeOperand 0x1D) pos s = (⟨.reg .ex, s.ex⟩, s) ∧
    resolve (decodeOperand 0x1E) pos s =
      (⟨.mem (s.readMem s.pc), s.readMem (s.readMem s.pc)⟩, s.setPc (s.pc + 1)) ∧
    resolve (decodeOperand 0x1F) pos s = (⟨.lit, s.readMem s.pc⟩, s.setPc (s.pc + 1))) ∧
  (∀ (code : BitVec 6) (pos : Pos) (s : State), 0x20 ≤ code.toNat →
    resolve (decodeOperand code) pos s = (⟨.lit, u16 ((code.toNat : Int) - 0x21)⟩, s)) ∧
  (∀ (B : BitVec 5) (k : BitVec 5), decodeOperand (0b0#1 ++ B) ≠ .inline k) ∧
  ∀ (u v : Word) (s : State),
    (∀ r, writeRef ⟨.reg (.gpr r), u⟩ v s = { s with gpr := s.gpr.put r v }) ∧
    writeRef ⟨.reg .sp, u⟩ v s = { s with sp := v } ∧
    writeRef ⟨.reg .pc, u⟩ v s = { s with pc := v } ∧
    writeRef ⟨.reg .ex, u⟩ v s = { s with ex := v } ∧
    (∀ x, writeRef ⟨.mem x, u⟩ v s = s.writeMem x v) ∧
    writeRef ⟨.lit, u⟩ v s = s

/-- A write to a general register is read back from that register, and every other one keeps its value; a word stored in memory is
read back from its address, and every other address keeps its word (R12, R13, R20, R30). Memory is in the form every step keeps. -/
def Obligations.RegistersAndMemoryHoldWhatIsWritten : Prop :=
  (∀ (s : State) (r q : Gpr) (v : Word), (s.setGpr r v).gpr.get q = if q = r then v else s.gpr.get q) ∧
  ∀ (s : State) (x y v : Word), Memory.wf memWords s.mem = true →
    (s.writeMem x v).readMem y = if y = x then v else s.readMem y

/-! ## Results of the basic instructions -/

/-- R120, R127, R128: SET, MOD and MDI; EX is not written (D11). -/
def Obligations.SetModMdiResults : Prop :=
  BasicRule (·.set) 0x01 Instr.set (·.set) 1 (fun rb ra s => writeRef rb ra.u s) ∧
  BasicRule (·.mod) 0x08 Instr.mod (·.mod) 3
    (fun rb ra s => writeRef rb (if ra.u = 0 then 0 else BitVec.ofNat 16 (rb.u.toNat % ra.u.toNat)) s) ∧
  BasicRule (·.mdi) 0x09 Instr.mdi (·.mdi) 3
    (fun rb ra s =>
      writeRef rb (if ra.u = 0 then 0 else BitVec.ofInt 16 (rb.u.toInt - ra.u.toInt * (rb.u.toInt).tdiv ra.u.toInt)) s)

/-- R121, R122: ADD and SUB; the destination first and then EX by default (D15). -/
def Obligations.AddSubResults : Prop :=
  defaultParams.exWriteOrder = .destThenEx ∧
  BasicRule (·.add) 0x02 Instr.add (·.add) 2
    (fun rb ra s =>
      bothWrites rb (rb.u + ra.u) (if 0xFFFF < rb.u.toNat + ra.u.toNat then 0x0001 else 0x0000) s) ∧
  BasicRule (·.sub) 0x03 Instr.sub (·.sub) 2
    (fun rb ra s => bothWrites rb (rb.u - ra.u) (if rb.u.toNat < ra.u.toNat then 0xFFFF else 0x0000) s)

/-- R123 to R126: MUL and MLI, EX the high word of the product; DIV and DVI, EX the 16 fraction bits, both 0 when the divisor is 0. -/
def Obligations.MultiplyDivideResults : Prop :=
  defaultParams.exWriteOrder = .destThenEx ∧
  BasicRule (·.mul) 0x04 Instr.mul (·.mul) 2
    (fun rb ra s =>
      bothWrites rb (BitVec.ofNat 16 (rb.u.toNat * ra.u.toNat))
        (BitVec.ofNat 16 (rb.u.toNat * ra.u.toNat / 0x10000)) s) ∧
  BasicRule (·.mli) 0x05 Instr.mli (·.mli) 2
    (fun rb ra s =>
      bothWrites rb (BitVec.ofInt 16 (rb.u.toInt * ra.u.toInt))
        (BitVec.ofInt 16 ((rb.u.toInt * ra.u.toInt).fdiv 0x10000)) s) ∧
  BasicRule (·.div) 0x06 Instr.div (·.div) 3
    (fun rb ra s =>
      if ra.u = 0 then bothWrites rb 0 0 s
      else bothWrites rb (BitVec.ofNat 16 (rb.u.toNat / ra.u.toNat))
        (BitVec.ofNat 16 (rb.u.toNat * 0x10000 / ra.u.toNat)) s) ∧
  BasicRule (·.dvi) 0x07 Instr.dvi (·.dvi) 3
    (fun rb ra s =>
      if ra.u = 0 then bothWrites rb 0 0 s
      else bothWrites rb (BitVec.ofInt 16 ((rb.u.toInt).tdiv ra.u.toInt))
        (BitVec.ofInt 16 ((rb.u.toInt * 0x10000).tdiv ra.u.toInt)) s)

/-- R150 to R152: AND, BOR and XOR; EX is not written. -/
def Obligations.BitwiseResults : Prop :=
  BasicRule (·.and) 0x0A Instr.and (·.and) 1 (fun rb ra s => writeRef rb (rb.u &&& ra.u) s) ∧
  BasicRule (·.bor) 0x0B Instr.bor (·.bor) 1 (fun rb ra s => writeRef rb (rb.u ||| ra.u) s) ∧
  BasicRule (·.xor) 0x0C Instr.xor (·.xor) 1 (fun rb ra s => writeRef rb (rb.u ^^^ ra.u) s)

/-- R153 to R155: SHR, ASR and SHL, for every count 0 to 65535, exact by default (D12). -/
def Obligations.ShiftResults : Prop :=
  defaultParams.exWriteOrder = .destThenEx ∧ defaultParams.shiftSemantics = .exact ∧
  BasicRule (·.shr) 0x0D Instr.shr (·.shr) 1
    (fun rb ra s =>
      bothWrites rb (BitVec.ofNat 16 (rb.u.toNat / 2 ^ countOf s ra.u))
        (BitVec.ofNat 16 (rb.u.toNat * 0x10000 / 2 ^ countOf s ra.u)) s) ∧
  BasicRule (·.asr) 0x0E Instr.asr (·.asr) 1
    (fun rb ra s =>
      bothWrites rb (BitVec.ofInt 16 ((rb.u.toInt).fdiv (2 ^ countOf s ra.u)))
        (BitVec.ofInt 16 ((rb.u.toInt * 0x10000).fdiv (2 ^ countOf s ra.u))) s) ∧
  BasicRule (·.shl) 0x0F Instr.shl (·.shl) 1
    (fun rb ra s =>
      bothWrites rb (BitVec.ofNat 16 (rb.u.toNat * 2 ^ countOf s ra.u))
        (BitVec.ofNat 16 (rb.u.toNat * 2 ^ countOf s ra.u / 0x10000)) s)

/-- R190, R191: ADX and SBX, by default with ADX_EX_MODE = flag (D13) and SBX_EX_READING = unsigned (D14), and under the other readings
(I23, I24). EX is read after both operands are resolved. -/
def Obligations.CarryArithmeticResults : Prop :=
  defaultParams.exWriteOrder = .destThenEx ∧ defaultParams.adxExMode = .flag ∧
  defaultParams.sbxExReading = .unsigned ∧
  BasicRule (·.adx) 0x1A Instr.adx (·.adx) 3
    (fun rb ra s =>
      let t := rb.u.toNat + ra.u.toNat + s.ex.toNat
      bothWrites rb (rb.u + ra.u + s.ex)
        (if s.params.adxExMode = .flag then (if 0xFFFF < t then 0x0001 else 0x0000)
          else BitVec.ofNat 16 (t / 0x10000)) s) ∧
  BasicRule (·.sbx) 0x1B Instr.sbx (·.sbx) 3
    (fun rb ra s =>
      let e : Int := if s.params.sbxExReading = .unsigned then s.ex.toNat else s.ex.toInt
      let t : Int := rb.u.toNat - ra.u.toNat + e
      bothWrites rb (rb.u - ra.u + s.ex) (if t < 0 then 0xFFFF else if 0xFFFF < t then 0x0001 else 0x0000) s)

/-- R192, R193: STI and STD; I and J move after the write. -/
def Obligations.StreamResults : Prop :=
  BasicRule (·.sti) 0x1E Instr.sti (·.sti) 2
    (fun rb ra s =>
      let t := writeRef rb ra.u s
      { t with gpr := { t.gpr with i := t.gpr.i + 1, j := t.gpr.j + 1 } }) ∧
  BasicRule (·.std) 0x1F Instr.std (·.std) 2
    (fun rb ra s =>
      let t := writeRef rb ra.u s
      { t with gpr := { t.gpr with i := t.gpr.i - 1, j := t.gpr.j - 1 } })

/-- The order of the two writes matters only where b is EX (D15, I25): otherwise both orders leave the same state. -/
def Obligations.WriteOrderMattersOnlyForEx : Prop :=
  ∀ mk ∈ exWriters, ∀ (b a : Operand) (s t u : State), b ≠ .ex →
    exec (mk b a) { s with params := { s.params with exWriteOrder := .destThenEx } } = .next t →
    exec (mk b a) { s with params := { s.params with exWriteOrder := .exThenDest } } = .next u →
    u = { t with params := u.params }

/-! ## Arithmetic facts of the results -/

/-- EX and the result of MUL are the 32 bits of the unsigned product; those of MLI, of the signed product (R123, R124). -/
def Obligations.MultiplyGivesWholeProduct : Prop :=
  ∀ b a : Word,
    (mulVal b a).ex.toNat * 0x10000 + (mulVal b a).val.toNat = b.toNat * a.toNat ∧
    ((mliVal b a).ex ++ (mliVal b a).val).toInt = b.toInt * a.toInt

/-- Quotient and remainder fit together, unsigned and signed; the signed remainder has the dividend's sign (R125 to R128). The one
signed quotient that does not fit a word, 0x8000 by 0xFFFF, wraps. -/
def Obligations.QuotientAndRemainderFit : Prop :=
  ∀ b a : Word, a ≠ 0 →
    ((divVal b a).val.toNat * a.toNat + (modVal b a).toNat = b.toNat ∧ (modVal b a).toNat < a.toNat) ∧
    (divVal b a).ex.toNat = (modVal b a).toNat * 0x10000 / a.toNat ∧
    ((dviVal b a).val * a + mdiVal b a = b) ∧
    (0 < (mdiVal b a).toInt → 0 < b.toInt) ∧ ((mdiVal b a).toInt < 0 → b.toInt < 0) ∧
    (mdiVal b a).toInt.natAbs < a.toInt.natAbs ∧
    ((dviVal b a).val.toInt ≠ (b.toInt).tdiv a.toInt → b = 0x8000 ∧ a = 0xFFFF)

/-- A shift loses no bit to fewer than 17 places: the result and EX together are the value moved; from 32 places on, SHR and SHL leave
0 in both, and ASR leaves the sign (R153 to R155, SHIFT_SEMANTICS = exact). -/
def Obligations.ShiftedBitsGoToEx : Prop :=
  ∀ (b : Word) (n : Nat),
    (n ≤ 16 → (shlVal b n).ex.toNat * 0x10000 + (shlVal b n).val.toNat = b.toNat * 2 ^ n) ∧
    (n ≤ 16 → ((shrVal b n).val.toNat * 0x10000 + (shrVal b n).ex.toNat) * 2 ^ n = b.toNat * 0x10000) ∧
    (n ≤ 16 → ((asrVal b n).val ++ (asrVal b n).ex).toInt * 2 ^ n = b.toInt * 0x10000) ∧
    (32 ≤ n → shlVal b n = ⟨0, 0⟩ ∧ shrVal b n = ⟨0, 0⟩ ∧
      asrVal b n = if b.toInt < 0 then ⟨0xFFFF, 0xFFFF⟩ else ⟨0, 0⟩)

/-- ADD on the low words and ADX on the high words add two 32-bit numbers, EX being the carry out (R121, R190). -/
def Obligations.AddThenAdxAddsDoubleWords : Prop :=
  ∀ bl bh al ah : Word,
    let lo := addVal bl al
    let hi := adxVal .flag bh ah lo.ex
    hi.ex.toNat * 2 ^ 32 + hi.val.toNat * 2 ^ 16 + lo.val.toNat =
      (bh.toNat * 2 ^ 16 + bl.toNat) + (ah.toNat * 2 ^ 16 + al.toNat)

/-! ## Conditionals and the skip chain -/

/-- R172 to R179 with the frame R171: the eight conditionals, which are the conditional class of R103. -/
def Obligations.ConditionalResults : Prop :=
  (∀ w : Word, isConditional defaultOpcodes w = true ↔ 0x10 ≤ (opField w).toNat ∧ (opField w).toNat ≤ 0x17) ∧
  (∀ (v : OpcodeValues) (w : Word), v.wf = true →
    (isConditional v w = true ↔ ∃ mk ∈ conditionals, ∃ b a, decode v w = .ok (mk b a))) ∧
  IfRule (·.ifb) 0x10 Instr.ifb (·.ifb) (fun rb ra => rb.u &&& ra.u ≠ 0) ∧
  IfRule (·.ifc) 0x11 Instr.ifc (·.ifc) (fun rb ra => rb.u &&& ra.u = 0) ∧
  IfRule (·.ife) 0x12 Instr.ife (·.ife) (fun rb ra => rb.u = ra.u) ∧
  IfRule (·.ifn) 0x13 Instr.ifn (·.ifn) (fun rb ra => rb.u ≠ ra.u) ∧
  IfRule (·.ifg) 0x14 Instr.ifg (·.ifg) (fun rb ra => ra.u.toNat < rb.u.toNat) ∧
  IfRule (·.ifa) 0x15 Instr.ifa (·.ifa) (fun rb ra => ra.u.toInt < rb.u.toInt) ∧
  IfRule (·.ifl) 0x16 Instr.ifl (·.ifl) (fun rb ra => rb.u.toNat < ra.u.toNat) ∧
  IfRule (·.ifu) 0x17 Instr.ifu (·.ifu) (fun rb ra => rb.u.toInt < ra.u.toInt)

/-- R170, for both values of SKIP_INVALID: a chain that meets `n` conditionals and then an instruction that is none passes over all of
them, next words included, for one cycle each, and changes PC and the cost only; an invalid word is such an instruction under
SKIP_INVALID = skip, and under SKIP_INVALID = fire the chain fires there, PC at that word (R252). No bound on `n` is assumed. -/
def Obligations.SkipChainPassesConditionals : Prop :=
  ∀ (s : State) (n : Nat), conditionalsFor s n →
    let p := skipAddress s s.pc n
    (isConditional s.params.opcodes (s.readMem p) = false →
      (isInvalid s.params.opcodes (s.readMem p) = true → s.params.skipInvalid = .skip) →
      skip s = .next { s with pc := skipAddress s s.pc (n + 1), cyc := s.cyc + (n + 1) }) ∧
    (isInvalid s.params.opcodes (s.readMem p) = true → s.params.skipInvalid = .fire →
      skip s = .fault (.fire (.invalidOpcode (s.readMem p) p)
        { s with pc := p, cyc := s.cyc + n, fire := some (.invalidOpcode (s.readMem p) p) }))

/-- The bound of 65536 in the model's skip chain (log 9) is exact: it stops the chain exactly where the chain of the spec meets
conditionals for ever (R171, I11). -/
def Obligations.SkipChainHangsExactlyWhenEndless : Prop :=
  ∀ s : State, skip s = .fault .skipChainHangs ↔ ∀ n, conditionalsFor s n

/-! ## Special instructions -/

/-- R210: JSR, on every operand form. -/
def Obligations.JsrPushesReturnAddress : Prop :=
  SpecialWord (·.jsr) 0x01 Instr.jsr ∧ defaultCosts.jsr = 3 ∧
  ∀ (a : Operand) (s : State),
    let t := afterSpecial s.params.cost.jsr a s
    exec (.jsr a) s =
      .next { t with
        sp := t.sp - 1
        mem := Memory.write t.mem (t.sp - 1).toNat t.pc
        pc := (srcRef a s).u }

/-- R211 on a machine not on fire: INT enters the handler at once, IAQ or not, its message before those that wait, or, with IA = 0,
loses every message (IA0_DROP = all, D35) or its own only (IA0_DROP = head, I3). INT_ENTRY_CYCLES is added to the cost (0 by default, D7). -/
def Obligations.IntEntersOrDiscards : Prop :=
  SpecialWord (·.int) 0x08 Instr.int ∧ defaultCosts.int = 4 ∧ defaultParams.intEntryCycles = 0 ∧
  ∀ (a : Operand) (s : State), s.fire = none →
    let t := afterSpecial s.params.cost.int a s
    (s.ia ≠ 0 → exec (.int a) s =
      .next { t with
        mem := Memory.write (Memory.write t.mem (t.sp - 1).toNat t.pc) (t.sp - 2).toNat (t.gpr.get .a)
        sp := t.sp - 2
        pc := t.ia
        gpr := t.gpr.put .a (srcRef a s).u
        iaq := true
        cyc := t.cyc + t.params.intEntryCycles }) ∧
    (s.ia = 0 → s.params.ia0Drop = .all →
      exec (.int a) s = .next { t with iaq := false, queue := [] }) ∧
    (s.ia = 0 → s.params.ia0Drop = .head → exec (.int a) s = .next { t with iaq := false })

/-- R212, R213: IAG writes IA to its operand, IAS writes its operand to IA. Code 0x18 is POP here too, so IAG pops and then writes to the
address popped from; that is D16 (log 19, DEDUCED). -/
def Obligations.IagIasMoveIa : Prop :=
  SpecialWord (·.iag) 0x09 Instr.iag ∧ defaultCosts.iag = 1 ∧ SpecialWord (·.ias) 0x0A Instr.ias ∧ defaultCosts.ias = 1 ∧
  ∀ (a : Operand) (s : State),
    exec (.iag a) s = .next (writeRef (srcRef a s) s.ia (afterSpecial s.params.cost.iag a s)) ∧
    exec (.ias a) s = .next { afterSpecial s.params.cost.ias a s with ia := (srcRef a s).u }

/-- R214: RFI clears IAQ, pops A and then PC, and dispatches; with no message waiting, that is all. -/
def Obligations.RfiRestoresAThenPc : Prop :=
  SpecialWord (·.rfi) 0x0B Instr.rfi ∧ defaultCosts.rfi = 3 ∧
  ∀ (a : Operand) (s : State),
    let t := afterSpecial s.params.cost.rfi a s
    let u := { t with
      iaq := false
      gpr := t.gpr.put .a (t.readMem t.sp)
      pc := t.readMem (t.sp + 1)
      sp := t.sp + 2 }
    exec (.rfi a) s = .next (dispatch u) ∧ (s.queue = [] → exec (.rfi a) s = .next u)

/-- R215: IAQ sets the queueing flag for a nonzero operand, and clears it and dispatches for zero. -/
def Obligations.IaqSetsOrReleases : Prop :=
  SpecialWord (·.iaq) 0x0C Instr.iaq ∧ defaultCosts.iaq = 2 ∧
  ∀ (a : Operand) (s : State),
    let t := afterSpecial s.params.cost.iaq a s
    ((srcRef a s).u ≠ 0 → exec (.iaq a) s = .next { t with iaq := true }) ∧
    ((srcRef a s).u = 0 → exec (.iaq a) s = .next (dispatch { t with iaq := false }))

/-- R230, R231: HWN writes the number of devices; HWQ writes the identity of a device to A, B, C, X and Y, and fires NO_SUCH_DEVICE,
the operand resolved (D23), for an index not below the count. -/
def Obligations.HwnHwqReportDevices : Prop :=
  SpecialWord (·.hwn) 0x10 Instr.hwn ∧ defaultCosts.hwn = 2 ∧ SpecialWord (·.hwq) 0x11 Instr.hwq ∧ defaultCosts.hwq = 4 ∧
  ∀ (a : Operand) (s : State),
    exec (.hwn a) s =
      .next (writeRef (srcRef a s) (BitVec.ofNat 16 s.devices.length) (afterSpecial s.params.cost.hwn a s)) ∧
    let t := afterSpecial s.params.cost.hwq a s
    let k := (srcRef a s).u
    (s.devices.length ≤ k.toNat →
      exec (.hwq a) s = .fault (.fire (.noSuchDevice k) { t with fire := some (.noSuchDevice k) })) ∧
    ∀ d, s.devices[k.toNat]? = some d →
      exec (.hwq a) s = .next { t with
        gpr := { t.gpr with
          a := d.ident.deviceId.extractLsb' 0 16
          b := d.ident.deviceId.extractLsb' 16 16
          c := d.ident.revision
          x := d.ident.vendorId.extractLsb' 0 16
          y := d.ident.vendorId.extractLsb' 16 16 } }

/-- HWI fires NO_SUCH_DEVICE for an index not below the count (R232, R289), and with a reference device at the index it ends in what
that device's command leaves, the command being A after resolution (R232, R290, R292); another device does what it will (log 10). -/
def Obligations.HwiRunsReferenceDevice : Prop :=
  SpecialWord (·.hwi) 0x12 Instr.hwi ∧ defaultCosts.hwi = 4 ∧
  ∀ (a : Operand) (s : State),
    let t := afterSpecial s.params.cost.hwi a s
    let k := (srcRef a s).u
    let i := k.toNat
    (s.devices.length ≤ i →
      exec (.hwi a) s = .fault (.fire (.noSuchDevice k) { t with fire := some (.noSuchDevice k) })) ∧
    (∀ c, s.bodyAt i = some (.clock c) → exec (.hwi a) s = .next (clockReceive i c t.gpr.a t)) ∧
    (∀ c, s.bodyAt i = some (.keyboard c) → exec (.hwi a) s = .next (keyboardReceive i c t.gpr.a t)) ∧
    (∀ c, s.bodyAt i = some (.disk c) → exec (.hwi a) s = .next (diskReceive i c t.gpr.a t)) ∧
    (∀ c, s.bodyAt i = some (.display c) → exec (.hwi a) s = .next (displayReceive i c t.gpr.a t)) ∧
    (∀ c, s.bodyAt i = some (.other c) → exec (.hwi a) s = otherReceive i c t)

/-! ## Frames -/

/-- What the writers of one destination leave (SET, MOD, MDI, AND, BOR, XOR, and STI and STD, which move I and J too): every other
register, EX, every word of memory but the one at the destination's address; SP moves only by PUSH and POP forms or as the
destination. -/
def Obligations.PlainWritersFrame : Prop :=
  ∀ (b a : Operand) (s t : State),
    (∀ mk ∈ plainWriters ++ streamWriters, exec (mk b a) s = .next t →
      Untouched s t ∧
      (∀ r, b ≠ .reg r → r ≠ .i → r ≠ .j → t.gpr.get r = s.gpr.get r) ∧
      (b ≠ .ex → t.ex = s.ex) ∧
      (b ≠ .sp → b ≠ .pushPop → a ≠ .pushPop → t.sp = s.sp) ∧
      ∀ x, (dstRef b a s).loc ≠ .mem x → t.readMem x = s.readMem x) ∧
    ∀ mk ∈ plainWriters, exec (mk b a) s = .next t → ∀ r, b ≠ .reg r → t.gpr.get r = s.gpr.get r

/-- What the writers of a destination and EX leave (ADD, SUB, MUL, MLI, DIV, DVI, SHR, ASR, SHL, ADX, SBX). -/
def Obligations.ExWritersFrame : Prop :=
  ∀ mk ∈ exWriters, ∀ (b a : Operand) (s t : State), exec (mk b a) s = .next t →
    Untouched s t ∧
    (∀ r, b ≠ .reg r → t.gpr.get r = s.gpr.get r) ∧
    (b ≠ .sp → b ≠ .pushPop → a ≠ .pushPop → t.sp = s.sp) ∧
    ∀ x, (dstRef b a s).loc ≠ .mem x → t.readMem x = s.readMem x

/-- What a conditional leaves, passed or failed: everything but PC, the cost, and SP where an operand is PUSH or POP (R170, R171). -/
def Obligations.ConditionalsFrame : Prop :=
  ∀ mk ∈ conditionals, ∀ (b a : Operand) (s t : State), exec (mk b a) s = .next t →
    Untouched s t ∧ t.gpr = s.gpr ∧ t.ex = s.ex ∧ t.mem = s.mem ∧
    (b ≠ .pushPop → a ≠ .pushPop → t.sp = s.sp)

/-- What JSR, IAG, IAS, HWN and HWQ leave. JSR stores one word, below the SP its operand's resolution leaves; IAG and HWN store to
their operand's address if it is memory; IAS and HWQ store nothing. -/
def Obligations.SpecialWritersFrame : Prop :=
  ∀ (a : Operand) (s t : State),
    (exec (.jsr a) s = .next t →
      Untouched s t ∧ t.gpr = s.gpr ∧ t.ex = s.ex ∧ t.sp = (resolve a .src s).2.sp - 1 ∧
      ∀ x, x ≠ (resolve a .src s).2.sp - 1 → t.readMem x = s.readMem x) ∧
    (exec (.iag a) s = .next t ∨ exec (.hwn a) s = .next t →
      Untouched s t ∧ (∀ r, a ≠ .reg r → t.gpr.get r = s.gpr.get r) ∧ (a ≠ .ex → t.ex = s.ex) ∧
      (a ≠ .sp → a ≠ .pushPop → t.sp = s.sp) ∧ ∀ x, (srcRef a s).loc ≠ .mem x → t.readMem x = s.readMem x) ∧
    (exec (.ias a) s = .next t →
      Untouched s { t with ia := s.ia } ∧ t.gpr = s.gpr ∧ t.ex = s.ex ∧ t.mem = s.mem ∧
      (a ≠ .pushPop → t.sp = s.sp)) ∧
    (exec (.hwq a) s = .next t →
      Untouched s t ∧ t.ex = s.ex ∧ t.mem = s.mem ∧ (a ≠ .pushPop → t.sp = s.sp) ∧
      t.gpr.z = s.gpr.z ∧ t.gpr.i = s.gpr.i ∧ t.gpr.j = s.gpr.j)

/-- What INT, RFI and IAQ leave: of the registers they write A, PC, SP and IAQ only; they store only to the two words below the SP at
their dispatch (R270), which is the SP their operand leaves, two higher for RFI. -/
def Obligations.ControlFrame : Prop :=
  ∀ (a : Operand) (s t : State),
    let sp := (resolve a .src s).2.sp
    (exec (.int a) s = .next t ∨ exec (.rfi a) s = .next t ∨ exec (.iaq a) s = .next t →
      (∀ r, r ≠ .a → t.gpr.get r = s.gpr.get r) ∧ t.ex = s.ex ∧ t.ia = s.ia ∧ t.fire = s.fire ∧
      t.devices = s.devices ∧ t.image = s.image ∧ t.params = s.params) ∧
    (exec (.int a) s = .next t ∨ exec (.iaq a) s = .next t →
      ∀ x, x ≠ sp - 1 → x ≠ sp - 2 → t.readMem x = s.readMem x) ∧
    (exec (.rfi a) s = .next t → ∀ x, x ≠ sp + 1 → x ≠ sp → t.readMem x = s.readMem x)

/-- What HWI leaves with a Clock, a Keyboard, a Display or a Disk at the index: the Clock and the Keyboard write C, the Display no
register, the Disk A, B, C and X. The first two store nothing; the Display stores 256 or 16 words from B on for its commands 4 and 5
(R321); the Disk stores the requested sectors from X on for a read (R312). -/
def Obligations.HwiFrame : Prop :=
  ∀ (a : Operand) (s t : State) (b : DeviceBody), exec (.hwi a) s = .next t →
    s.bodyAt (srcRef a s).u.toNat = some b → (∀ o, b ≠ .other o) →
    t.ex = s.ex ∧ t.ia = s.ia ∧ t.iaq = s.iaq ∧ t.queue = s.queue ∧ t.fire = s.fire ∧ t.image = s.image ∧
    t.params = s.params ∧ (a ≠ .pushPop → t.sp = s.sp) ∧
    (∀ k, k ≠ (srcRef a s).u.toNat → t.bodyAt k = s.bodyAt k) ∧
    t.gpr.y = s.gpr.y ∧ t.gpr.z = s.gpr.z ∧ t.gpr.i = s.gpr.i ∧ t.gpr.j = s.gpr.j ∧
    ((∃ c, b = .clock c) ∨ (∃ k, b = .keyboard k) →
      t.mem = s.mem ∧ t.gpr.a = s.gpr.a ∧ t.gpr.b = s.gpr.b ∧ t.gpr.x = s.gpr.x) ∧
    ((∃ d, b = .display d) → t.gpr = s.gpr ∧
      ∀ x, (s.gpr.a = 4 → 256 ≤ (x - s.gpr.b).toNat) → (s.gpr.a = 5 → 16 ≤ (x - s.gpr.b).toNat) →
        t.readMem x = s.readMem x) ∧
    ((∃ d, b = .disk d) →
      ∀ x, (s.gpr.a = s.params.diskCodes.readSectors → s.gpr.c.toNat * s.params.diskSectorWords ≤ (x - s.gpr.x).toNat) →
        t.readMem x = s.readMem x)

/-! ## Interrupts -/

/-- R264: a dispatch does nothing without a message or while queueing is on; with IA = 0 it loses every message (IA0_DROP = all, the
default) or the front one (IA0_DROP = head, I3); with IA not 0 it enters. R270: entry saves PC and A below SP, goes to IA with the message in A and queueing on, and changes nothing else;
it costs INT_ENTRY_CYCLES, which is 0 by default. -/
def Obligations.DispatchEntersAtIa : Prop :=
  defaultParams.intEntryCycles = 0 ∧ defaultParams.ia0Drop = .all ∧
  ∀ s : State,
    (s.queue = [] ∨ s.iaq = true → dispatch s = s) ∧
    ∀ m rest, s.queue = m :: rest → s.iaq = false →
      (s.ia = 0 → s.params.ia0Drop = .all → dispatch s = { s with queue := [] }) ∧
      (s.ia = 0 → s.params.ia0Drop = .head → dispatch s = { s with queue := rest }) ∧
      (s.ia ≠ 0 → dispatch s =
        { s with
          mem := Memory.write (Memory.write s.mem (s.sp - 1).toNat s.pc) (s.sp - 2).toNat (s.gpr.get .a)
          sp := s.sp - 2
          pc := s.ia
          gpr := s.gpr.put .a m
          iaq := true
          queue := rest
          cyc := s.cyc + s.params.intEntryCycles })

/-- R262, R263: a trigger. The bypass clears IAQ and puts the message first; the other appends it, and the append that makes 257 fires,
the message in the queue; then a dispatch is attempted. On fire a trigger has no effect (D39). -/
def Obligations.TriggerQueuesAndDispatches : Prop :=
  ∀ (m : Word) (s : State),
    (s.fire ≠ none → ∀ bypass, trigger m bypass s = .next s) ∧
    (s.fire = none →
      trigger m true s = .next (dispatch { s with iaq := false, queue := m :: s.queue }) ∧
      (s.queue.length < 256 → trigger m false s = .next (dispatch { s with queue := s.queue ++ [m] })) ∧
      (256 ≤ s.queue.length → trigger m false s =
        .fault (.fire (.queueOverflow m)
          { s with queue := s.queue ++ [m], fire := some (.queueOverflow m) })))

/-- An interrupt and its return leave the program where it was: after entry and RFI with nothing waiting, PC, A and SP are back, queueing
is off, and memory has changed in the two words below SP only (R270, R271). -/
def Obligations.EntryThenReturnRestores : Prop :=
  ∀ (s : State) (m : Word), Memory.wf memWords s.mem = true →
    let u := returnFromInterrupt (enterInterrupt m [] s)
    u.pc = s.pc ∧ u.gpr = s.gpr ∧ u.sp = s.sp ∧ u.ex = s.ex ∧ u.ia = s.ia ∧ u.iaq = false ∧ u.queue = [] ∧
    ∀ x, x ≠ s.sp - 1 → x ≠ s.sp - 2 → u.readMem x = s.readMem x

/-! ## The step -/

/-- R109: the step of a machine not on fire whose next word decodes runs the instruction, PC past the word and the cost at 0, then clocks
every device with the cost, in index order, then attempts a dispatch. -/
def Obligations.StepRunsDecodedInstruction : Prop :=
  ∀ (s : State) (i : Instr), s.fire = none → decode s.params.opcodes (s.readMem s.pc) = .ok i →
    step s = andThen (exec i { s with pc := s.pc + 1, cyc := 0 }) fun t =>
      andThen ((List.range t.devices.length).foldl (fun r k => andThen r (deviceClock k t.cyc)) (.next t))
        fun u => .next (dispatch u)

/-- R250: a fatal fault ends the step at once with the fault recorded; a machine on fire does no step and stays as it is. The kinds have
the codes of R251. No step is refused: every word is an instruction with a meaning, or invalid (R101, R102). -/
def Obligations.FireStopsTheMachine : Prop :=
  (∀ w : Word, (∀ x, (Fire.invalidOpcode w x).code = 1) ∧ (Fire.noSuchDevice w).code = 2 ∧
    (Fire.queueOverflow w).code = 3) ∧
  (∀ (k : Fire) (s : State), s.fire = some k → step s = .fault (.fire k s)) ∧
  (∀ (s : State) (i : Instr) (e : Fault), s.fire = none → decode s.params.opcodes (s.readMem s.pc) = .ok i →
    exec i { s with pc := s.pc + 1, cyc := 0 } = .fault e → step s = .fault e) ∧
  (∀ (s : State) (k : Fire) (post : State), step s = .fault (.fire k post) → post.fire = some k) ∧
  ∀ (s : State) (r : Refusal), step s ≠ .refused r

/-- Every step keeps the configuration, the device objects and their identities and order (R29, R35, R288, R289). -/
def Obligations.StepKeepsHostSide : Prop :=
  ∀ s t : State, step s = .next t →
    t.image = s.image ∧ t.params = s.params ∧ t.devices.map Device.handle = s.devices.map Device.handle ∧
    t.devices.map Device.ident = s.devices.map Device.ident

/-- IA changes only by IAS, where no device is one that may write it (R25, R291, R292). -/
def Obligations.OnlyIasChangesIa : Prop :=
  ∀ (s t : State) (i : Instr), referenceDevicesOnly s → decode s.params.opcodes (s.readMem s.pc) = .ok i →
    (∀ a, i ≠ .ias a) → step s = .next t → t.ia = s.ia

/-! ## Invariants -/

/-- The machine after reset meets the invariant. -/
def Obligations.ResetMeetsInvariant : Prop := Inv State.reset

/-- Every step keeps the invariant: canonical memory, at most 256 messages, none waiting while queueing is off, not on fire, devices in
order (R30, R263, R266). -/
def Obligations.StepKeepsInvariant : Prop :=
  ∀ s t : State, Inv s → step s = .next t → Inv t

/-- Every host call between steps keeps the invariant (R266: every host event ends with a dispatch inside its trigger). -/
def Obligations.HostCallKeepsInvariant : Prop :=
  ∀ (c : HostCall) (s t : State), Inv s → hostCallOk s.params c = true → hostCall c s = .next t → Inv t

/-- Whatever a fatal fault leaves, a reset brings the machine back to the invariant (R250, R330). -/
def Obligations.ResetAfterFireMeetsInvariant : Prop :=
  ∀ (s post : State) (k : Fire), Inv s → step s = .fault (.fire k post) → Inv (resetMachine post)

/-! ## Reset and the host -/

/-- R330, R37: what reset leaves: the image then zeros in memory, registers and controller cleared, fire none, the device list and the
configuration as they were, and every reference device at the reset values of R301, R305, R310 (the medium stays) and R320. What another
device will do is the model's own (log 10) and stays. -/
def Obligations.ResetLeaves : Prop :=
  ∀ s : State,
    let t := resetMachine s
    (∀ r, t.gpr.get r = 0) ∧ t.pc = 0 ∧ t.sp = 0 ∧ t.ex = 0 ∧ t.ia = 0 ∧ t.iaq = false ∧ t.queue = [] ∧
    t.fire = none ∧ (∀ x : Word, t.readMem x = s.image.getD x.toNat 0) ∧
    t.image = s.image ∧ t.params = s.params ∧ t.devices.map Device.handle = s.devices.map Device.handle ∧
    t.devices.map Device.ident = s.devices.map Device.ident ∧
    ∀ i,
      (∀ c, s.bodyAt i = some (.clock c) →
        t.bodyAt i = some (.clock { rate := 0, ticks := 0, acc60 := 0, message := 0 })) ∧
      (∀ k, s.bodyAt i = some (.keyboard k) →
        t.bodyAt i = some (.keyboard { buffer := [], down := [], message := 0 })) ∧
      (∀ d, s.bodyAt i = some (.disk d) →
        t.bodyAt i = some (.disk {
          media := d.media, flags := 0, intType := s.params.diskCodes.intNone, message := 0, head := 0, jobs := []
          acc := 0 })) ∧
      (∀ d, s.bodyAt i = some (.display d) →
        t.bodyAt i = some (.display { nametable := none, font := none, palette := none, border := 0 })) ∧
      ∀ o, s.bodyAt i = some (.other o) → t.bodyAt i = some (.other o)

/-- R285, R286: attach rejects a device already present or one too many, and else appends it and resets; detach removes and resets, and does
nothing for a device that is not attached (D33). -/
def Obligations.AttachDetach : Prop :=
  ∀ s : State,
    (∀ d : Device,
      ((s.devices.length = 65535 ∨ ∃ e ∈ s.devices, e.handle = d.handle) → hostCall (.attach d) s = .refused .attachRejected) ∧
      (s.devices.length < 65535 → (∀ e ∈ s.devices, e.handle ≠ d.handle) →
        hostCall (.attach d) s = .next (resetMachine { s with devices := s.devices ++ [d] }))) ∧
    ∀ h : Nat,
      ((∀ e ∈ s.devices, e.handle ≠ h) → hostCall (.detach h) s = .next s) ∧
      ((∃ e ∈ s.devices, e.handle = h) → hostCall (.detach h) s =
        .next (resetMachine { s with devices := s.devices.filter fun e => e.handle ≠ h }))

/-- R66, R331: loading an image, from words or from a byte stream in either order; it takes effect at the next reset. An odd or over-long
stream is refused (D19). -/
def Obligations.ImageLoading : Prop :=
  ∀ (s : State),
    (∀ ws : List Word, ws.length ≤ 65536 → hostCall (.loadWords ws) s = .next { s with image := ws }) ∧
    (∀ ws : List Word, 65536 < ws.length → hostCall (.loadWords ws) s = .refused .imageRefused) ∧
    ∀ (order : ByteOrder) (bytes : List Byte),
      (bytes.length % 2 = 1 ∨ 131072 < bytes.length →
        hostCall (.loadBytes order bytes) s = .refused .imageRefused) ∧
      (bytes.length % 2 = 0 → bytes.length ≤ 131072 → ∃ ws : List Word,
        hostCall (.loadBytes order bytes) s = .next { s with image := ws } ∧ ws.length = bytes.length / 2 ∧
        ∀ k < ws.length, (ws.getD k 0).toNat =
          match order with
          | .big => (bytes.getD (2 * k) 0).toNat * 256 + (bytes.getD (2 * k + 1) 0).toNat
          | .little => (bytes.getD (2 * k + 1) 0).toNat * 256 + (bytes.getD (2 * k) 0).toNat)

/-- R336: with costs of at least one cycle, a run of a budget takes steps while some of it is left and the machine is not on fire, at most
`budget` of them. It ends with the budget less the cost of those steps: used up or on fire; or by the fault of a step, which costs nothing here (log
41); or it is stuck in a step that never returns (I11, log 9). -/
def Obligations.RunEndsWithinBudget : Prop :=
  ∀ (s : State) (budget : Nat), costsPositive s.params.cost →
    ∃ (n c : Nat) (t : State), n ≤ budget ∧ StepsTo n c s t ∧
      (∀ m d u, m < n → StepsTo m d s u → d < budget ∧ u.fire = none) ∧
      ((run (budget + 1) budget s = .ended ((budget : Int) - c) t ∧ (budget ≤ c ∨ t.fire ≠ none)) ∨
        (c < budget ∧ t.fire = none ∧ ∃ k post, step t = .fault (.fire k post) ∧ post.fire = some k ∧
          run (budget + 1) budget s = .ended ((budget : Int) - c) post) ∨
        (c < budget ∧ t.fire = none ∧ step t = .fault .skipChainHangs ∧
          run (budget + 1) budget s = .stuck (.fault .skipChainHangs)))

/-! ## Devices -/

/-- R302: the Clock's commands. -/
def Obligations.ClockCommands : Prop :=
  ∀ (i : Nat) (c : ClockState) (s : State),
    clockReceive i c 0 s = s.setBody i (.clock ⟨s.gpr.b, 0, 0, c.message⟩) ∧
    clockReceive i c 1 s =
      ({ s with gpr := { s.gpr with c := c.ticks } }).setBody i (.clock ⟨c.rate, 0, c.acc60, c.message⟩) ∧
    clockReceive i c 2 s = s.setBody i (.clock ⟨c.rate, c.ticks, c.acc60, s.gpr.b⟩) ∧
    ∀ m : Word, 3 ≤ m.toNat → clockReceive i c m s = s

/-- A silent Clock counts exactly the whole periods in the cycles it is given and keeps the rest (R303); where it has a message and the
machine holds messages with room for them, each tick adds one message to the queue. -/
def Obligations.ClockTicksAreExact : Prop :=
  ∀ (i n : Nat) (c : ClockState) (s : State), s.bodyAt i = some (.clock c) → 0 < s.params.clockHz →
    (c.message = 0 → deviceClock i n s = .next (s.setBody i (.clock (clockAfter s.params c n)))) ∧
    (c.message ≠ 0 → c.rate ≠ 0 → s.fire = none → s.iaq = true →
      s.queue.length + (c.acc60 + 60 * n) / (s.params.clockHz * c.rate.toNat) ≤ 256 →
      deviceClock i n s =
        .next ((s.setBody i (.clock (clockAfter s.params c n))).setQueue
          (s.queue ++ List.replicate ((c.acc60 + 60 * n) / (s.params.clockHz * c.rate.toNat)) c.message)))

/-- Every silent Clock on the bus sees the whole cost of the step, whatever its index (R294). -/
def Obligations.EveryClockSeesTheStepCost : Prop :=
  ∀ s : State, 0 < s.params.clockHz →
    (∀ i b, s.bodyAt i = some b → ∃ c, b = .clock c ∧ c.message = 0) →
    ∃ t, broadcast s = .next t ∧
      ∀ i c, s.bodyAt i = some (.clock c) → t.bodyAt i = some (.clock (clockAfter s.params c s.cyc))

/-- R306, R307: key events and the Keyboard's commands: codes come out in the order they went in, a release takes its code out of the held
keys and puts none in the buffer, and each event triggers the message unless it is 0 (D29). -/
def Obligations.KeyboardIsFifo : Prop :=
  ∀ (i : Nat) (k : KeyboardState) (s : State),
    (s.bodyAt i = some (.keyboard k) → ∀ code,
      hostCall (.keyDown i code) s = signalled k.message
        (s.setBody i (.keyboard { k with down := holdKey k.down code, buffer := k.buffer ++ [code] })) ∧
      hostCall (.keyUp i code) s = signalled k.message
        (s.setBody i (.keyboard { k with down := releaseKey k.down code }))) ∧
    (∀ code rest, k.buffer = code :: rest → keyboardReceive i k 1 s =
      ({ s with gpr := { s.gpr with c := code } }).setBody i (.keyboard { k with buffer := rest })) ∧
    (k.buffer = [] → keyboardReceive i k 1 s = { s with gpr := { s.gpr with c := 0 } }) ∧
    keyboardReceive i k 0 s = s.setBody i (.keyboard { k with buffer := [] }) ∧
    keyboardReceive i k 2 s = { s with gpr := { s.gpr with c := if s.gpr.b ∈ k.down then 1 else 0 } } ∧
    keyboardReceive i k 3 s = s.setBody i (.keyboard { k with message := s.gpr.b }) ∧
    (∀ m : Word, 4 ≤ m.toNat → keyboardReceive i k m s = s) ∧
    ∀ code x, (x ∈ holdKey k.down code ↔ x = code ∨ x ∈ k.down) ∧
      (x ∈ releaseKey k.down code ↔ x ≠ code ∧ x ∈ k.down)

/-- R311 and R312: the Disk's commands, their values and codes those of the parameters, the HMD2043's by default; the requests it turns
away, and in non-blocking mode the jobs of the request it takes. What a blocking request does is DiskBlockingTransfers. -/
def Obligations.DiskCommands : Prop :=
  defaultParams.diskSectorWords = 512 ∧ defaultParams.diskSectors = 1440 ∧
  defaultParams.diskCodes = {
    mediaQuery := 0x0000, parameterQuery := 0x0001, flagsGet := 0x0002, flagsSet := 0x0003,
    interruptTypeQuery := 0x0004, interruptMessageSet := 0x0005, readSectors := 0x0010, writeSectors := 0x0011,
    qualityQuery := 0xFFFF, errorNone := 0x0000, errorNoMedia := 0x0001, errorInvalidSector := 0x0002,
    errorPending := 0x0003, flagNonBlocking := 0, flagMediaStatus := 1, intNone := 0, intMediaStatus := 1,
    intReadComplete := 2, intWriteComplete := 3 } ∧
  ∀ (i : Nat) (d : DiskState) (s : State),
    let c := s.params.diskCodes
    let commands := [c.mediaQuery, c.parameterQuery, c.flagsGet, c.flagsSet, c.interruptTypeQuery,
      c.interruptMessageSet, c.readSectors, c.writeSectors, c.qualityQuery]
    (commands.Nodup →
      diskReceive i d c.mediaQuery s =
        { s with gpr := { s.gpr with a := c.errorNone, b := if d.media = none then 0 else 1 } } ∧
      diskReceive i d c.parameterQuery s =
        (if d.media = none then { s with gpr := { s.gpr with a := c.errorNoMedia } }
        else { s with gpr := { s.gpr with
          a := c.errorNone
          b := BitVec.ofNat 16 s.params.diskSectorWords
          c := BitVec.ofNat 16 s.params.diskSectors
          x := 0 } }) ∧
      diskReceive i d c.flagsGet s = { s with gpr := { s.gpr with a := c.errorNone, b := d.flags } } ∧
      diskReceive i d c.flagsSet s =
        ({ s with gpr := { s.gpr with a := c.errorNone } }).setBody i (.disk { d with flags := s.gpr.b }) ∧
      diskReceive i d c.interruptTypeQuery s =
        { s with gpr := { s.gpr with a := c.errorNone, b := d.intType } } ∧
      diskReceive i d c.interruptMessageSet s =
        ({ s with gpr := { s.gpr with a := c.errorNone } }).setBody i (.disk { d with message := s.gpr.b }) ∧
      diskReceive i d c.readSectors s = diskRequest i .read d s ∧
      diskReceive i d c.writeSectors s = diskRequest i .write d s ∧
      diskReceive i d c.qualityQuery s = { s with gpr := { s.gpr with a := c.errorNone, b := 0x7FFF } }) ∧
    (∀ m : Word, m ∉ commands → diskReceive i d m s = s) ∧
    ∀ dir : JobDirection,
      (d.media = none → diskRequest i dir d s = { s with gpr := { s.gpr with a := c.errorNoMedia } }) ∧
      (d.media ≠ none → d.jobs ≠ [] → diskRequest i dir d s = { s with gpr := { s.gpr with a := c.errorPending } }) ∧
      (d.media ≠ none → d.jobs = [] → s.params.diskSectors < s.gpr.b.toNat + s.gpr.c.toNat →
        diskRequest i dir d s = { s with gpr := { s.gpr with a := c.errorInvalidSector } }) ∧
      (d.media ≠ none → d.jobs = [] → s.gpr.b.toNat + s.gpr.c.toNat ≤ s.params.diskSectors →
        d.flags.getLsbD c.flagNonBlocking = true →
        diskRequest i dir d s =
          ({ s with gpr := { s.gpr with a := c.errorNone } }).setBody i (.disk { d with
            jobs := (List.range s.gpr.c.toNat).map fun k =>
              { direction := dir, sector := s.gpr.b.toNat + k,
                address := s.gpr.x + BitVec.ofNat 16 (k * s.params.diskSectorWords) } }))

/-- A blocking write request copies the memory block to its sectors and leaves every other word of the medium, and a blocking read request
copies the sectors to the memory block and leaves every other word of memory, both bit for bit, within the call; the call consumes the
cost of every job, one seek from the head to the first sector and one between sectors, the head ends at the last sector, and nothing
else of the Disk changes and no interrupt is raised (R312, R313, R314, R317). -/
def Obligations.DiskBlockingTransfers : Prop :=
  ∀ (i : Nat) (d : DiskState) (md : Memory) (s : State),
    let first := s.gpr.b.toNat
    let count := s.gpr.c.toNat
    let words := s.params.diskSectorWords
    s.bodyAt i = some (.disk d) → d.media = some md → d.jobs = [] →
    d.flags.getLsbD s.params.diskCodes.flagNonBlocking = false → first + count ≤ s.params.diskSectors →
    count * words ≤ 65536 → Memory.wf memWords s.mem = true → Memory.wf (s.params.diskSectors * words) md = true →
    let head := if count = 0 then d.head else first + count - 1
    let cost := if count = 0 then 0 else
      seekDistance d.head first * s.params.diskSeekCycles + (count - 1) * s.params.diskSeekCycles
        + count * s.params.diskTransferCycles
    (∀ dir, (diskRequest i dir d s).cyc = s.cyc + cost ∧
      (diskRequest i dir d s).gpr = { s.gpr with a := s.params.diskCodes.errorNone } ∧
      (diskRequest i dir d s).queue = s.queue ∧ (diskRequest i dir d s).pc = s.pc) ∧
    (∃ md', (diskRequest i .write d s).bodyAt i = some (.disk { d with media := some md', head := head }) ∧
      (diskRequest i .write d s).mem = s.mem ∧
      (∀ n < count, ∀ k < words,
        Memory.read md' ((first + n) * words + k) = s.readMem (s.gpr.x + BitVec.ofNat 16 (n * words + k))) ∧
      ∀ x, x < first * words ∨ (first + count) * words ≤ x → Memory.read md' x = Memory.read md x) ∧
    (diskRequest i .read d s).bodyAt i = some (.disk { d with head := head }) ∧
    (∀ n < count, ∀ k < words,
      (diskRequest i .read d s).readMem (s.gpr.x + BitVec.ofNat 16 (n * words + k)) =
        Memory.read md ((first + n) * words + k)) ∧
    ∀ x, count * words ≤ (x - s.gpr.x).toNat → (diskRequest i .read d s).readMem x = s.readMem x

/-- R315: the clock on a Disk. With no job nothing happens. Else the cycles are added, and the jobs whose cost is covered are done, in
the order they were queued; while one stays, what is left of the cycles is kept; when none stays, the cycles are dropped, the cause is
that of the last job, and the message is triggered once unless it is 0. -/
def Obligations.DiskJobCompletesByClock : Prop :=
  ∀ (i n : Nat) (d : DiskState) (s : State), s.bodyAt i = some (.disk d) →
    (d.jobs = [] → deviceClock i n s = .next s) ∧
    ∀ done rest : List Job, d.jobs = done ++ rest → jobsCost s.params d.head done ≤ d.acc + n →
      (∀ j, rest.head? = some j → d.acc + n < jobsCost s.params d.head (done ++ [j])) →
      let moved := transferAll s.params done d.media s.mem
      let left := { s with mem := moved.2 }
      (rest ≠ [] → deviceClock i n s = .next (left.setBody i (.disk { d with
        media := moved.1
        head := headAfter d.head done
        jobs := rest
        acc := d.acc + n - jobsCost s.params d.head done }))) ∧
      ∀ last, rest = [] → done.getLast? = some last →
        deviceClock i n s = signalled d.message (left.setBody i (.disk { d with
          media := moved.1
          head := last.sector
          jobs := []
          acc := 0
          intType := if last.direction = .read then s.params.diskCodes.intReadComplete
            else s.params.diskCodes.intWriteComplete }))

/-- R316: a medium goes in or out: the waiting jobs and their cycles are dropped and transfer nothing, and with the media-status bit set the
cause is recorded and the message triggered unless it is 0. -/
def Obligations.DiskMediaEvents : Prop :=
  ∀ (i : Nat) (d : DiskState) (s : State), s.bodyAt i = some (.disk d) →
    ∀ (call : HostCall) (media : Option Memory),
      (∃ md, call = .insertMedia i md ∧ media = some md) ∨ (call = .ejectMedia i ∧ media = none) →
      (d.flags.getLsbD s.params.diskCodes.flagMediaStatus = false →
        hostCall call s = .next (s.setBody i (.disk { d with media := media, jobs := [], acc := 0 }))) ∧
      (d.flags.getLsbD s.params.diskCodes.flagMediaStatus = true →
        hostCall call s = signalled d.message (s.setBody i (.disk { d with
          media := media, jobs := [], acc := 0, intType := s.params.diskCodes.intMediaStatus })))

/-- R321: the Display's commands; commands 4 and 5 store DEFAULT_FONT and DEFAULT_PALETTE (R320) from B on, wrapping (D28), and consume
256 and 16 cycles. Its clock does nothing (R322). -/
def Obligations.DisplayCommands : Prop :=
  defaultParams.defaultPalette.toList =
    [0x0000, 0x000A, 0x00A0, 0x00AA, 0x0A00, 0x0A0A, 0x0A50, 0x0AAA,
      0x0555, 0x055F, 0x05F5, 0x05FF, 0x0F55, 0x0F5F, 0x0FF5, 0x0FFF] ∧
  ∀ (i : Nat) (d : DisplayState) (s : State),
    let view := fun len => if s.gpr.b = 0 then none else some (View.mk s.gpr.b len)
    displayReceive i d 0 s = s.setBody i (.display { d with nametable := view s.params.nametableWords }) ∧
    displayReceive i d 1 s = s.setBody i (.display { d with font := view 256 }) ∧
    displayReceive i d 2 s = s.setBody i (.display { d with palette := view 16 }) ∧
    displayReceive i d 3 s = s.setBody i (.display { d with border := BitVec.ofNat 4 (s.gpr.b.toNat % 16) }) ∧
    (∀ m : Word, 6 ≤ m.toNat → displayReceive i d m s = s) ∧
    (s.bodyAt i = some (.display d) → ∀ n, deviceClock i n s = .next s) ∧
    (Memory.wf memWords s.mem = true →
      (displayReceive i d 4 s).cyc = s.cyc + 256 ∧
      (∀ k : Fin 256,
        (displayReceive i d 4 s).readMem (s.gpr.b + BitVec.ofNat 16 k.val) = s.params.defaultFont[k]) ∧
      (displayReceive i d 5 s).cyc = s.cyc + 16 ∧
      ∀ k : Fin 16,
        (displayReceive i d 5 s).readMem (s.gpr.b + BitVec.ofNat 16 k.val) = s.params.defaultPalette[k])
end

