-- ==== Sys2Proof/Laws/Decode.lean ====
section
/-! SUPPORT. The fields of an encoded word, and the operand table read both ways. -/

namespace Sys2Proof

@[simp] theorem opField_encodeBasic (o : BitVec 5) (b a : Operand) : opField (encodeBasic o b a) = o := by
  unfold opField encodeBasic
  generalize encodeOperand a = x
  generalize (encodeOperand b).extractLsb' 0 5 = y
  ext i hi
  simp only [BitVec.getElem_extractLsb', BitVec.getLsbD_append]
  simp [hi]

@[simp] theorem bField_encodeBasic (o : BitVec 5) (b a : Operand) :
    bField (encodeBasic o b a) = (encodeOperand b).extractLsb' 0 5 := by
  unfold bField encodeBasic
  generalize encodeOperand a = x
  generalize (encodeOperand b).extractLsb' 0 5 = y
  ext i hi
  simp only [BitVec.getElem_extractLsb', BitVec.getLsbD_append]
  simp [hi]

@[simp] theorem aField_encodeBasic (o : BitVec 5) (b a : Operand) :
    aField (encodeBasic o b a) = encodeOperand a := by
  unfold aField encodeBasic
  generalize encodeOperand a = x
  generalize (encodeOperand b).extractLsb' 0 5 = y
  ext i hi
  simp only [BitVec.getElem_extractLsb', BitVec.getLsbD_append]
  have h1 : ¬ 10 + i < 5 := by omega
  have h2 : ¬ 10 + i - 5 < 5 := by omega
  have h3 : 10 + i - 5 - 5 = i := by omega
  simp [h1, h2, h3, BitVec.getLsbD_eq_getElem hi]

@[simp] theorem opField_encodeSpecial (op : BitVec 5) (a : Operand) : opField (encodeSpecial op a) = 0 := by
  unfold opField encodeSpecial
  generalize encodeOperand a = x
  ext i hi
  simp only [BitVec.getElem_extractLsb', BitVec.getLsbD_append]
  simp [hi]

@[simp] theorem bField_encodeSpecial (op : BitVec 5) (a : Operand) : bField (encodeSpecial op a) = op := by
  unfold bField encodeSpecial
  generalize encodeOperand a = x
  ext i hi
  simp only [BitVec.getElem_extractLsb', BitVec.getLsbD_append]
  simp [hi]

@[simp] theorem aField_encodeSpecial (op : BitVec 5) (a : Operand) :
    aField (encodeSpecial op a) = encodeOperand a := by
  unfold aField encodeSpecial
  generalize encodeOperand a = x
  ext i hi
  simp only [BitVec.getElem_extractLsb', BitVec.getLsbD_append]
  have h1 : ¬ 10 + i < 5 := by omega
  have h2 : ¬ 10 + i - 5 < 5 := by omega
  have h3 : 10 + i - 5 - 5 = i := by omega
  simp [h1, h2, h3, BitVec.getLsbD_eq_getElem hi]

/-- The operand table loses nothing one way. -/
@[simp] theorem decodeOperand_encodeOperand (o : Operand) : decodeOperand (encodeOperand o) = o := by
  cases o with
  | reg r => cases r <;> rfl
  | ind r => cases r <;> rfl
  | indNext r => cases r <;> rfl
  | inline k => revert k; decide
  | _ => rfl

/-- Nor the other way: each of the 64 codes is the code of one operand. -/
@[simp] theorem encodeOperand_decodeOperand (c : BitVec 6) : encodeOperand (decodeOperand c) = c := by
  revert c; decide

/-- A b field holds every operand it can spell. -/
@[simp] theorem decodeOperand_encodeOperand_bField {b : Operand} (h : b.fitsB = true) :
    decodeOperand (0b0#1 ++ (encodeOperand b).extractLsb' 0 5) = b := by
  cases b with
  | reg r => cases r <;> rfl
  | ind r => cases r <;> rfl
  | indNext r => cases r <;> rfl
  | inline k => simp [Operand.fitsB] at h
  | _ => rfl

/-- What a b field spells fits it. -/
@[simp] theorem fitsB_decodeOperand (c : BitVec 5) : (decodeOperand (0b0#1 ++ c)).fitsB = true := by
  revert c; decide

theorem encodeOperand_bField (c : BitVec 5) :
    (encodeOperand (decodeOperand (0b0#1 ++ c))).extractLsb' 0 5 = c := by
  revert c; decide

/-- A word is its three fields (R80). -/
theorem word_eq_fields (w : Word) : aField w ++ bField w ++ opField w = w := by
  ext i hi
  simp only [aField, bField, opField, BitVec.getElem_append, BitVec.getElem_extractLsb']
  by_cases h1 : i < 5
  · simp [h1, BitVec.getLsbD_eq_getElem hi]
  · by_cases h2 : i - 5 < 5
    · have h3 : 5 + (i - 5) = i := by omega
      simp [h1, h2, h3, BitVec.getLsbD_eq_getElem hi]
    · have h3 : 10 + (i - 5 - 5) = i := by omega
      have h4 : i - 5 - 5 < 6 := by omega
      simp [h1, h2, h3, BitVec.getLsbD_eq_getElem hi]

/-! ### The opcode tables under a numbering -/

/-- Where no key stands twice, a row is the one its key finds. -/
theorem findRow_mem {α : Type} {rows : List (BitVec 5 × α)} {o : BitVec 5} {x : α}
    (hd : (rows.map Prod.fst).Nodup) (hm : (o, x) ∈ rows) : findRow o rows = some x := by
  induction rows with
  | nil => cases hm
  | cons r rows ih =>
    obtain ⟨k, y⟩ := r
    simp only [List.map_cons, List.nodup_cons] at hd
    rcases List.mem_cons.1 hm with e | e
    · cases e; simp [findRow]
    · have hk : o ≠ k := fun h => hd.1 (h ▸ List.mem_map_of_mem (f := Prod.fst) e)
      simp [findRow, hk, ih hd.2 e]

/-- What a key finds is a row. -/
theorem mem_of_findRow {α : Type} {rows : List (BitVec 5 × α)} {o : BitVec 5} {x : α}
    (h : findRow o rows = some x) : (o, x) ∈ rows := by
  induction rows with
  | nil => cases h
  | cons r rows ih =>
    obtain ⟨k, y⟩ := r
    unfold findRow at h
    split at h
    · rename_i e; cases h; subst e; exact List.mem_cons_self
    · exact List.mem_cons_of_mem _ (ih h)

/-- A key finds nothing exactly if it is the key of no row. -/
theorem findRow_eq_none {α : Type} {rows : List (BitVec 5 × α)} {o : BitVec 5} :
    findRow o rows = none ↔ o ∉ rows.map Prod.fst := by
  induction rows with
  | nil => simp [findRow]
  | cons r rows ih =>
    obtain ⟨k, y⟩ := r
    unfold findRow
    split <;> simp_all

theorem OpcodeValues.wf_iff {v : OpcodeValues} :
    v.wf = true ↔ ((basicTable v).map Prod.fst).Nodup ∧ 0 ∉ (basicTable v).map Prod.fst ∧
      ((specialTable v).map Prod.fst).Nodup := by
  simp only [OpcodeValues.wf, Bool.and_eq_true, decide_eq_true_eq, and_assoc]

/-- The default numbering is one. -/
theorem defaultOpcodes_wf : defaultOpcodes.wf = true := by decide

theorem OpcodeValues.ne_zero_of_wf {v : OpcodeValues} (hv : v.wf = true) {o : BitVec 5} {mk : Operand → Operand → Instr}
    (hm : (o, mk) ∈ basicTable v) : o ≠ 0 := fun e =>
  (OpcodeValues.wf_iff.1 hv).2.1 (e ▸ List.mem_map_of_mem (f := Prod.fst) hm)

/-- The word of a row of the basic map decodes to that row's instruction, with the operands its fields spell (R81, R99). -/
theorem decode_basic {v : OpcodeValues} (hv : v.wf = true) {o : BitVec 5} {mk : Operand → Operand → Instr}
    (hm : (o, mk) ∈ basicTable v) {w : Word} (hw : opField w = o) :
    decode v w = .ok (mk (decodeOperand (0b0#1 ++ bField w)) (decodeOperand (aField w))) := by
  have h0 : ¬ o = 0#5 := OpcodeValues.ne_zero_of_wf hv hm
  simp [decode, decodeBasic, hw, h0, findRow_mem (OpcodeValues.wf_iff.1 hv).1 hm]

/-- The word of a row of the special map decodes to that row's instruction (R82, R100). -/
theorem decode_special {v : OpcodeValues} (hv : v.wf = true) {op : BitVec 5} {mk : Operand → Instr}
    (hm : (op, mk) ∈ specialTable v) {w : Word} (h0 : opField w = 0) (hw : bField w = op) :
    decode v w = .ok (mk (decodeOperand (aField w))) := by
  simp [decode, decodeSpecial, h0, hw, findRow_mem (OpcodeValues.wf_iff.1 hv).2.2 hm]

/-- Decode and encode agree on a row of the basic map. -/
theorem decode_encodeBasic {v : OpcodeValues} (hv : v.wf = true) {o : BitVec 5} {mk : Operand → Operand → Instr}
    (hm : (o, mk) ∈ basicTable v) {b : Operand} (hb : b.fitsB = true) (a : Operand) :
    decode v (encodeBasic o b a) = .ok (mk b a) := by
  simp [decode_basic hv hm, hb]

/-- Decode and encode agree on a row of the special map. -/
theorem decode_encodeSpecial {v : OpcodeValues} (hv : v.wf = true) {op : BitVec 5} {mk : Operand → Instr}
    (hm : (op, mk) ∈ specialTable v) (a : Operand) : decode v (encodeSpecial op a) = .ok (mk a) := by
  simp [decode_special hv hm]

/-- The word of an IF is conditional (R103). -/
theorem isConditional_conditional {v : OpcodeValues} (hv : v.wf = true) {o : BitVec 5}
    {mk : Operand → Operand → Instr} (hm : (o, mk) ∈ conditionalTable v) {w : Word} (hw : opField w = o) :
    isConditional v w = true := by
  have h0 : ¬ o = 0#5 := OpcodeValues.ne_zero_of_wf hv (List.mem_append_left _ hm)
  have hk : o ∈ (conditionalTable v).map Prod.fst := List.mem_map_of_mem (f := Prod.fst) hm
  simpa [isConditional, hw, h0] using hk

/-- No other basic word is (R103). -/
theorem isConditional_plain {v : OpcodeValues} (hv : v.wf = true) {o : BitVec 5}
    {mk : Operand → Operand → Instr} (hm : (o, mk) ∈ arithmeticTable v ++ carryTable v) {w : Word}
    (hw : opField w = o) : isConditional v w = false := by
  have hd := (OpcodeValues.wf_iff.1 hv).1
  rw [basicTable, List.map_append, List.nodup_append] at hd
  have hk : o ∉ (conditionalTable v).map Prod.fst := fun h =>
    hd.2.2 o h o (List.mem_map_of_mem (f := Prod.fst) hm) rfl
  simp only [isConditional, hw, Bool.and_eq_false_iff]
  exact .inr (by simpa using hk)

/-- No special word is (R103). -/
theorem isConditional_special {v : OpcodeValues} {w : Word} (h0 : opField w = 0) : isConditional v w = false := by
  simp [isConditional, h0]

end Sys2Proof
end

