-- ==== Sys2Proof/Laws/State.lean ====
section
/-! SUPPORT. What each named update of the state leaves in each field, and what the register file reads after a write. -/

namespace Sys2Proof.Machine

/-! ### setGpr -/

@[simp] theorem State.setGpr_gpr (s : State) (r : Gpr) (v : Word) : (s.setGpr r v).gpr = s.gpr.put r v := rfl
@[simp] theorem State.setGpr_pc (s : State) (r : Gpr) (v : Word) : (s.setGpr r v).pc = s.pc := rfl
@[simp] theorem State.setGpr_sp (s : State) (r : Gpr) (v : Word) : (s.setGpr r v).sp = s.sp := rfl
@[simp] theorem State.setGpr_ex (s : State) (r : Gpr) (v : Word) : (s.setGpr r v).ex = s.ex := rfl
@[simp] theorem State.setGpr_ia (s : State) (r : Gpr) (v : Word) : (s.setGpr r v).ia = s.ia := rfl
@[simp] theorem State.setGpr_iaq (s : State) (r : Gpr) (v : Word) : (s.setGpr r v).iaq = s.iaq := rfl
@[simp] theorem State.setGpr_queue (s : State) (r : Gpr) (v : Word) : (s.setGpr r v).queue = s.queue := rfl
@[simp] theorem State.setGpr_fire (s : State) (r : Gpr) (v : Word) : (s.setGpr r v).fire = s.fire := rfl
@[simp] theorem State.setGpr_mem (s : State) (r : Gpr) (v : Word) : (s.setGpr r v).mem = s.mem := rfl
@[simp] theorem State.setGpr_devices (s : State) (r : Gpr) (v : Word) : (s.setGpr r v).devices = s.devices := rfl
@[simp] theorem State.setGpr_cyc (s : State) (r : Gpr) (v : Word) : (s.setGpr r v).cyc = s.cyc := rfl
@[simp] theorem State.setGpr_image (s : State) (r : Gpr) (v : Word) : (s.setGpr r v).image = s.image := rfl
@[simp] theorem State.setGpr_params (s : State) (r : Gpr) (v : Word) : (s.setGpr r v).params = s.params := rfl

/-! ### setPc -/

@[simp] theorem State.setPc_gpr (s : State) (v : Word) : (s.setPc v).gpr = s.gpr := rfl
@[simp] theorem State.setPc_pc (s : State) (v : Word) : (s.setPc v).pc = v := rfl
@[simp] theorem State.setPc_sp (s : State) (v : Word) : (s.setPc v).sp = s.sp := rfl
@[simp] theorem State.setPc_ex (s : State) (v : Word) : (s.setPc v).ex = s.ex := rfl
@[simp] theorem State.setPc_ia (s : State) (v : Word) : (s.setPc v).ia = s.ia := rfl
@[simp] theorem State.setPc_iaq (s : State) (v : Word) : (s.setPc v).iaq = s.iaq := rfl
@[simp] theorem State.setPc_queue (s : State) (v : Word) : (s.setPc v).queue = s.queue := rfl
@[simp] theorem State.setPc_fire (s : State) (v : Word) : (s.setPc v).fire = s.fire := rfl
@[simp] theorem State.setPc_mem (s : State) (v : Word) : (s.setPc v).mem = s.mem := rfl
@[simp] theorem State.setPc_devices (s : State) (v : Word) : (s.setPc v).devices = s.devices := rfl
@[simp] theorem State.setPc_cyc (s : State) (v : Word) : (s.setPc v).cyc = s.cyc := rfl
@[simp] theorem State.setPc_image (s : State) (v : Word) : (s.setPc v).image = s.image := rfl
@[simp] theorem State.setPc_params (s : State) (v : Word) : (s.setPc v).params = s.params := rfl

/-! ### setSp -/

@[simp] theorem State.setSp_gpr (s : State) (v : Word) : (s.setSp v).gpr = s.gpr := rfl
@[simp] theorem State.setSp_pc (s : State) (v : Word) : (s.setSp v).pc = s.pc := rfl
@[simp] theorem State.setSp_sp (s : State) (v : Word) : (s.setSp v).sp = v := rfl
@[simp] theorem State.setSp_ex (s : State) (v : Word) : (s.setSp v).ex = s.ex := rfl
@[simp] theorem State.setSp_ia (s : State) (v : Word) : (s.setSp v).ia = s.ia := rfl
@[simp] theorem State.setSp_iaq (s : State) (v : Word) : (s.setSp v).iaq = s.iaq := rfl
@[simp] theorem State.setSp_queue (s : State) (v : Word) : (s.setSp v).queue = s.queue := rfl
@[simp] theorem State.setSp_fire (s : State) (v : Word) : (s.setSp v).fire = s.fire := rfl
@[simp] theorem State.setSp_mem (s : State) (v : Word) : (s.setSp v).mem = s.mem := rfl
@[simp] theorem State.setSp_devices (s : State) (v : Word) : (s.setSp v).devices = s.devices := rfl
@[simp] theorem State.setSp_cyc (s : State) (v : Word) : (s.setSp v).cyc = s.cyc := rfl
@[simp] theorem State.setSp_image (s : State) (v : Word) : (s.setSp v).image = s.image := rfl
@[simp] theorem State.setSp_params (s : State) (v : Word) : (s.setSp v).params = s.params := rfl

/-! ### setEx -/

@[simp] theorem State.setEx_gpr (s : State) (v : Word) : (s.setEx v).gpr = s.gpr := rfl
@[simp] theorem State.setEx_pc (s : State) (v : Word) : (s.setEx v).pc = s.pc := rfl
@[simp] theorem State.setEx_sp (s : State) (v : Word) : (s.setEx v).sp = s.sp := rfl
@[simp] theorem State.setEx_ex (s : State) (v : Word) : (s.setEx v).ex = v := rfl
@[simp] theorem State.setEx_ia (s : State) (v : Word) : (s.setEx v).ia = s.ia := rfl
@[simp] theorem State.setEx_iaq (s : State) (v : Word) : (s.setEx v).iaq = s.iaq := rfl
@[simp] theorem State.setEx_queue (s : State) (v : Word) : (s.setEx v).queue = s.queue := rfl
@[simp] theorem State.setEx_fire (s : State) (v : Word) : (s.setEx v).fire = s.fire := rfl
@[simp] theorem State.setEx_mem (s : State) (v : Word) : (s.setEx v).mem = s.mem := rfl
@[simp] theorem State.setEx_devices (s : State) (v : Word) : (s.setEx v).devices = s.devices := rfl
@[simp] theorem State.setEx_cyc (s : State) (v : Word) : (s.setEx v).cyc = s.cyc := rfl
@[simp] theorem State.setEx_image (s : State) (v : Word) : (s.setEx v).image = s.image := rfl
@[simp] theorem State.setEx_params (s : State) (v : Word) : (s.setEx v).params = s.params := rfl

/-! ### setIa -/

@[simp] theorem State.setIa_gpr (s : State) (v : Word) : (s.setIa v).gpr = s.gpr := rfl
@[simp] theorem State.setIa_pc (s : State) (v : Word) : (s.setIa v).pc = s.pc := rfl
@[simp] theorem State.setIa_sp (s : State) (v : Word) : (s.setIa v).sp = s.sp := rfl
@[simp] theorem State.setIa_ex (s : State) (v : Word) : (s.setIa v).ex = s.ex := rfl
@[simp] theorem State.setIa_ia (s : State) (v : Word) : (s.setIa v).ia = v := rfl
@[simp] theorem State.setIa_iaq (s : State) (v : Word) : (s.setIa v).iaq = s.iaq := rfl
@[simp] theorem State.setIa_queue (s : State) (v : Word) : (s.setIa v).queue = s.queue := rfl
@[simp] theorem State.setIa_fire (s : State) (v : Word) : (s.setIa v).fire = s.fire := rfl
@[simp] theorem State.setIa_mem (s : State) (v : Word) : (s.setIa v).mem = s.mem := rfl
@[simp] theorem State.setIa_devices (s : State) (v : Word) : (s.setIa v).devices = s.devices := rfl
@[simp] theorem State.setIa_cyc (s : State) (v : Word) : (s.setIa v).cyc = s.cyc := rfl
@[simp] theorem State.setIa_image (s : State) (v : Word) : (s.setIa v).image = s.image := rfl
@[simp] theorem State.setIa_params (s : State) (v : Word) : (s.setIa v).params = s.params := rfl

/-! ### setIaq -/

@[simp] theorem State.setIaq_gpr (s : State) (b : Bool) : (s.setIaq b).gpr = s.gpr := rfl
@[simp] theorem State.setIaq_pc (s : State) (b : Bool) : (s.setIaq b).pc = s.pc := rfl
@[simp] theorem State.setIaq_sp (s : State) (b : Bool) : (s.setIaq b).sp = s.sp := rfl
@[simp] theorem State.setIaq_ex (s : State) (b : Bool) : (s.setIaq b).ex = s.ex := rfl
@[simp] theorem State.setIaq_ia (s : State) (b : Bool) : (s.setIaq b).ia = s.ia := rfl
@[simp] theorem State.setIaq_iaq (s : State) (b : Bool) : (s.setIaq b).iaq = b := rfl
@[simp] theorem State.setIaq_queue (s : State) (b : Bool) : (s.setIaq b).queue = s.queue := rfl
@[simp] theorem State.setIaq_fire (s : State) (b : Bool) : (s.setIaq b).fire = s.fire := rfl
@[simp] theorem State.setIaq_mem (s : State) (b : Bool) : (s.setIaq b).mem = s.mem := rfl
@[simp] theorem State.setIaq_devices (s : State) (b : Bool) : (s.setIaq b).devices = s.devices := rfl
@[simp] theorem State.setIaq_cyc (s : State) (b : Bool) : (s.setIaq b).cyc = s.cyc := rfl
@[simp] theorem State.setIaq_image (s : State) (b : Bool) : (s.setIaq b).image = s.image := rfl
@[simp] theorem State.setIaq_params (s : State) (b : Bool) : (s.setIaq b).params = s.params := rfl

/-! ### setQueue -/

@[simp] theorem State.setQueue_gpr (s : State) (q : List Word) : (s.setQueue q).gpr = s.gpr := rfl
@[simp] theorem State.setQueue_pc (s : State) (q : List Word) : (s.setQueue q).pc = s.pc := rfl
@[simp] theorem State.setQueue_sp (s : State) (q : List Word) : (s.setQueue q).sp = s.sp := rfl
@[simp] theorem State.setQueue_ex (s : State) (q : List Word) : (s.setQueue q).ex = s.ex := rfl
@[simp] theorem State.setQueue_ia (s : State) (q : List Word) : (s.setQueue q).ia = s.ia := rfl
@[simp] theorem State.setQueue_iaq (s : State) (q : List Word) : (s.setQueue q).iaq = s.iaq := rfl
@[simp] theorem State.setQueue_queue (s : State) (q : List Word) : (s.setQueue q).queue = q := rfl
@[simp] theorem State.setQueue_fire (s : State) (q : List Word) : (s.setQueue q).fire = s.fire := rfl
@[simp] theorem State.setQueue_mem (s : State) (q : List Word) : (s.setQueue q).mem = s.mem := rfl
@[simp] theorem State.setQueue_devices (s : State) (q : List Word) : (s.setQueue q).devices = s.devices := rfl
@[simp] theorem State.setQueue_cyc (s : State) (q : List Word) : (s.setQueue q).cyc = s.cyc := rfl
@[simp] theorem State.setQueue_image (s : State) (q : List Word) : (s.setQueue q).image = s.image := rfl
@[simp] theorem State.setQueue_params (s : State) (q : List Word) : (s.setQueue q).params = s.params := rfl

/-! ### setFire -/

@[simp] theorem State.setFire_gpr (s : State) (f : Option Fire) : (s.setFire f).gpr = s.gpr := rfl
@[simp] theorem State.setFire_pc (s : State) (f : Option Fire) : (s.setFire f).pc = s.pc := rfl
@[simp] theorem State.setFire_sp (s : State) (f : Option Fire) : (s.setFire f).sp = s.sp := rfl
@[simp] theorem State.setFire_ex (s : State) (f : Option Fire) : (s.setFire f).ex = s.ex := rfl
@[simp] theorem State.setFire_ia (s : State) (f : Option Fire) : (s.setFire f).ia = s.ia := rfl
@[simp] theorem State.setFire_iaq (s : State) (f : Option Fire) : (s.setFire f).iaq = s.iaq := rfl
@[simp] theorem State.setFire_queue (s : State) (f : Option Fire) : (s.setFire f).queue = s.queue := rfl
@[simp] theorem State.setFire_fire (s : State) (f : Option Fire) : (s.setFire f).fire = f := rfl
@[simp] theorem State.setFire_mem (s : State) (f : Option Fire) : (s.setFire f).mem = s.mem := rfl
@[simp] theorem State.setFire_devices (s : State) (f : Option Fire) : (s.setFire f).devices = s.devices := rfl
@[simp] theorem State.setFire_cyc (s : State) (f : Option Fire) : (s.setFire f).cyc = s.cyc := rfl
@[simp] theorem State.setFire_image (s : State) (f : Option Fire) : (s.setFire f).image = s.image := rfl
@[simp] theorem State.setFire_params (s : State) (f : Option Fire) : (s.setFire f).params = s.params := rfl

/-! ### writeMem -/

@[simp] theorem State.writeMem_gpr (s : State) (a v : Word) : (s.writeMem a v).gpr = s.gpr := rfl
@[simp] theorem State.writeMem_pc (s : State) (a v : Word) : (s.writeMem a v).pc = s.pc := rfl
@[simp] theorem State.writeMem_sp (s : State) (a v : Word) : (s.writeMem a v).sp = s.sp := rfl
@[simp] theorem State.writeMem_ex (s : State) (a v : Word) : (s.writeMem a v).ex = s.ex := rfl
@[simp] theorem State.writeMem_ia (s : State) (a v : Word) : (s.writeMem a v).ia = s.ia := rfl
@[simp] theorem State.writeMem_iaq (s : State) (a v : Word) : (s.writeMem a v).iaq = s.iaq := rfl
@[simp] theorem State.writeMem_queue (s : State) (a v : Word) : (s.writeMem a v).queue = s.queue := rfl
@[simp] theorem State.writeMem_fire (s : State) (a v : Word) : (s.writeMem a v).fire = s.fire := rfl
@[simp] theorem State.writeMem_mem (s : State) (a v : Word) : (s.writeMem a v).mem = Memory.write s.mem a.toNat v := rfl
@[simp] theorem State.writeMem_devices (s : State) (a v : Word) : (s.writeMem a v).devices = s.devices := rfl
@[simp] theorem State.writeMem_cyc (s : State) (a v : Word) : (s.writeMem a v).cyc = s.cyc := rfl
@[simp] theorem State.writeMem_image (s : State) (a v : Word) : (s.writeMem a v).image = s.image := rfl
@[simp] theorem State.writeMem_params (s : State) (a v : Word) : (s.writeMem a v).params = s.params := rfl

/-! ### setBody -/

@[simp] theorem State.setBody_gpr (s : State) (i : Nat) (b : DeviceBody) : (s.setBody i b).gpr = s.gpr := rfl
@[simp] theorem State.setBody_pc (s : State) (i : Nat) (b : DeviceBody) : (s.setBody i b).pc = s.pc := rfl
@[simp] theorem State.setBody_sp (s : State) (i : Nat) (b : DeviceBody) : (s.setBody i b).sp = s.sp := rfl
@[simp] theorem State.setBody_ex (s : State) (i : Nat) (b : DeviceBody) : (s.setBody i b).ex = s.ex := rfl
@[simp] theorem State.setBody_ia (s : State) (i : Nat) (b : DeviceBody) : (s.setBody i b).ia = s.ia := rfl
@[simp] theorem State.setBody_iaq (s : State) (i : Nat) (b : DeviceBody) : (s.setBody i b).iaq = s.iaq := rfl
@[simp] theorem State.setBody_queue (s : State) (i : Nat) (b : DeviceBody) : (s.setBody i b).queue = s.queue := rfl
@[simp] theorem State.setBody_fire (s : State) (i : Nat) (b : DeviceBody) : (s.setBody i b).fire = s.fire := rfl
@[simp] theorem State.setBody_mem (s : State) (i : Nat) (b : DeviceBody) : (s.setBody i b).mem = s.mem := rfl
@[simp] theorem State.setBody_devices (s : State) (i : Nat) (b : DeviceBody) : (s.setBody i b).devices = putBody s.devices i b := rfl
@[simp] theorem State.setBody_cyc (s : State) (i : Nat) (b : DeviceBody) : (s.setBody i b).cyc = s.cyc := rfl
@[simp] theorem State.setBody_image (s : State) (i : Nat) (b : DeviceBody) : (s.setBody i b).image = s.image := rfl
@[simp] theorem State.setBody_params (s : State) (i : Nat) (b : DeviceBody) : (s.setBody i b).params = s.params := rfl

/-! ### addCycles -/

@[simp] theorem State.addCycles_gpr (s : State) (n : Nat) : (s.addCycles n).gpr = s.gpr := rfl
@[simp] theorem State.addCycles_pc (s : State) (n : Nat) : (s.addCycles n).pc = s.pc := rfl
@[simp] theorem State.addCycles_sp (s : State) (n : Nat) : (s.addCycles n).sp = s.sp := rfl
@[simp] theorem State.addCycles_ex (s : State) (n : Nat) : (s.addCycles n).ex = s.ex := rfl
@[simp] theorem State.addCycles_ia (s : State) (n : Nat) : (s.addCycles n).ia = s.ia := rfl
@[simp] theorem State.addCycles_iaq (s : State) (n : Nat) : (s.addCycles n).iaq = s.iaq := rfl
@[simp] theorem State.addCycles_queue (s : State) (n : Nat) : (s.addCycles n).queue = s.queue := rfl
@[simp] theorem State.addCycles_fire (s : State) (n : Nat) : (s.addCycles n).fire = s.fire := rfl
@[simp] theorem State.addCycles_mem (s : State) (n : Nat) : (s.addCycles n).mem = s.mem := rfl
@[simp] theorem State.addCycles_devices (s : State) (n : Nat) : (s.addCycles n).devices = s.devices := rfl
@[simp] theorem State.addCycles_cyc (s : State) (n : Nat) : (s.addCycles n).cyc = s.cyc + n := rfl
@[simp] theorem State.addCycles_image (s : State) (n : Nat) : (s.addCycles n).image = s.image := rfl
@[simp] theorem State.addCycles_params (s : State) (n : Nat) : (s.addCycles n).params = s.params := rfl

/-! ### Reading after an update -/

@[simp] theorem Gprs.get_put_self (g : Gprs) (r : Gpr) (v : Word) : (g.put r v).get r = v := by
  cases r <;> rfl

theorem Gprs.get_put_ne (g : Gprs) {r q : Gpr} (v : Word) (h : q ≠ r) : (g.put r v).get q = g.get q := by
  cases r <;> cases q <;> first | rfl | exact absurd rfl h

theorem Gprs.get_put (g : Gprs) (r q : Gpr) (v : Word) :
    (g.put r v).get q = if q = r then v else g.get q := by
  by_cases h : q = r
  · subst h; simp
  · simp [h, Gprs.get_put_ne g v h]

theorem Gprs.ext_get {g h : Gprs} (e : ∀ r, g.get r = h.get r) : g = h := by
  have ha := e .a
  have hb := e .b
  have hc := e .c
  have hx := e .x
  have hy := e .y
  have hz := e .z
  have hi := e .i
  have hj := e .j
  simp only [Gprs.get] at ha hb hc hx hy hz hi hj
  cases g; cases h; simp_all

@[simp] theorem State.setGpr_readMem (s : State) (r : Gpr) (v : Word) (x : Word) : (s.setGpr r v).readMem x = s.readMem x := rfl
@[simp] theorem State.setPc_readMem (s : State) (v : Word) (x : Word) : (s.setPc v).readMem x = s.readMem x := rfl
@[simp] theorem State.setSp_readMem (s : State) (v : Word) (x : Word) : (s.setSp v).readMem x = s.readMem x := rfl
@[simp] theorem State.setEx_readMem (s : State) (v : Word) (x : Word) : (s.setEx v).readMem x = s.readMem x := rfl
@[simp] theorem State.setIa_readMem (s : State) (v : Word) (x : Word) : (s.setIa v).readMem x = s.readMem x := rfl
@[simp] theorem State.setIaq_readMem (s : State) (b : Bool) (x : Word) : (s.setIaq b).readMem x = s.readMem x := rfl
@[simp] theorem State.setQueue_readMem (s : State) (q : List Word) (x : Word) : (s.setQueue q).readMem x = s.readMem x := rfl
@[simp] theorem State.setFire_readMem (s : State) (f : Option Fire) (x : Word) : (s.setFire f).readMem x = s.readMem x := rfl
@[simp] theorem State.setBody_readMem (s : State) (i : Nat) (b : DeviceBody) (x : Word) : (s.setBody i b).readMem x = s.readMem x := rfl
@[simp] theorem State.addCycles_readMem (s : State) (n : Nat) (x : Word) : (s.addCycles n).readMem x = s.readMem x := rfl
@[simp] theorem State.setGpr_bodyAt (s : State) (r : Gpr) (v : Word) (k : Nat) : (s.setGpr r v).bodyAt k = s.bodyAt k := rfl
@[simp] theorem State.setPc_bodyAt (s : State) (v : Word) (k : Nat) : (s.setPc v).bodyAt k = s.bodyAt k := rfl
@[simp] theorem State.setSp_bodyAt (s : State) (v : Word) (k : Nat) : (s.setSp v).bodyAt k = s.bodyAt k := rfl
@[simp] theorem State.setEx_bodyAt (s : State) (v : Word) (k : Nat) : (s.setEx v).bodyAt k = s.bodyAt k := rfl
@[simp] theorem State.setIa_bodyAt (s : State) (v : Word) (k : Nat) : (s.setIa v).bodyAt k = s.bodyAt k := rfl
@[simp] theorem State.setIaq_bodyAt (s : State) (b : Bool) (k : Nat) : (s.setIaq b).bodyAt k = s.bodyAt k := rfl
@[simp] theorem State.setQueue_bodyAt (s : State) (q : List Word) (k : Nat) : (s.setQueue q).bodyAt k = s.bodyAt k := rfl
@[simp] theorem State.setFire_bodyAt (s : State) (f : Option Fire) (k : Nat) : (s.setFire f).bodyAt k = s.bodyAt k := rfl
@[simp] theorem State.writeMem_bodyAt (s : State) (a v : Word) (k : Nat) : (s.writeMem a v).bodyAt k = s.bodyAt k := rfl
@[simp] theorem State.addCycles_bodyAt (s : State) (n : Nat) (k : Nat) : (s.addCycles n).bodyAt k = s.bodyAt k := rfl

end Sys2Proof.Machine
end

