-- ==== Sys2Proof/Laws/Memory.lean ====
section
/-! SUPPORT. Memory: a read after a write, and the canonical form that every memory operation keeps. -/

namespace Sys2Proof.Machine

/-! ### Reading -/

theorem Memory.read_write_other (m : Memory) {a b : Nat} (v : Word) (h : b ≠ a) :
    Memory.read (Memory.write m a v) b = Memory.read m b := by
  induction m with
  | nil => by_cases hv : v = unlistedWord <;> simp [Memory.write, Memory.read, hv, h]
  | cons c m ih =>
    obtain ⟨k, w⟩ := c
    by_cases h1 : a < k
    · by_cases hv : v = unlistedWord <;> simp [Memory.write, Memory.read, h1, hv, h]
    · by_cases h2 : a = k
      · subst h2
        by_cases hv : v = unlistedWord <;> simp [Memory.write, Memory.read, hv, h]
      · simp [Memory.write, Memory.read, h1, h2, ih]

theorem Memory.read_of_wfFrom_lt {lo bound : Nat} {m : Memory} (h : Memory.wfFrom lo bound m) {a : Nat}
    (ha : a < lo) : Memory.read m a = unlistedWord := by
  induction m generalizing lo with
  | nil => rfl
  | cons c m ih =>
    obtain ⟨k, w⟩ := c
    simp only [Memory.wfFrom, Bool.and_eq_true, decide_eq_true_eq] at h
    have hk : a ≠ k := by omega
    simp [Memory.read, hk, ih h.2 (by omega)]

theorem Memory.read_write_self_from {lo bound : Nat} {m : Memory} (h : Memory.wfFrom lo bound m) (a : Nat)
    (v : Word) : Memory.read (Memory.write m a v) a = v := by
  induction m generalizing lo with
  | nil => by_cases hv : v = unlistedWord <;> simp [Memory.write, Memory.read, hv]
  | cons c m ih =>
    obtain ⟨k, w⟩ := c
    have h' := h
    simp only [Memory.wfFrom, Bool.and_eq_true, decide_eq_true_eq] at h'
    by_cases h1 : a < k
    · by_cases hv : v = unlistedWord
      · have hk : a ≠ k := by omega
        simp [Memory.write, Memory.read, h1, hv, hk, Memory.read_of_wfFrom_lt h'.2 (show a < k + 1 by omega)]
      · simp [Memory.write, Memory.read, h1, hv]
    · by_cases h2 : a = k
      · subst h2
        by_cases hv : v = unlistedWord
        · simp [Memory.write, hv, Memory.read_of_wfFrom_lt h'.2 (show a < a + 1 by omega)]
        · simp [Memory.write, Memory.read, hv]
      · simp [Memory.write, Memory.read, h1, h2, ih h'.2]

/-- A read after a write to the same address gives the word written. -/
theorem Memory.read_write_self {bound : Nat} {m : Memory} (h : Memory.wf bound m) (a : Nat) (v : Word) :
    Memory.read (Memory.write m a v) a = v :=
  Memory.read_write_self_from h a v

/-- Outside the canonical form too, a word other than the unlisted one is read back. -/
theorem Memory.read_write_self_of_ne (m : Memory) (a : Nat) {v : Word} (h : v ≠ unlistedWord) :
    Memory.read (Memory.write m a v) a = v := by
  induction m with
  | nil => simp [Memory.write, Memory.read, h]
  | cons c m ih =>
    obtain ⟨k, w⟩ := c
    by_cases h1 : a < k
    · simp [Memory.write, Memory.read, h1, h]
    · by_cases h2 : a = k
      · subst h2; simp [Memory.write, Memory.read, h]
      · simp [Memory.write, Memory.read, h1, h2, ih]

/-! ### The canonical form -/

theorem Memory.wfFrom_mono {lo lo' bound : Nat} {m : Memory} (h : Memory.wfFrom lo bound m) (hl : lo' ≤ lo) :
    Memory.wfFrom lo' bound m := by
  cases m with
  | nil => rfl
  | cons c m =>
    obtain ⟨k, w⟩ := c
    simp only [Memory.wfFrom, Bool.and_eq_true, decide_eq_true_eq] at h ⊢
    exact ⟨⟨⟨by omega, h.1.1.2⟩, h.1.2⟩, h.2⟩

theorem Memory.wfFrom_write {lo bound : Nat} {m : Memory} (h : Memory.wfFrom lo bound m) {a : Nat} (v : Word)
    (hl : lo ≤ a) (hb : a < bound) : Memory.wfFrom lo bound (Memory.write m a v) := by
  induction m generalizing lo with
  | nil =>
    by_cases hv : v = unlistedWord
    · simp [Memory.write, hv, Memory.wfFrom]
    · simp [Memory.write, hv, Memory.wfFrom, hl, hb]
  | cons c m ih =>
    obtain ⟨k, w⟩ := c
    have h' := h
    simp only [Memory.wfFrom, Bool.and_eq_true, decide_eq_true_eq] at h'
    by_cases h1 : a < k
    · by_cases hv : v = unlistedWord
      · simpa [Memory.write, h1, hv] using h
      · simp only [Memory.write, h1, hv, if_true, if_false, Memory.wfFrom, Bool.and_eq_true, decide_eq_true_eq]
        refine ⟨⟨⟨hl, hb⟩, by simpa using hv⟩, ⟨⟨by omega, h'.1.1.2⟩, h'.1.2⟩, h'.2⟩
    · by_cases h2 : a = k
      · subst h2
        by_cases hv : v = unlistedWord
        · simpa [Memory.write, hv] using Memory.wfFrom_mono h'.2 (show lo ≤ a + 1 by omega)
        · simp only [Memory.write, lt_irrefl, if_false, if_true, hv, Memory.wfFrom, Bool.and_eq_true,
            decide_eq_true_eq]
          exact ⟨⟨⟨hl, hb⟩, by simpa using hv⟩, h'.2⟩
      · simp only [Memory.write, h1, h2, if_false, Memory.wfFrom, Bool.and_eq_true, decide_eq_true_eq]
        exact ⟨⟨h'.1.1, h'.1.2⟩, ih h'.2 (by omega)⟩

/-- A write keeps the canonical form. -/
theorem Memory.wf_write {bound : Nat} {m : Memory} (h : Memory.wf bound m) {a : Nat} (v : Word)
    (hb : a < bound) : Memory.wf bound (Memory.write m a v) :=
  Memory.wfFrom_write h v (Nat.zero_le a) hb

theorem Memory.wfFrom_ofWordsFrom (ws : List Word) (base bound : Nat) (h : base + ws.length ≤ bound) :
    Memory.wfFrom base bound (Memory.ofWordsFrom base ws) := by
  induction ws generalizing base with
  | nil => rfl
  | cons w ws ih =>
    simp only [List.length_cons] at h
    have hr := ih (base + 1) (by omega)
    by_cases hw : w = unlistedWord
    · simpa [Memory.ofWordsFrom, hw] using Memory.wfFrom_mono hr (Nat.le_succ base)
    · simp only [Memory.ofWordsFrom, hw, if_false, Memory.wfFrom, Bool.and_eq_true, decide_eq_true_eq]
      exact ⟨⟨⟨le_refl _, by omega⟩, by simpa using hw⟩, hr⟩

/-- An image that fits is installed in canonical form. -/
theorem Memory.wf_ofWords (ws : List Word) (bound : Nat) (h : ws.length ≤ bound) :
    Memory.wf bound (Memory.ofWordsFrom 0 ws) :=
  Memory.wfFrom_ofWordsFrom ws 0 bound (by simpa using h)

/-- What an installed image reads as: its words from `base` on, and the unlisted word elsewhere. -/
theorem Memory.read_ofWordsFrom (ws : List Word) (base a : Nat) :
    Memory.read (Memory.ofWordsFrom base ws) a =
      if base ≤ a then ws.getD (a - base) unlistedWord else unlistedWord := by
  induction ws generalizing base with
  | nil => simp [Memory.ofWordsFrom, Memory.read]
  | cons w ws ih =>
    by_cases ha : a = base
    · subst ha
      by_cases hw : w = unlistedWord
      · simp [Memory.ofWordsFrom, hw, ih]
      · simp [Memory.ofWordsFrom, hw, Memory.read]
    · by_cases hb : base ≤ a
      · obtain ⟨k, rfl⟩ : ∃ k, a = base + (k + 1) := ⟨a - base - 1, by omega⟩
        have e1 : base + 1 ≤ base + (k + 1) := by omega
        have e2 : base + (k + 1) - (base + 1) = k := by omega
        have e3 : base + (k + 1) - base = k + 1 := by omega
        by_cases hw : w = unlistedWord
        · simp [Memory.ofWordsFrom, hw, ih, e1, e2, e3]
        · simp [Memory.ofWordsFrom, hw, ih, e1, e2, e3, Memory.read]
      · have e1 : ¬ base + 1 ≤ a := by omega
        by_cases hw : w = unlistedWord
        · simp [Memory.ofWordsFrom, hw, ih, e1, hb]
        · simp [Memory.ofWordsFrom, hw, ih, e1, hb, Memory.read, ha]

/-! ### Main memory, by word address -/

theorem State.readMem_writeMem_other (s : State) {a b : Word} (v : Word) (h : b ≠ a) :
    (s.writeMem a v).readMem b = s.readMem b :=
  Memory.read_write_other s.mem v fun e => h (BitVec.eq_of_toNat_eq e)

theorem State.readMem_writeMem_self (s : State) (h : Memory.wf memWords s.mem) (a v : Word) :
    (s.writeMem a v).readMem a = v :=
  Memory.read_write_self h a.toNat v

/-- Every word address is an address of main memory, so a store keeps the canonical form. -/
theorem State.wf_writeMem (s : State) (h : Memory.wf memWords s.mem) (a v : Word) :
    Memory.wf memWords (s.writeMem a v).mem :=
  Memory.wf_write h v (by have := a.isLt; simpa [memWords] using this)

end Sys2Proof.Machine
end

