-- ==== Sys2Proof/Laws/Operands.lean ====
section
/-! SUPPORT. What resolving an operand and writing one can do to the state (R85 to R97). -/

namespace Sys2Proof.Machine

/-! ### Resolution -/

@[simp] theorem memRef_snd (a : Word) (s : State) : (memRef a s).2 = s := rfl

@[simp] theorem memRef_fst (a : Word) (s : State) : (memRef a s).1 = ⟨.mem a, s.readMem a⟩ := rfl

/-- Resolution changes PC and SP only: PC by the next words, SP by a PUSH or POP (R83, R84, R88). -/
theorem resolve_state (o : Operand) (pos : Pos) (s : State) :
    (resolve o pos s).2 =
      { s with
        pc := s.pc + BitVec.ofNat 16 (nextWords o)
        sp := if o = .pushPop then (match pos with | .src => s.sp + 1 | .dst => s.sp - 1) else s.sp } := by
  cases o <;> cases pos <;> simp [resolve, fetchNext, nextWords, State.setPc, State.setSp]

@[simp] theorem resolve_gpr (o : Operand) (pos : Pos) (s : State) : (resolve o pos s).2.gpr = s.gpr := by
  simp [resolve_state]

@[simp] theorem resolve_ex (o : Operand) (pos : Pos) (s : State) : (resolve o pos s).2.ex = s.ex := by
  simp [resolve_state]

@[simp] theorem resolve_ia (o : Operand) (pos : Pos) (s : State) : (resolve o pos s).2.ia = s.ia := by
  simp [resolve_state]

@[simp] theorem resolve_iaq (o : Operand) (pos : Pos) (s : State) : (resolve o pos s).2.iaq = s.iaq := by
  simp [resolve_state]

@[simp] theorem resolve_queue (o : Operand) (pos : Pos) (s : State) : (resolve o pos s).2.queue = s.queue := by
  simp [resolve_state]

@[simp] theorem resolve_fire (o : Operand) (pos : Pos) (s : State) : (resolve o pos s).2.fire = s.fire := by
  simp [resolve_state]

@[simp] theorem resolve_mem (o : Operand) (pos : Pos) (s : State) : (resolve o pos s).2.mem = s.mem := by
  simp [resolve_state]

@[simp] theorem resolve_readMem (o : Operand) (pos : Pos) (s : State) (x : Word) :
    (resolve o pos s).2.readMem x = s.readMem x := by
  simp [State.readMem]

@[simp] theorem resolve_devices (o : Operand) (pos : Pos) (s : State) :
    (resolve o pos s).2.devices = s.devices := by
  simp [resolve_state]

@[simp] theorem resolve_cyc (o : Operand) (pos : Pos) (s : State) : (resolve o pos s).2.cyc = s.cyc := by
  simp [resolve_state]

@[simp] theorem resolve_image (o : Operand) (pos : Pos) (s : State) : (resolve o pos s).2.image = s.image := by
  simp [resolve_state]

@[simp] theorem resolve_params (o : Operand) (pos : Pos) (s : State) : (resolve o pos s).2.params = s.params := by
  simp [resolve_state]

@[simp] theorem resolve_pc (o : Operand) (pos : Pos) (s : State) :
    (resolve o pos s).2.pc = s.pc + BitVec.ofNat 16 (nextWords o) := by
  simp [resolve_state]

theorem resolve_sp_of_ne {o : Operand} (h : o ≠ .pushPop) (pos : Pos) (s : State) :
    (resolve o pos s).2.sp = s.sp := by
  simp [resolve_state, h]

/-- A reference to memory captured the word at its address; no resolution writes memory (R95). -/
theorem resolve_mem_value {o : Operand} {pos : Pos} {s : State} {a : Word}
    (h : (resolve o pos s).1.loc = .mem a) : (resolve o pos s).1.u = s.readMem a := by
  cases o <;> cases pos <;> simp_all [resolve, fetchNext]

/-! ### Writing -/

/-- A write to memory at an address, and to nothing else, or to one register, or to nothing (R96). -/
theorem writeRef_eq (r : Ref) (v : Word) (s : State) :
    writeRef r v s =
      match r.loc with
      | .reg (.gpr g) => s.setGpr g v
      | .reg .sp => s.setSp v
      | .reg .pc => s.setPc v
      | .reg .ex => s.setEx v
      | .mem addr => s.writeMem addr v
      | .lit => s := rfl

@[simp] theorem writeRef_ia (r : Ref) (v : Word) (s : State) : (writeRef r v s).ia = s.ia := by
  unfold writeRef; split <;> rfl

@[simp] theorem writeRef_iaq (r : Ref) (v : Word) (s : State) : (writeRef r v s).iaq = s.iaq := by
  unfold writeRef; split <;> rfl

@[simp] theorem writeRef_queue (r : Ref) (v : Word) (s : State) : (writeRef r v s).queue = s.queue := by
  unfold writeRef; split <;> rfl

@[simp] theorem writeRef_fire (r : Ref) (v : Word) (s : State) : (writeRef r v s).fire = s.fire := by
  unfold writeRef; split <;> rfl

@[simp] theorem writeRef_devices (r : Ref) (v : Word) (s : State) : (writeRef r v s).devices = s.devices := by
  unfold writeRef; split <;> rfl

@[simp] theorem writeRef_cyc (r : Ref) (v : Word) (s : State) : (writeRef r v s).cyc = s.cyc := by
  unfold writeRef; split <;> rfl

@[simp] theorem writeRef_image (r : Ref) (v : Word) (s : State) : (writeRef r v s).image = s.image := by
  unfold writeRef; split <;> rfl

@[simp] theorem writeRef_params (r : Ref) (v : Word) (s : State) : (writeRef r v s).params = s.params := by
  unfold writeRef; split <;> rfl

theorem writeRef_gpr_of_ne (r : Ref) (v : Word) (s : State) (g : Gpr) (h : r.loc ≠ .reg (.gpr g)) :
    (writeRef r v s).gpr.get g = s.gpr.get g := by
  unfold writeRef
  split <;> simp_all
  rename_i q _
  exact Gprs.get_put_ne _ _ fun e => h e.symm

theorem writeRef_sp_of_ne (r : Ref) (v : Word) (s : State) (h : r.loc ≠ .reg .sp) :
    (writeRef r v s).sp = s.sp := by
  unfold writeRef; split <;> simp_all

theorem writeRef_ex_of_ne (r : Ref) (v : Word) (s : State) (h : r.loc ≠ .reg .ex) :
    (writeRef r v s).ex = s.ex := by
  unfold writeRef; split <;> simp_all

theorem writeRef_pc_of_ne (r : Ref) (v : Word) (s : State) (h : r.loc ≠ .reg .pc) :
    (writeRef r v s).pc = s.pc := by
  unfold writeRef; split <;> simp_all

theorem writeRef_readMem_of_ne (r : Ref) (v : Word) (s : State) (x : Word) (h : r.loc ≠ .mem x) :
    (writeRef r v s).readMem x = s.readMem x := by
  unfold writeRef
  split <;> simp_all
  exact State.readMem_writeMem_other _ _ fun e => h e.symm

theorem writeRef_wf (r : Ref) (v : Word) (s : State) (h : Memory.wf memWords s.mem) :
    Memory.wf memWords (writeRef r v s).mem := by
  unfold writeRef
  split <;> first | exact h | exact State.wf_writeMem s h _ _

/-! ### A result with EX (D15) -/

@[simp] theorem writeValEx_ia (r : Ref) (x : ValEx) (s : State) : (writeValEx r x s).ia = s.ia := by
  unfold writeValEx; split <;> simp

@[simp] theorem writeValEx_iaq (r : Ref) (x : ValEx) (s : State) : (writeValEx r x s).iaq = s.iaq := by
  unfold writeValEx; split <;> simp

@[simp] theorem writeValEx_queue (r : Ref) (x : ValEx) (s : State) : (writeValEx r x s).queue = s.queue := by
  unfold writeValEx; split <;> simp

@[simp] theorem writeValEx_fire (r : Ref) (x : ValEx) (s : State) : (writeValEx r x s).fire = s.fire := by
  unfold writeValEx; split <;> simp

@[simp] theorem writeValEx_devices (r : Ref) (x : ValEx) (s : State) :
    (writeValEx r x s).devices = s.devices := by
  unfold writeValEx; split <;> simp

@[simp] theorem writeValEx_cyc (r : Ref) (x : ValEx) (s : State) : (writeValEx r x s).cyc = s.cyc := by
  unfold writeValEx; split <;> simp

@[simp] theorem writeValEx_image (r : Ref) (x : ValEx) (s : State) : (writeValEx r x s).image = s.image := by
  unfold writeValEx; split <;> simp

@[simp] theorem writeValEx_params (r : Ref) (x : ValEx) (s : State) :
    (writeValEx r x s).params = s.params := by
  unfold writeValEx; split <;> simp

theorem writeValEx_wf (r : Ref) (x : ValEx) (s : State) (h : Memory.wf memWords s.mem) :
    Memory.wf memWords (writeValEx r x s).mem := by
  unfold writeValEx
  split
  · exact writeRef_wf r x.val s h
  · exact writeRef_wf r x.val (s.setEx x.ex) h

/-! ### The frames -/

@[simp] theorem basicFrame_st (cost : Nat) (b a : Operand) (s : State) :
    (basicFrame cost b a s).st =
      (resolve b .dst (resolve a .src s).2).2.addCycles (cost + nextWords a + nextWords b) := rfl

@[simp] theorem basicFrame_ra (cost : Nat) (b a : Operand) (s : State) :
    (basicFrame cost b a s).ra = (resolve a .src s).1 := rfl

@[simp] theorem basicFrame_rb (cost : Nat) (b a : Operand) (s : State) :
    (basicFrame cost b a s).rb = (resolve b .dst (resolve a .src s).2).1 := rfl

@[simp] theorem specialFrame_st (cost : Nat) (a : Operand) (s : State) :
    (specialFrame cost a s).st = (resolve a .src s).2.addCycles (cost + nextWords a) := rfl

@[simp] theorem specialFrame_ra (cost : Nat) (a : Operand) (s : State) :
    (specialFrame cost a s).ra = (resolve a .src s).1 := rfl

end Sys2Proof.Machine
end

