-- ==== Sys2Proof/Laws/Ops.lean ====
section
/-! SUPPORT. What the stack, the fetch, the fatal fault and the interrupt controller can do (R13, R250, R262 to R264, R270). -/

namespace Sys2Proof.Machine

@[simp] theorem fetchNext_eq (s : State) : fetchNext s = (s.readMem s.pc, s.setPc (s.pc + 1)) := rfl

@[simp] theorem push_eq (v : Word) (s : State) : push v s = (s.setSp (s.sp - 1)).writeMem (s.sp - 1) v := rfl

@[simp] theorem pop_eq (s : State) : pop s = (s.readMem s.sp, s.setSp (s.sp + 1)) := rfl

@[simp] theorem andThen_next (s : State) (f : State → Result) : andThen (.next s) f = f s := rfl

@[simp] theorem andThen_fault (e : Fault) (f : State → Result) : andThen (.fault e) f = .fault e := rfl

@[simp] theorem andThen_refused (e : Refusal) (f : State → Result) : andThen (.refused e) f = .refused e := rfl

/-- A chain of two answers a next state exactly through a next state in the middle. -/
theorem andThen_eq_next {r : Result} {f : State → Result} {t : State} :
    andThen r f = .next t ↔ ∃ s, r = .next s ∧ f s = .next t := by
  cases r <;> simp [andThen]

theorem andThen_eq_fault {r : Result} {f : State → Result} {e : Fault} :
    andThen r f = .fault e ↔ r = .fault e ∨ ∃ s, r = .next s ∧ f s = .fault e := by
  cases r <;> simp [andThen]

/-- The state after interrupt entry, field by field but for memory (R270). -/
theorem enterInterrupt_eq (m : Word) (rest : List Word) (s : State) :
    enterInterrupt m rest s =
      { s with
        gpr := s.gpr.put .a m
        pc := s.ia
        sp := s.sp - 2
        iaq := true
        queue := rest
        mem := Memory.write (Memory.write s.mem (s.sp - 1).toNat s.pc) (s.sp - 2).toNat (s.gpr.get .a)
        cyc := s.cyc + s.params.intEntryCycles } := by
  have h : s.sp - 1 - 1 = s.sp - 2 := by
    rw [BitVec.sub_sub]; rfl
  simp only [enterInterrupt, push, State.setPc, State.setGpr, State.setQueue, State.addCycles, State.writeMem,
    State.setSp, State.setIaq, h]

/-- A dispatch does nothing, drops messages because IA is 0, or enters the handler (R264). -/
theorem dispatch_cases (s : State) :
    (s.queue = [] ∧ dispatch s = s) ∨ (s.iaq = true ∧ dispatch s = s) ∨
    (∃ m rest, s.queue = m :: rest ∧ s.iaq = false ∧ s.ia = 0 ∧
      dispatch s = s.setQueue (droppedQueue s.params.ia0Drop rest)) ∨
    (∃ m rest, s.queue = m :: rest ∧ s.iaq = false ∧ s.ia ≠ 0 ∧ dispatch s = enterInterrupt m rest s) := by
  cases hq : s.queue with
  | nil => exact .inl ⟨rfl, by simp [dispatch, hq]⟩
  | cons m rest =>
    cases hi : s.iaq with
    | true => exact .inr (.inl ⟨rfl, by simp [dispatch, hq, hi]⟩)
    | false =>
      by_cases h0 : s.ia = 0
      · exact .inr (.inr (.inl ⟨m, rest, rfl, rfl, h0, by simp [dispatch, hq, hi, h0]⟩))
      · exact .inr (.inr (.inr ⟨m, rest, rfl, rfl, h0, by simp only [dispatch, hq, hi]; simp [show ¬s.ia = 0#16 from h0]⟩))

@[simp] theorem dispatch_fire (s : State) : (dispatch s).fire = s.fire := by
  rcases dispatch_cases s with ⟨_, h⟩ | ⟨_, h⟩ | ⟨_, _, _, _, _, h⟩ | ⟨_, _, _, _, _, h⟩ <;>
    simp [h, enterInterrupt_eq]

@[simp] theorem dispatch_devices (s : State) : (dispatch s).devices = s.devices := by
  rcases dispatch_cases s with ⟨_, h⟩ | ⟨_, h⟩ | ⟨_, _, _, _, _, h⟩ | ⟨_, _, _, _, _, h⟩ <;>
    simp [h, enterInterrupt_eq]

@[simp] theorem dispatch_image (s : State) : (dispatch s).image = s.image := by
  rcases dispatch_cases s with ⟨_, h⟩ | ⟨_, h⟩ | ⟨_, _, _, _, _, h⟩ | ⟨_, _, _, _, _, h⟩ <;>
    simp [h, enterInterrupt_eq]

@[simp] theorem dispatch_params (s : State) : (dispatch s).params = s.params := by
  rcases dispatch_cases s with ⟨_, h⟩ | ⟨_, h⟩ | ⟨_, _, _, _, _, h⟩ | ⟨_, _, _, _, _, h⟩ <;>
    simp [h, enterInterrupt_eq]

@[simp] theorem dispatch_ia (s : State) : (dispatch s).ia = s.ia := by
  rcases dispatch_cases s with ⟨_, h⟩ | ⟨_, h⟩ | ⟨_, _, _, _, _, h⟩ | ⟨_, _, _, _, _, h⟩ <;>
    simp [h, enterInterrupt_eq]

@[simp] theorem dispatch_ex (s : State) : (dispatch s).ex = s.ex := by
  rcases dispatch_cases s with ⟨_, h⟩ | ⟨_, h⟩ | ⟨_, _, _, _, _, h⟩ | ⟨_, _, _, _, _, h⟩ <;>
    simp [h, enterInterrupt_eq]

/-- A dispatch never lengthens the queue, and shortens a queue it works on. -/
theorem dispatch_queue_length (s : State) :
    (dispatch s).queue.length ≤ s.queue.length ∧
    (s.iaq = false → (dispatch s).queue.length ≤ s.queue.length - 1) := by
  rcases dispatch_cases s with ⟨hq, h⟩ | ⟨hi, h⟩ | ⟨m, rest, hq, _, _, h⟩ | ⟨m, rest, hq, _, _, h⟩
  · simp [h, hq]
  · simp [h, hi]
  · cases hd : s.params.ia0Drop <;> simp [h, hq, droppedQueue, hd]
  · simp [h, hq, enterInterrupt_eq]

/-- After a dispatch a message waits only while queueing is on, if IA = 0 drops everything (R266 a). -/
theorem dispatch_queue_held (s : State) (hd : s.params.ia0Drop = .all) :
    (dispatch s).queue ≠ [] → (dispatch s).iaq = true := by
  rcases dispatch_cases s with ⟨hq, h⟩ | ⟨hi, h⟩ | ⟨m, rest, hq, _, _, h⟩ | ⟨m, rest, hq, _, _, h⟩ <;>
    simp_all [enterInterrupt_eq, droppedQueue]

theorem dispatch_wf (s : State) (h : Memory.wf memWords s.mem) : Memory.wf memWords (dispatch s).mem := by
  rcases dispatch_cases s with ⟨_, e⟩ | ⟨_, e⟩ | ⟨_, _, _, _, _, e⟩ | ⟨_, _, _, _, _, e⟩ <;> rw [e]
  · exact h
  · exact h
  · exact h
  · rw [enterInterrupt_eq]
    exact State.wf_writeMem (s.writeMem _ _) (State.wf_writeMem s h _ _) _ _

/-- A trigger, on a machine not on fire: the bypass dispatches the message from the front; the other appends it and dispatches, or
fires when it is the 257th (R262, R263). -/
theorem trigger_cases (m : Word) (bypass : Bool) (s : State) (hf : s.fire = none) :
    (bypass = true ∧ trigger m bypass s = .next (dispatch ((s.setIaq false).setQueue (m :: s.queue)))) ∨
    (bypass = false ∧ s.queue.length < queueMax ∧
      trigger m bypass s = .next (dispatch (s.setQueue (s.queue ++ [m])))) ∨
    (bypass = false ∧ queueMax ≤ s.queue.length ∧
      trigger m bypass s = raise (.queueOverflow m) (s.setQueue (s.queue ++ [m]))) := by
  cases bypass with
  | true => exact .inl ⟨rfl, by simp [trigger, hf]⟩
  | false =>
    by_cases h : s.queue.length < queueMax
    · refine .inr (.inl ⟨rfl, h, ?_⟩)
      have : ¬ queueMax < s.queue.length + 1 := by omega
      simp [trigger, hf, this]
    · refine .inr (.inr ⟨rfl, by omega, ?_⟩)
      have : queueMax < s.queue.length + 1 := by omega
      simp [trigger, hf, this]

end Sys2Proof.Machine
end

