-- ==== Sys2Proof/Laws/Devices.lean ====
section
/-! SUPPORT. The device list under an update of one device, and the small facts of the reference devices. -/

namespace Sys2Proof.Machine

/-! ### One device moves -/

@[simp] theorem putBody_length (ds : List Device) (i : Nat) (b : DeviceBody) :
    (putBody ds i b).length = ds.length := by
  induction ds generalizing i with
  | nil => rfl
  | cons d ds ih => cases i <;> simp [putBody, ih]

@[simp] theorem putBody_handles (ds : List Device) (i : Nat) (b : DeviceBody) :
    (putBody ds i b).map Device.handle = ds.map Device.handle := by
  induction ds generalizing i with
  | nil => rfl
  | cons d ds ih => cases i <;> simp [putBody, ih]

@[simp] theorem putBody_idents (ds : List Device) (i : Nat) (b : DeviceBody) :
    (putBody ds i b).map Device.ident = ds.map Device.ident := by
  induction ds generalizing i with
  | nil => rfl
  | cons d ds ih => cases i <;> simp [putBody, ih]

theorem putBody_getElem? (ds : List Device) (i : Nat) (b : DeviceBody) (k : Nat) :
    (putBody ds i b)[k]? = if k = i then (ds[k]?).map (fun d => { d with body := b }) else ds[k]? := by
  induction ds generalizing i k with
  | nil => simp [putBody]
  | cons d ds ih =>
    cases i with
    | zero => cases k <;> simp [putBody]
    | succ i => cases k <;> simp [putBody, ih]

theorem bodyAt_setBody_self (s : State) {i : Nat} {b b' : DeviceBody} (h : s.bodyAt i = some b) :
    (s.setBody i b').bodyAt i = some b' := by
  simp only [State.bodyAt, State.setBody_devices, putBody_getElem?, if_true, Option.map_map] at h ⊢
  cases hd : s.devices[i]? <;> simp_all

theorem bodyAt_setBody_ne (s : State) {i k : Nat} (b : DeviceBody) (h : k ≠ i) :
    (s.setBody i b).bodyAt k = s.bodyAt k := by
  simp [State.bodyAt, putBody_getElem?, h]

@[simp] theorem putBody_putBody (ds : List Device) (i : Nat) (b b' : DeviceBody) :
    putBody (putBody ds i b) i b' = putBody ds i b' := by
  induction ds generalizing i with
  | nil => rfl
  | cons d ds ih => cases i <;> simp [putBody, ih]

/-- Of two updates of one device only the second stays. -/
@[simp] theorem setBody_setBody (s : State) (i : Nat) (b b' : DeviceBody) :
    (s.setBody i b).setBody i b' = s.setBody i b' := by
  simp [State.setBody]

/-- An update to the body a device has already changes nothing. -/
theorem setBody_self (s : State) {i : Nat} {b : DeviceBody} (h : s.bodyAt i = some b) : s.setBody i b = s := by
  have key : ∀ (ds : List Device) (i : Nat), (ds[i]?).map Device.body = some b → putBody ds i b = ds := by
    intro ds
    induction ds with
    | nil => intro i _; rfl
    | cons d ds ih =>
      intro i hi
      cases i with
      | zero => simp at hi; subst hi; rfl
      | succ i => simp [putBody]; exact ih i (by simpa using hi)
  simp [State.setBody, key s.devices i h]

/-- Every device's own state has a property exactly if the body at every index has it. -/
theorem forall_devices_iff (s : State) (P : DeviceBody → Prop) :
    (∀ d ∈ s.devices, P d.body) ↔ ∀ k b, s.bodyAt k = some b → P b := by
  constructor
  · intro h k b hb
    simp only [State.bodyAt, Option.map_eq_some_iff] at hb
    obtain ⟨d, hd, rfl⟩ := hb
    exact h d (List.mem_of_getElem? hd)
  · intro h d hd
    obtain ⟨k, hk⟩ := List.getElem?_of_mem hd
    exact h k d.body (by simp [State.bodyAt, hk])

/-! ### The kind of state a device call leaves -/

/-- What a step never changes: the configuration, the number of devices, their objects and their identities (R35, R288, R289). -/
structure SameHost (s t : State) : Prop where
  image : t.image = s.image
  params : t.params = s.params
  handles : t.devices.map Device.handle = s.devices.map Device.handle
  idents : t.devices.map Device.ident = s.devices.map Device.ident

theorem SameHost.refl (s : State) : SameHost s s := ⟨rfl, rfl, rfl, rfl⟩

theorem SameHost.trans {s t u : State} (h : SameHost s t) (k : SameHost t u) : SameHost s u :=
  ⟨k.image.trans h.image, k.params.trans h.params, k.handles.trans h.handles, k.idents.trans h.idents⟩

theorem SameHost.of_eq {s t : State} (hi : t.image = s.image) (hp : t.params = s.params)
    (hd : t.devices = s.devices) : SameHost s t := ⟨hi, hp, by rw [hd], by rw [hd]⟩

theorem SameHost.setBody (s : State) (i : Nat) (b : DeviceBody) : SameHost s (s.setBody i b) :=
  ⟨rfl, rfl, by simp, by simp⟩

theorem SameHost.length {s t : State} (h : SameHost s t) : t.devices.length = s.devices.length := by
  simpa using congrArg List.length h.handles

/-! ### Ends -/

/-- Where an answer ends: `P` of a next state, `Q` of the state a fatal fault leaves; a step that never returns says nothing, and a
refusal is none. -/
def Ends (P Q : State → Prop) : Result → Prop
  | .next s => P s
  | .fault (.fire _ s) => Q s
  | .fault .skipChainHangs => True
  | .refused _ => False

theorem Ends.andThen {P P' Q : State → Prop} {r : Result} {f : State → Result} (h : Ends P Q r)
    (hf : ∀ s, P s → Ends P' Q (f s)) : Ends P' Q (andThen r f) := by
  cases r with
  | next s => exact hf s h
  | fault e => cases e <;> exact h
  | refused e => exact h

theorem Ends.mono {P P' Q Q' : State → Prop} {r : Result} (h : Ends P Q r) (hp : ∀ s, P s → P' s)
    (hq : ∀ s, Q s → Q' s) : Ends P' Q' r := by
  cases r with
  | next s => exact hp s h
  | fault e => cases e <;> first | exact hq _ h | exact h
  | refused e => exact h

theorem Ends.next {P Q : State → Prop} {r : Result} (h : Ends P Q r) {t : State} (e : r = .next t) : P t := by
  subst e; exact h

end Sys2Proof.Machine
end

