-- ==== Sys2Proof/Laws/Disk.lean ====
section
/-! SUPPORT. What one pass of the Disk's job loops does (R313 to R315). -/

namespace Sys2Proof.Machine

/-- The disk after its front job has run, the other jobs waiting. -/
def afterJob (p : Params) (j : Job) (rest : List Job) (acc : Nat) (d : DiskState) (mem : Memory) : DiskState :=
  { d with media := (transfer p j d.media mem).1, head := j.sector, jobs := rest, acc := acc }

theorem runJob_eq (i : Nat) (j : Job) (rest : List Job) (acc : Nat) (d : DiskState) (s : State) :
    runJob i j { d with jobs := rest, acc := acc } s =
      (afterJob s.params j rest acc d s.mem,
        { s with mem := (transfer s.params j d.media s.mem).2 }.setBody i
          (.disk (afterJob s.params j rest acc d s.mem))) := rfl

/-- The front job's cost is not covered. -/
theorem drainJobs_short (i : Nat) (j : Job) (rest : List Job) {d : DiskState} {s : State}
    (h : d.acc < jobCost s.params d.head j) : drainJobs i (j :: rest) d s = .next s := by
  rw [drainJobs, if_pos h]

/-- The last job's cost is covered: it runs, the accumulator clears, the cause is recorded, and the Disk signals. -/
theorem drainJobs_last (i : Nat) (j : Job) {d : DiskState} {s : State}
    (h : jobCost s.params d.head j ≤ d.acc) :
    let d' := { afterJob s.params j [] 0 d s.mem with intType := completionType s.params j.direction }
    drainJobs i [j] d s =
      diskSignal d' ({ s with mem := (transfer s.params j d.media s.mem).2 }.setBody i (.disk d')) := by
  rw [drainJobs, if_neg (Nat.not_lt.2 h), runJob_eq]
  simp only [setBody_setBody]
  rfl

/-- A job's cost is covered and others wait behind it: it runs, its cost is taken, and the loop goes on. -/
theorem drainJobs_more (i : Nat) (j k : Job) (more : List Job) {d : DiskState} {s : State}
    (h : jobCost s.params d.head j ≤ d.acc) :
    let d' := afterJob s.params j (k :: more) (d.acc - jobCost s.params d.head j) d s.mem
    drainJobs i (j :: k :: more) d s =
      drainJobs i (k :: more) d' ({ s with mem := (transfer s.params j d.media s.mem).2 }.setBody i (.disk d')) := by
  rw [drainJobs, if_neg (Nat.not_lt.2 h), runJob_eq]

/-- One pass of blocking mode: the front job's cost is consumed, and it runs. -/
theorem runBlocking_cons (i : Nat) (j : Job) (rest : List Job) (d : DiskState) (s : State) :
    let d' := afterJob s.params j rest d.acc d s.mem
    runBlocking i (j :: rest) d s =
      runBlocking i rest d' (({ s with mem := (transfer s.params j d.media s.mem).2 }.addCycles
        (jobCost s.params d.head j)).setBody i (.disk d')) := rfl

end Sys2Proof.Machine
end

