-- ==== Sys2Proof/Laws/Invariant.lean ====
section
/-! SUPPORT. What every part of a step keeps: `Mid` is the invariant inside a step, where a message may still wait for the dispatch
at the end. -/

namespace Sys2Proof.Machine

/-- The invariant inside a step but for the devices' own states. -/
structure Core (s : State) : Prop where
  host : HostOk s
  memWf : Memory.wf memWords s.mem = true
  queueBound : s.queue.length ≤ queueMax
  notOnFire : s.fire = none

/-- The invariant inside a step. -/
structure Mid (s : State) : Prop where
  core : Core s
  bodies : ∀ k b, s.bodyAt k = some b → bodyOk s.params b = true

/-- From `s0` to here a step kept the invariant and what a step never changes. -/
structure Stays (s0 t : State) : Prop where
  same : SameHost s0 t
  mid : Mid t

/-- The state a fatal fault left on the way from `s0`. -/
structure Burnt (s0 t : State) : Prop where
  same : SameHost s0 t
  host : HostOk t
  onFire : t.fire ≠ none

theorem HostOk.media_at {s : State} (h : HostOk s) {k : Nat} {b : DeviceBody} (hb : s.bodyAt k = some b) :
    mediumFits s.params (bodyMedium b) = true :=
  (forall_devices_iff s fun b => mediumFits s.params (bodyMedium b) = true).1 h.mediaFit k b hb

theorem HostOk.of_same {s t : State} (h : HostOk s) (hs : SameHost s t)
    (hm : ∀ k b, t.bodyAt k = some b → mediumFits t.params (bodyMedium b) = true) : HostOk t where
  deviceCount := by rw [hs.length]; exact h.deviceCount
  handlesDiffer := by rw [hs.handles]; exact h.handlesDiffer
  mediaFit := (forall_devices_iff t fun b => mediumFits t.params (bodyMedium b) = true).2 hm
  imageFits := by rw [hs.image]; exact h.imageFits
  clockRuns := by rw [hs.params]; exact h.clockRuns

theorem HostOk.of_eq {s t : State} (h : HostOk s) (hi : t.image = s.image) (hp : t.params = s.params)
    (hd : t.devices = s.devices) : HostOk t :=
  h.of_same (SameHost.of_eq hi hp hd) fun k b hb => by
    rw [hp]; exact h.media_at (by rwa [State.bodyAt, hd] at hb)

/-- A change of registers, memory, controller or cost. -/
theorem Core.of_eq {s t : State} (h : Core s) (hi : t.image = s.image) (hp : t.params = s.params)
    (hd : t.devices = s.devices) (hf : t.fire = s.fire) (hm : Memory.wf memWords t.mem = true)
    (hq : t.queue.length ≤ queueMax) : Core t :=
  ⟨h.host.of_eq hi hp hd, hm, hq, hf.trans h.notOnFire⟩

theorem Stays.of_eq {s0 s t : State} (h : Stays s0 s) (hi : t.image = s.image) (hp : t.params = s.params)
    (hd : t.devices = s.devices) (hf : t.fire = s.fire) (hm : Memory.wf memWords t.mem = true)
    (hq : t.queue.length ≤ queueMax) : Stays s0 t where
  same := h.same.trans (SameHost.of_eq hi hp hd)
  mid := ⟨h.mid.core.of_eq hi hp hd hf hm hq, fun k b hb => by
    rw [hp]; exact h.mid.bodies k b (by rwa [State.bodyAt, hd] at hb)⟩

/-! ### The controller -/

theorem Core.dispatch {s : State} (h : Core s) : Core (dispatch s) :=
  h.of_eq (by simp) (by simp) (by simp) (by simp) (dispatch_wf s h.memWf)
    (le_trans (dispatch_queue_length s).1 h.queueBound)

theorem Stays.dispatch {s0 s : State} (h : Stays s0 s) : Stays s0 (dispatch s) :=
  h.of_eq (by simp) (by simp) (by simp) (by simp) (dispatch_wf s h.mid.core.memWf)
    (le_trans (dispatch_queue_length s).1 h.mid.core.queueBound)

/-- A trigger keeps the devices and the core invariant, or fires with the devices as they were. -/
theorem trigger_core (m : Word) (bypass : Bool) {s : State} (h : Core s) :
    Ends (fun t => Core t ∧ t.devices = s.devices ∧ t.params = s.params ∧ t.image = s.image)
      (fun t => HostOk t ∧ t.devices = s.devices ∧ t.params = s.params ∧ t.image = s.image ∧ t.fire ≠ none)
      (trigger m bypass s) := by
  have hq := h.queueBound
  rcases trigger_cases m bypass s h.notOnFire with ⟨_, e⟩ | ⟨_, hl, e⟩ | ⟨_, _, e⟩ <;> rw [e]
  · refine ⟨h.of_eq (by simp) (by simp) (by simp) (by simp) (dispatch_wf _ h.memWf) ?_, by simp, by simp, by simp⟩
    have := (dispatch_queue_length ((s.setIaq false).setQueue (m :: s.queue))).2 rfl
    simp only [State.setQueue_queue, List.length_cons, Nat.add_sub_cancel] at this
    omega
  · refine ⟨h.of_eq (by simp) (by simp) (by simp) (by simp) (dispatch_wf _ h.memWf) ?_, by simp, by simp, by simp⟩
    have := (dispatch_queue_length (s.setQueue (s.queue ++ [m]))).1
    simp only [State.setQueue_queue, List.length_append, List.length_cons, List.length_nil] at this
    omega
  · exact ⟨h.host.of_eq rfl rfl rfl, rfl, rfl, rfl, by simp⟩

theorem trigger_ends (m : Word) (bypass : Bool) {s0 s : State} (h : Stays s0 s) :
    Ends (Stays s0) (Burnt s0) (trigger m bypass s) := by
  refine (trigger_core m bypass h.mid.core).mono (fun t ht => ?_) (fun t ht => ?_)
  · obtain ⟨hc, hd, hp, hi⟩ := ht
    exact ⟨h.same.trans (SameHost.of_eq hi hp hd), hc, fun k b hb => by
      rw [hp]; exact h.mid.bodies k b (by rwa [State.bodyAt, hd] at hb)⟩
  · obtain ⟨hh, hd, hp, hi, hf⟩ := ht
    exact ⟨h.same.trans (SameHost.of_eq hi hp hd), hh, hf⟩

theorem raise_ends (k : Fire) {s0 s : State} (h : Stays s0 s) : Ends (Stays s0) (Burnt s0) (raise k s) :=
  ⟨h.same.trans (SameHost.of_eq rfl rfl rfl), h.mid.core.host.of_eq rfl rfl rfl, by simp⟩

/-! ### One device in motion -/

/-- The invariant while device `i` is in a state `b` of its own that need not be one between steps. -/
structure Moving (s0 : State) (i : Nat) (b : DeviceBody) (s : State) : Prop where
  same : SameHost s0 s
  core : Core s
  here : s.bodyAt i = some b
  others : ∀ k b, k ≠ i → s.bodyAt k = some b → bodyOk s.params b = true

theorem Stays.moving {s0 s : State} (h : Stays s0 s) {i : Nat} {b : DeviceBody} (hb : s.bodyAt i = some b) :
    Moving s0 i b s :=
  ⟨h.same, h.mid.core, hb, fun k c _ hc => h.mid.bodies k c hc⟩

theorem Moving.stays {s0 s : State} {i : Nat} {b : DeviceBody} (h : Moving s0 i b s)
    (hb : bodyOk s.params b = true) : Stays s0 s where
  same := h.same
  mid := ⟨h.core, fun k c hc => by
    by_cases hk : k = i
    · subst hk
      rw [h.here] at hc
      cases hc
      exact hb
    · exact h.others k c hk hc⟩

theorem Moving.setBody {s0 s : State} {i : Nat} {b : DeviceBody} (h : Moving s0 i b s) {b' : DeviceBody}
    (hm : mediumFits s.params (bodyMedium b') = true) : Moving s0 i b' (s.setBody i b') where
  same := h.same.trans (SameHost.setBody s i b')
  core := by
    refine ⟨h.core.host.of_same (SameHost.setBody s i b') fun k c hc => ?_, h.core.memWf, h.core.queueBound,
      h.core.notOnFire⟩
    by_cases hk : k = i
    · subst hk
      rw [bodyAt_setBody_self s h.here] at hc
      cases hc
      exact hm
    · rw [bodyAt_setBody_ne s b' hk] at hc
      exact h.core.host.media_at hc
  here := bodyAt_setBody_self s h.here
  others := fun k c hk hc => by
    rw [bodyAt_setBody_ne s b' hk] at hc
    exact h.others k c hk hc

theorem Moving.of_eq {s0 s t : State} {i : Nat} {b : DeviceBody} (h : Moving s0 i b s) (hi : t.image = s.image)
    (hp : t.params = s.params) (hd : t.devices = s.devices) (hf : t.fire = s.fire)
    (hm : Memory.wf memWords t.mem = true) (hq : t.queue.length ≤ queueMax) : Moving s0 i b t where
  same := h.same.trans (SameHost.of_eq hi hp hd)
  core := h.core.of_eq hi hp hd hf hm hq
  here := by rw [State.bodyAt, hd]; exact h.here
  others := fun k c hk hc => by rw [hp]; exact h.others k c hk (by rwa [State.bodyAt, hd] at hc)

theorem trigger_moving (m : Word) (bypass : Bool) {s0 s : State} {i : Nat} {b : DeviceBody}
    (h : Moving s0 i b s) :
    Ends (fun t => Moving s0 i b t ∧ t.params = s.params) (Burnt s0) (trigger m bypass s) := by
  refine (trigger_core m bypass h.core).mono (fun t ht => ?_) (fun t ht => ?_)
  · obtain ⟨hc, hd, hp, hi⟩ := ht
    exact ⟨⟨h.same.trans (SameHost.of_eq hi hp hd), hc, by rw [State.bodyAt, hd]; exact h.here,
      fun k c hk hc => by rw [hp]; exact h.others k c hk (by rwa [State.bodyAt, hd] at hc)⟩, hp⟩
  · obtain ⟨hh, hd, hp, hi, hf⟩ := ht
    exact ⟨h.same.trans (SameHost.of_eq hi hp hd), hh, hf⟩

/-! ### Clock -/

theorem clockTicks_ends (i n : Nat) {s0 s : State} {c : ClockState} (h : Moving s0 i (.clock c) s)
    (hr : c.rate ≠ 0) (hn : n = c.acc60 / clockPeriod60 s.params c) :
    Ends (Stays s0) (Burnt s0) (clockTicks i n c s) := by
  have hp : 0 < clockPeriod60 s.params c := by
    have h1 := h.core.host.clockRuns
    have h2 : 0 < c.rate.toNat := by
      rcases Nat.eq_zero_or_pos c.rate.toNat with e | e
      · exact absurd (BitVec.eq_of_toNat_eq (by simpa using e)) hr
      · exact e
    exact Nat.mul_pos h1 h2
  induction n generalizing s c with
  | zero =>
    refine h.stays ?_
    have hlt : c.acc60 < clockPeriod60 s.params c := by
      rcases Nat.lt_or_ge c.acc60 (clockPeriod60 s.params c) with e | e
      · exact e
      · exact absurd (Nat.div_pos e hp) (by omega)
    have hr' : ¬ c.rate = 0#16 := hr
    simp [bodyOk, clockOk, hr', hlt]
  | succ n ih =>
    have hle : clockPeriod60 s.params c ≤ c.acc60 := by
      rcases Nat.lt_or_ge c.acc60 (clockPeriod60 s.params c) with e | e
      · rw [Nat.div_eq_of_lt e] at hn; omega
      · exact e
    have hn' : n = (c.acc60 - clockPeriod60 s.params c) / clockPeriod60 s.params c := by
      have := Nat.div_eq_sub_div hp hle
      omega
    have hm := h.setBody (b' := .clock { c with acc60 := c.acc60 - clockPeriod60 s.params c, ticks := c.ticks + 1 }) rfl
    simp only [clockTicks]
    by_cases h0 : c.message = 0
    · rw [if_pos h0]
      exact ih hm hr (by simpa [clockPeriod60] using hn') (by simpa [clockPeriod60] using hp)
    · rw [if_neg h0]
      refine (trigger_moving c.message false hm).andThen fun t ⟨ht, hpt⟩ => ?_
      have hpt' : t.params = s.params := hpt
      exact ih ht hr (by simpa [clockPeriod60, hpt'] using hn') (by simpa [clockPeriod60, hpt'] using hp)

theorem clockAdvance_ends (i n : Nat) {s0 s : State} {c : ClockState} (h : Stays s0 s)
    (hb : s.bodyAt i = some (.clock c)) : Ends (Stays s0) (Burnt s0) (clockAdvance i c n s) := by
  unfold clockAdvance
  by_cases hr : c.rate = 0
  · rw [if_pos hr]; exact h
  · simp only [if_neg hr]
    exact clockTicks_ends i _ ((h.moving hb).setBody rfl) hr rfl

theorem clockReceive_stays (i : Nat) (m : Word) {s0 s : State} {c : ClockState} (h : Stays s0 s)
    (hb : s.bodyAt i = some (.clock c)) : Stays s0 (clockReceive i c m s) := by
  have hc := h.mid.bodies i _ hb
  have hz := h.mid.core.host.clockRuns
  unfold clockReceive
  split
  · refine ((h.moving hb).setBody rfl).stays ?_
    by_cases h0 : s.gpr.get .b = 0
    · simp [bodyOk, clockOk, h0]
    · have h0' : ¬ s.gpr.get .b = 0#16 := h0
      have : 0 < (s.gpr.get .b).toNat := by
        rcases Nat.eq_zero_or_pos (s.gpr.get .b).toNat with e | e
        · exact absurd (BitVec.eq_of_toNat_eq (by simpa using e)) h0
        · exact e
      simpa [bodyOk, clockOk, h0', clockPeriod60, hz] using this
  · have h1 : Stays s0 (s.setGpr .c c.ticks) := h.of_eq rfl rfl rfl rfl h.mid.core.memWf h.mid.core.queueBound
    exact ((h1.moving hb).setBody rfl).stays hc
  · exact ((h.moving hb).setBody rfl).stays hc
  · exact h

/-! ### Keyboard -/

theorem mem_holdKey {ds : List Word} {k x : Word} : x ∈ holdKey ds k ↔ x = k ∨ x ∈ ds := by
  induction ds with
  | nil => simp [holdKey]
  | cons d ds ih =>
    unfold holdKey
    split
    · simp
    · split
      · rename_i h; subst h; simp
      · simp only [List.mem_cons, ih]
        constructor <;> (rintro (h | h | h) <;> simp [h])

theorem strictlyRising_holdKey {ds : List Word} (k : Word) (h : strictlyRising ds = true) :
    strictlyRising (holdKey ds k) = true := by
  simp only [strictlyRising, decide_eq_true_eq] at h ⊢
  induction ds with
  | nil => simp [holdKey]
  | cons d ds ih =>
    have h' := List.pairwise_cons.1 h
    unfold holdKey
    split
    · rename_i h1
      refine List.pairwise_cons.2 ⟨fun x hx => ?_, h⟩
      rcases List.mem_cons.1 hx with rfl | hx
      · exact h1
      · exact BitVec.lt_trans h1 (h'.1 x hx)
    · split
      · exact h
      · rename_i h1 h2
        refine List.pairwise_cons.2 ⟨fun x hx => ?_, ih h'.2⟩
        rcases mem_holdKey.1 hx with rfl | hx
        · have h1' : ¬ x.toNat < d.toNat := h1
          have h2' : x.toNat ≠ d.toNat := fun e => h2 (BitVec.eq_of_toNat_eq e)
          show d.toNat < x.toNat
          omega
        · exact h'.1 x hx

theorem strictlyRising_releaseKey {ds : List Word} (k : Word) (h : strictlyRising ds = true) :
    strictlyRising (releaseKey ds k) = true := by
  simp only [strictlyRising, decide_eq_true_eq] at h
  simp only [strictlyRising, releaseKey]
  exact decide_eq_true (h.filter _)

theorem keyboardReceive_stays (i : Nat) (m : Word) {s0 s : State} {k : KeyboardState} (h : Stays s0 s)
    (hb : s.bodyAt i = some (.keyboard k)) : Stays s0 (keyboardReceive i k m s) := by
  have hk := h.mid.bodies i _ hb
  have hg : ∀ v, Stays s0 (s.setGpr .c v) := fun v =>
    h.of_eq rfl rfl rfl rfl h.mid.core.memWf h.mid.core.queueBound
  unfold keyboardReceive
  split
  · exact ((h.moving hb).setBody (b' := .keyboard { k with buffer := [] }) rfl).stays hk
  · split
    · exact hg 0
    · rename_i code rest _
      exact (((hg code).moving hb).setBody (b' := .keyboard { k with buffer := rest }) rfl).stays hk
  · exact hg _
  · exact ((h.moving hb).setBody (b' := .keyboard { k with message := s.gpr.get .b }) rfl).stays hk
  · exact h

/-! ### Disk -/

theorem diskOk_iff (p : Params) (d : DiskState) :
    diskOk p d = true ↔ mediumFits p d.media = true ∧ (∀ j ∈ d.jobs, j.sector < p.diskSectors) ∧
      (d.jobs = [] ∨ d.media.isSome = true) ∧ (d.jobs = [] → d.acc = 0) := by
  simp only [diskOk, Bool.and_eq_true, List.all_eq_true, decide_eq_true_eq, Bool.or_eq_true, List.isEmpty_iff,
    Bool.not_eq_true', beq_iff_eq, and_assoc]
  constructor
  · rintro ⟨h1, h2, h3, h4⟩
    refine ⟨h1, h2, h3, fun e => ?_⟩
    rcases h4 with h4 | h4
    · simp [e] at h4
    · exact h4
  · rintro ⟨h1, h2, h3, h4⟩
    refine ⟨h1, h2, h3, ?_⟩
    by_cases e : d.jobs = []
    · exact .inr (h4 e)
    · left; simpa using e

theorem foldl_write_wf {bound : Nat} (f : Nat → Nat) (g : Nat → Word) (ks : List Nat) (m : Memory)
    (hm : Memory.wf bound m = true) (hf : ∀ k ∈ ks, f k < bound) :
    Memory.wf bound (ks.foldl (fun m k => Memory.write m (f k) (g k)) m) = true := by
  induction ks generalizing m with
  | nil => exact hm
  | cons k ks ih =>
    exact ih _ (Memory.wf_write hm _ (hf k (by simp))) fun k hk => hf k (by simp [hk])

theorem jobAddress_lt (j : Job) (k : Nat) : jobAddress j k < memWords := by
  have := (j.address + BitVec.ofNat 16 k).isLt
  simpa [jobAddress, memWords] using this

theorem jobKey_lt {p : Params} {j : Job} (hj : j.sector < p.diskSectors) {k : Nat} (hk : k < p.diskSectorWords) :
    jobKey p j k < p.diskSectors * p.diskSectorWords := by
  have h : (j.sector + 1) * p.diskSectorWords ≤ p.diskSectors * p.diskSectorWords :=
    Nat.mul_le_mul_right _ hj
  have h2 : (j.sector + 1) * p.diskSectorWords = j.sector * p.diskSectorWords + p.diskSectorWords := by ring
  unfold jobKey
  omega

/-- A transfer keeps both stores canonical, and a medium stays where it was (R312). -/
theorem transfer_ok (p : Params) (j : Job) {media : Option Memory} {mem : Memory}
    (hj : j.sector < p.diskSectors) (hd : mediumFits p media = true) (hm : Memory.wf memWords mem = true) :
    mediumFits p (transfer p j media mem).1 = true ∧ Memory.wf memWords (transfer p j media mem).2 = true ∧
      (transfer p j media mem).1.isSome = media.isSome := by
  cases media with
  | none => exact ⟨rfl, hm, rfl⟩
  | some md =>
    cases hdir : j.direction with
    | read =>
      simp only [transfer, hdir]
      exact ⟨hd, foldl_write_wf _ _ _ _ hm fun k _ => jobAddress_lt j k, trivial⟩
    | write =>
      simp only [transfer, hdir]
      exact ⟨foldl_write_wf _ _ _ _ hd fun k hk => jobKey_lt hj (by simpa using hk), hm, rfl⟩

theorem runJob_moving (i : Nat) (j : Job) {s0 s : State} {b : DeviceBody} {d : DiskState}
    (h : Moving s0 i b s) (hj : j.sector < s.params.diskSectors) (hd : mediumFits s.params d.media = true) :
    Moving s0 i (.disk (runJob i j d s).1) (runJob i j d s).2 ∧ (runJob i j d s).2.params = s.params ∧
      mediumFits s.params (runJob i j d s).1.media = true ∧
      (runJob i j d s).1 = { d with media := (runJob i j d s).1.media, head := j.sector } ∧
      (runJob i j d s).1.media.isSome = d.media.isSome := by
  have ht := transfer_ok s.params j hj hd h.core.memWf
  have h1 : Moving s0 i b { s with mem := (transfer s.params j d.media s.mem).2 } :=
    h.of_eq rfl rfl rfl rfl ht.2.1 h.core.queueBound
  exact ⟨h1.setBody (b' := .disk _) ht.1, rfl, ht.1, rfl, ht.2.2⟩

theorem runBlocking_stays (i : Nat) : ∀ (jobs : List Job) {s0 s : State} {d : DiskState},
    Moving s0 i (.disk { d with jobs := jobs }) s → (∀ j ∈ jobs, j.sector < s.params.diskSectors) →
    mediumFits s.params d.media = true → d.acc = 0 →
    Stays s0 (runBlocking i jobs d s)
  | [], s0, s, d, h, _, hd, ha => h.stays ((diskOk_iff _ _).2 ⟨hd, by simp, .inl rfl, fun _ => ha⟩)
  | j :: rest, s0, s, d, h, hj, hd, ha => by
    have h1 : Moving s0 i _ (s.addCycles (jobCost s.params d.head j)) :=
      h.of_eq rfl rfl rfl rfl h.core.memWf h.core.queueBound
    obtain ⟨hm, hp, hf, he, _⟩ :=
      runJob_moving (d := { d with jobs := rest }) i j h1 (hj j (by simp)) hd
    simp only [runBlocking]
    generalize hr : runJob i j { d with jobs := rest } (s.addCycles (jobCost s.params d.head j)) = r at *
    have hp' : r.2.params = s.params := hp
    refine runBlocking_stays i rest (d := r.1) ?_ ?_ ?_ ?_
    · rw [he] at hm ⊢; exact hm
    · rw [hp']; exact fun k hk => hj k (by simp [hk])
    · rw [hp']; exact hf
    · rw [he]; exact ha

theorem requestJobs_sector (p : Params) (dir : JobDirection) (sector count : Nat) (address : Word)
    (h : sector + count ≤ p.diskSectors) :
    ∀ j ∈ requestJobs p dir sector count address, j.sector < p.diskSectors := by
  intro j hj
  simp only [requestJobs, List.mem_map, List.mem_range] at hj
  obtain ⟨k, hk, rfl⟩ := hj
  show sector + k < p.diskSectors
  omega

theorem setGpr_stays {s0 s : State} (h : Stays s0 s) (r : Gpr) (v : Word) : Stays s0 (s.setGpr r v) :=
  h.of_eq rfl rfl rfl rfl h.mid.core.memWf h.mid.core.queueBound

theorem diskRequest_stays (i : Nat) (dir : JobDirection) {s0 s : State} {d : DiskState} (h : Stays s0 s)
    (hb : s.bodyAt i = some (.disk d)) : Stays s0 (diskRequest i dir d s) := by
  obtain ⟨hf, _, _, ha⟩ := (diskOk_iff _ _).1 (h.mid.bodies i _ hb)
  unfold diskRequest
  simp only
  split
  · exact setGpr_stays h _ _
  · split
    · exact setGpr_stays h _ _
    · split
      · exact setGpr_stays h _ _
      · rename_i h1 h2 h3
        have hjobs : d.jobs = [] := not_not.1 h2
        have hsec := requestJobs_sector s.params dir (s.gpr.get .b).toNat (s.gpr.get .c).toNat (s.gpr.get .x)
          (by omega)
        have hm := ((setGpr_stays h .a s.params.diskCodes.errorNone).moving hb).setBody
          (b' := .disk { d with
            jobs := requestJobs s.params dir (s.gpr.get .b).toNat (s.gpr.get .c).toNat (s.gpr.get .x) }) hf
        split
        · refine hm.stays ((diskOk_iff _ _).2 ⟨hf, hsec, .inr ?_, fun _ => ha hjobs⟩)
          cases hd : d.media with
          | none => simp [hd] at h1
          | some _ => rfl
        · exact runBlocking_stays i _ hm hsec hf (ha hjobs)

theorem diskReceive_stays (i : Nat) (m : Word) {s0 s : State} {d : DiskState} (h : Stays s0 s)
    (hb : s.bodyAt i = some (.disk d)) : Stays s0 (diskReceive i d m s) := by
  have hd := h.mid.bodies i _ hb
  have hf := h.mid.core.host.media_at hb
  have hq : ∀ v w, Stays s0 ((s.setGpr .b v).setGpr .a w) := fun _ _ => setGpr_stays (setGpr_stays h _ _) _ _
  unfold diskReceive
  simp only
  split
  · exact hq _ _
  split
  · split
    · exact setGpr_stays (setGpr_stays (setGpr_stays (setGpr_stays h _ _) _ _) _ _) _ _
    · exact setGpr_stays h _ _
  split
  · exact hq _ _
  split
  · exact setGpr_stays (((h.moving hb).setBody (b' := .disk { d with flags := s.gpr.get .b }) hf).stays hd) _ _
  split
  · exact hq _ _
  split
  · exact setGpr_stays (((h.moving hb).setBody (b' := .disk { d with message := s.gpr.get .b }) hf).stays hd) _ _
  split
  · exact diskRequest_stays i _ h hb
  split
  · exact diskRequest_stays i _ h hb
  split
  · exact hq _ _
  · exact h

theorem diskSignal_ends (d : DiskState) {s0 s : State} (h : Stays s0 s) :
    Ends (Stays s0) (Burnt s0) (diskSignal d s) := by
  unfold diskSignal
  split
  · exact h
  · exact trigger_ends _ _ h

theorem drainJobs_ends (i : Nat) : ∀ (jobs : List Job) {s0 s : State} {d : DiskState},
    Moving s0 i (.disk d) s → d.jobs = jobs → jobs ≠ [] → (∀ j ∈ jobs, j.sector < s.params.diskSectors) →
    mediumFits s.params d.media = true → d.media.isSome = true →
    Ends (Stays s0) (Burnt s0) (drainJobs i jobs d s)
  | [], _, _, _, _, _, hne, _, _, _ => absurd rfl hne
  | j :: rest, s0, s, d, h, hj, hne, hs, hd, hi => by
    unfold drainJobs
    split
    · refine h.stays ((diskOk_iff _ _).2 ⟨hd, by rw [hj]; exact hs, .inr hi, fun e => ?_⟩)
      rw [hj] at e
      exact absurd e (by simp)
    · obtain ⟨hm, hp, hf, he, hsome⟩ :=
        runJob_moving (d := { d with jobs := rest, acc := d.acc - jobCost s.params d.head j }) i j h
          (hs j (by simp)) hd
      generalize runJob i j { d with jobs := rest, acc := d.acc - jobCost s.params d.head j } s = r at *
      cases rest with
      | nil =>
        refine diskSignal_ends _ (((hm.setBody (b' := .disk _) ?_)).stays ?_)
        · simp only [bodyMedium]; rw [hp]; exact hf
        · refine (diskOk_iff _ _).2 ⟨?_, ?_, .inl ?_, fun _ => rfl⟩
          · simp only [State.setBody_params]; rw [hp]; exact hf
          · rw [he]; simp
          · rw [he]
      | cons k more =>
        refine drainJobs_ends i (k :: more) hm (by rw [he]) (by simp) ?_ ?_ ?_
        · rw [hp]; exact fun q hq => hs q (by simp [hq])
        · rw [hp]; exact hf
        · rw [hsome]; exact hi

theorem diskAdvance_ends (i n : Nat) {s0 s : State} {d : DiskState} (h : Stays s0 s)
    (hb : s.bodyAt i = some (.disk d)) : Ends (Stays s0) (Burnt s0) (diskAdvance i d n s) := by
  obtain ⟨hf, hs, hm, _⟩ := (diskOk_iff _ _).1 (h.mid.bodies i _ hb)
  unfold diskAdvance
  split
  · exact h
  · rename_i hne
    have hne' : d.jobs ≠ [] := fun e => hne e
    exact drainJobs_ends i d.jobs ((h.moving hb).setBody (b' := .disk { d with acc := d.acc + n }) hf) rfl hne' hs hf
      (hm.resolve_left hne')

theorem mediaChange_ends (i : Nat) (media : Option Memory) {s0 s : State} {d : DiskState} (h : Stays s0 s)
    (hb : s.bodyAt i = some (.disk d)) (hm : mediumFits s.params media = true) :
    Ends (Stays s0) (Burnt s0) (mediaChange i media d s) := by
  have ok : ∀ v, diskOk s.params { d with media := media, jobs := [], acc := 0, intType := v } = true := fun v =>
    (diskOk_iff _ _).2 ⟨hm, by simp, .inl rfl, fun _ => rfl⟩
  unfold mediaChange
  simp only
  split
  · exact diskSignal_ends _ (((h.moving hb).setBody
      (b' := .disk { d with
        media := media, jobs := [], acc := 0, intType := s.params.diskCodes.intMediaStatus }) hm).stays (ok _))
  · exact ((h.moving hb).setBody (b' := .disk { d with media := media, jobs := [], acc := 0 }) hm).stays (ok _)

/-! ### Display -/

theorem storeWords_stays : ∀ (ws : List Word) (base : Word) {s0 s : State}, Stays s0 s → Stays s0 (storeWords base ws s)
  | [], _, _, _, h => h
  | w :: ws, base, _, s, h =>
    storeWords_stays ws (base + 1)
      (h.of_eq rfl rfl rfl rfl (State.wf_writeMem s h.mid.core.memWf base w) h.mid.core.queueBound)

theorem viewOk_viewAt (base : Word) (len : Nat) : viewOk len (viewAt base len) = true := by
  unfold viewAt
  split
  · rfl
  · rename_i h
    have h' : ¬ base = 0#16 := h
    simp [viewOk, h']

theorem addCycles_stays {s0 s : State} (h : Stays s0 s) (n : Nat) : Stays s0 (s.addCycles n) :=
  h.of_eq rfl rfl rfl rfl h.mid.core.memWf h.mid.core.queueBound

theorem displayReceive_stays (i : Nat) (m : Word) {s0 s : State} {d : DisplayState} (h : Stays s0 s)
    (hb : s.bodyAt i = some (.display d)) : Stays s0 (displayReceive i d m s) := by
  have hd := h.mid.bodies i _ hb
  simp only [bodyOk, Bool.and_eq_true] at hd
  unfold displayReceive
  split
  · refine ((h.moving hb).setBody rfl).stays ?_
    simp [bodyOk, hd.1.2, hd.2, viewOk_viewAt]
  · refine ((h.moving hb).setBody rfl).stays ?_
    simp [bodyOk, hd.1.1, hd.2, viewOk_viewAt]
  · refine ((h.moving hb).setBody rfl).stays ?_
    simp [bodyOk, hd.1.1, hd.1.2, viewOk_viewAt]
  · refine ((h.moving hb).setBody rfl).stays ?_
    simp [bodyOk, hd.1.1, hd.1.2, hd.2]
  · exact addCycles_stays (storeWords_stays _ _ h) _
  · exact addCycles_stays (storeWords_stays _ _ h) _
  · exact h

/-! ### Any other device -/

theorem setHandleReg_stays (r : HandleReg) (v : Word) {s0 s : State} (h : Stays s0 s) :
    Stays s0 (setHandleReg r v s) := by
  cases r <;> exact h.of_eq rfl rfl rfl rfl h.mid.core.memWf h.mid.core.queueBound

theorem busAction_ends (a : BusAction) {s0 s : State} (h : Stays s0 s) :
    Ends (Stays s0) (Burnt s0) (busAction a s) := by
  cases a with
  | setReg r v => exact setHandleReg_stays r v h
  | setMem x v =>
    exact h.of_eq rfl rfl rfl rfl (State.wf_writeMem s h.mid.core.memWf x v) h.mid.core.queueBound
  | trigger m => exact trigger_ends m false h

theorem busActions_ends : ∀ (as : List BusAction) {s0 s : State}, Stays s0 s →
    Ends (Stays s0) (Burnt s0) (busActions as s)
  | [], _, _, h => h
  | a :: as, _, _, h => (busAction_ends a h).andThen fun _ ht => busActions_ends as ht

theorem receiveAction_ends (a : ReceiveAction) {s0 s : State} (h : Stays s0 s) :
    Ends (Stays s0) (Burnt s0) (receiveAction a s) := by
  cases a with
  | act b => exact busAction_ends b h
  | consume n => exact addCycles_stays h n

theorem receiveActions_ends : ∀ (as : List ReceiveAction) {s0 s : State}, Stays s0 s →
    Ends (Stays s0) (Burnt s0) (receiveActions as s)
  | [], _, _, h => h
  | a :: as, _, _, h => (receiveAction_ends a h).andThen fun _ ht => receiveActions_ends as ht

/-! ### The bus -/

/-- `receive` keeps the invariant, or fires (R290). -/
theorem deviceReceive_ends (i : Nat) {s0 s : State} (h : Stays s0 s) :
    Ends (Stays s0) (Burnt s0) (deviceReceive i s) := by
  unfold deviceReceive
  split
  · exact h
  · exact clockReceive_stays i _ h ‹_›
  · exact keyboardReceive_stays i _ h ‹_›
  · exact diskReceive_stays i _ h ‹_›
  · exact displayReceive_stays i _ h ‹_›
  · unfold otherReceive
    split
    · exact h
    · exact receiveActions_ends _ (((h.moving ‹_›).setBody rfl).stays rfl)

/-- `clock` keeps the invariant, or fires (R294). -/
theorem deviceClock_ends (i n : Nat) {s0 s : State} (h : Stays s0 s) :
    Ends (Stays s0) (Burnt s0) (deviceClock i n s) := by
  unfold deviceClock
  split
  · exact h
  · exact clockAdvance_ends i n h ‹_›
  · exact h
  · exact diskAdvance_ends i n h ‹_›
  · exact h
  · unfold otherAdvance
    split
    · exact h
    · exact busActions_ends _ (((h.moving ‹_›).setBody rfl).stays rfl)

theorem clockDevices_ends (n : Nat) : ∀ (is : List Nat) {s0 s : State}, Stays s0 s →
    Ends (Stays s0) (Burnt s0) (clockDevices n is s)
  | [], _, _, h => h
  | i :: is, _, _, h => (deviceClock_ends i n h).andThen fun _ ht => clockDevices_ends n is ht

/-- The clock broadcast keeps the invariant, or fires (R294). -/
theorem broadcast_ends {s0 s : State} (h : Stays s0 s) : Ends (Stays s0) (Burnt s0) (broadcast s) :=
  clockDevices_ends _ _ h

end Sys2Proof.Machine
end

