-- ==== Sys2Proof/Laws/PerInstr.lean ====
section
/-! SUPPORT. Per instruction: the word of a well-formed instruction is valid, is conditional exactly for the IF family, and tells the
instruction's length (R83, R101, R103). -/

namespace Sys2Proof.Laws.EncodedShape

/-- The next words an instruction takes (R83). -/
def nextWordsOf : Instr → Nat
  | .set b a => nextWords a + nextWords b
  | .add b a => nextWords a + nextWords b
  | .sub b a => nextWords a + nextWords b
  | .mul b a => nextWords a + nextWords b
  | .mli b a => nextWords a + nextWords b
  | .div b a => nextWords a + nextWords b
  | .dvi b a => nextWords a + nextWords b
  | .mod b a => nextWords a + nextWords b
  | .mdi b a => nextWords a + nextWords b
  | .and b a => nextWords a + nextWords b
  | .bor b a => nextWords a + nextWords b
  | .xor b a => nextWords a + nextWords b
  | .shr b a => nextWords a + nextWords b
  | .asr b a => nextWords a + nextWords b
  | .shl b a => nextWords a + nextWords b
  | .ifb b a => nextWords a + nextWords b
  | .ifc b a => nextWords a + nextWords b
  | .ife b a => nextWords a + nextWords b
  | .ifn b a => nextWords a + nextWords b
  | .ifg b a => nextWords a + nextWords b
  | .ifa b a => nextWords a + nextWords b
  | .ifl b a => nextWords a + nextWords b
  | .ifu b a => nextWords a + nextWords b
  | .adx b a => nextWords a + nextWords b
  | .sbx b a => nextWords a + nextWords b
  | .sti b a => nextWords a + nextWords b
  | .std b a => nextWords a + nextWords b
  | .jsr a => nextWords a
  | .int a => nextWords a
  | .iag a => nextWords a
  | .ias a => nextWords a
  | .rfi a => nextWords a
  | .iaq a => nextWords a
  | .hwn a => nextWords a
  | .hwq a => nextWords a
  | .hwi a => nextWords a

/-- The instruction is one of the IF family (R103). -/
def isIf : Instr → Bool
  | .set _ _ => false
  | .add _ _ => false
  | .sub _ _ => false
  | .mul _ _ => false
  | .mli _ _ => false
  | .div _ _ => false
  | .dvi _ _ => false
  | .mod _ _ => false
  | .mdi _ _ => false
  | .and _ _ => false
  | .bor _ _ => false
  | .xor _ _ => false
  | .shr _ _ => false
  | .asr _ _ => false
  | .shl _ _ => false
  | .ifb _ _ => true
  | .ifc _ _ => true
  | .ife _ _ => true
  | .ifn _ _ => true
  | .ifg _ _ => true
  | .ifa _ _ => true
  | .ifl _ _ => true
  | .ifu _ _ => true
  | .adx _ _ => false
  | .sbx _ _ => false
  | .sti _ _ => false
  | .std _ _ => false
  | .jsr _ => false
  | .int _ => false
  | .iag _ => false
  | .ias _ => false
  | .rfi _ => false
  | .iaq _ => false
  | .hwn _ => false
  | .hwq _ => false
  | .hwi _ => false

/-- Under every numbering. -/
def Statement (i : Instr) : Prop :=
  ∀ v : OpcodeValues, v.wf = true → i.wf = true →
    isInvalid v (encode v i) = false ∧ isConditional v (encode v i) = isIf i ∧
      lengthOf (encode v i) = 1 + nextWordsOf i

/-- What the 27 basic instructions share. -/
theorem basic_shape {v : OpcodeValues} (hv : v.wf = true) {o : BitVec 5} {mk : Operand → Operand → Instr}
    (hm : (o, mk) ∈ basicTable v) {b : Operand} (hb : b.fitsB = true) (a : Operand) :
    isInvalid v (encodeBasic o b a) = false ∧
      lengthOf (encodeBasic o b a) = 1 + (nextWords a + nextWords b) := by
  have h0 : ¬ o = 0#5 := OpcodeValues.ne_zero_of_wf hv hm
  simp [isInvalid, decode_encodeBasic hv hm hb, lengthOf, h0, hb, Nat.add_assoc]

/-- An instruction that is no conditional. -/
theorem plain_shape {v : OpcodeValues} (hv : v.wf = true) {o : BitVec 5} {mk : Operand → Operand → Instr}
    (hm : (o, mk) ∈ arithmeticTable v ++ carryTable v) {b : Operand} (hb : b.fitsB = true) (a : Operand) :
    isInvalid v (encodeBasic o b a) = false ∧ isConditional v (encodeBasic o b a) = false ∧
      lengthOf (encodeBasic o b a) = 1 + (nextWords a + nextWords b) :=
  have h := basic_shape hv (List.mem_append_right _ hm) hb a
  ⟨h.1, isConditional_plain hv hm (by simp), h.2⟩

/-- A conditional. -/
theorem if_shape {v : OpcodeValues} (hv : v.wf = true) {o : BitVec 5} {mk : Operand → Operand → Instr}
    (hm : (o, mk) ∈ conditionalTable v) {b : Operand} (hb : b.fitsB = true) (a : Operand) :
    isInvalid v (encodeBasic o b a) = false ∧ isConditional v (encodeBasic o b a) = true ∧
      lengthOf (encodeBasic o b a) = 1 + (nextWords a + nextWords b) :=
  have h := basic_shape hv (List.mem_append_left _ hm) hb a
  ⟨h.1, isConditional_conditional hv hm (by simp), h.2⟩

/-- A special instruction. -/
theorem special_shape {v : OpcodeValues} (hv : v.wf = true) {op : BitVec 5} {mk : Operand → Instr}
    (hm : (op, mk) ∈ specialTable v) (a : Operand) :
    isInvalid v (encodeSpecial op a) = false ∧ isConditional v (encodeSpecial op a) = false ∧
      lengthOf (encodeSpecial op a) = 1 + nextWords a := by
  simp [isInvalid, decode_encodeSpecial hv hm, isConditional_special, lengthOf]

theorem set (b a : Operand) : Statement (.set b a) := fun v hv h =>
  plain_shape hv (mk := Instr.set) (by simp [arithmeticTable]) h a

theorem add (b a : Operand) : Statement (.add b a) := fun v hv h =>
  plain_shape hv (mk := Instr.add) (by simp [arithmeticTable]) h a

theorem sub (b a : Operand) : Statement (.sub b a) := fun v hv h =>
  plain_shape hv (mk := Instr.sub) (by simp [arithmeticTable]) h a

theorem mul (b a : Operand) : Statement (.mul b a) := fun v hv h =>
  plain_shape hv (mk := Instr.mul) (by simp [arithmeticTable]) h a

theorem mli (b a : Operand) : Statement (.mli b a) := fun v hv h =>
  plain_shape hv (mk := Instr.mli) (by simp [arithmeticTable]) h a

theorem div (b a : Operand) : Statement (.div b a) := fun v hv h =>
  plain_shape hv (mk := Instr.div) (by simp [arithmeticTable]) h a

theorem dvi (b a : Operand) : Statement (.dvi b a) := fun v hv h =>
  plain_shape hv (mk := Instr.dvi) (by simp [arithmeticTable]) h a

theorem mod (b a : Operand) : Statement (.mod b a) := fun v hv h =>
  plain_shape hv (mk := Instr.mod) (by simp [arithmeticTable]) h a

theorem mdi (b a : Operand) : Statement (.mdi b a) := fun v hv h =>
  plain_shape hv (mk := Instr.mdi) (by simp [arithmeticTable]) h a

theorem and (b a : Operand) : Statement (.and b a) := fun v hv h =>
  plain_shape hv (mk := Instr.and) (by simp [arithmeticTable]) h a

theorem bor (b a : Operand) : Statement (.bor b a) := fun v hv h =>
  plain_shape hv (mk := Instr.bor) (by simp [arithmeticTable]) h a

theorem xor (b a : Operand) : Statement (.xor b a) := fun v hv h =>
  plain_shape hv (mk := Instr.xor) (by simp [arithmeticTable]) h a

theorem shr (b a : Operand) : Statement (.shr b a) := fun v hv h =>
  plain_shape hv (mk := Instr.shr) (by simp [arithmeticTable]) h a

theorem asr (b a : Operand) : Statement (.asr b a) := fun v hv h =>
  plain_shape hv (mk := Instr.asr) (by simp [arithmeticTable]) h a

theorem shl (b a : Operand) : Statement (.shl b a) := fun v hv h =>
  plain_shape hv (mk := Instr.shl) (by simp [arithmeticTable]) h a

theorem ifb (b a : Operand) : Statement (.ifb b a) := fun v hv h =>
  if_shape hv (mk := Instr.ifb) (by simp [conditionalTable]) h a

theorem ifc (b a : Operand) : Statement (.ifc b a) := fun v hv h =>
  if_shape hv (mk := Instr.ifc) (by simp [conditionalTable]) h a

theorem ife (b a : Operand) : Statement (.ife b a) := fun v hv h =>
  if_shape hv (mk := Instr.ife) (by simp [conditionalTable]) h a

theorem ifn (b a : Operand) : Statement (.ifn b a) := fun v hv h =>
  if_shape hv (mk := Instr.ifn) (by simp [conditionalTable]) h a

theorem ifg (b a : Operand) : Statement (.ifg b a) := fun v hv h =>
  if_shape hv (mk := Instr.ifg) (by simp [conditionalTable]) h a

theorem ifa (b a : Operand) : Statement (.ifa b a) := fun v hv h =>
  if_shape hv (mk := Instr.ifa) (by simp [conditionalTable]) h a

theorem ifl (b a : Operand) : Statement (.ifl b a) := fun v hv h =>
  if_shape hv (mk := Instr.ifl) (by simp [conditionalTable]) h a

theorem ifu (b a : Operand) : Statement (.ifu b a) := fun v hv h =>
  if_shape hv (mk := Instr.ifu) (by simp [conditionalTable]) h a

theorem adx (b a : Operand) : Statement (.adx b a) := fun v hv h =>
  plain_shape hv (mk := Instr.adx) (by simp [carryTable]) h a

theorem sbx (b a : Operand) : Statement (.sbx b a) := fun v hv h =>
  plain_shape hv (mk := Instr.sbx) (by simp [carryTable]) h a

theorem sti (b a : Operand) : Statement (.sti b a) := fun v hv h =>
  plain_shape hv (mk := Instr.sti) (by simp [carryTable]) h a

theorem std (b a : Operand) : Statement (.std b a) := fun v hv h =>
  plain_shape hv (mk := Instr.std) (by simp [carryTable]) h a

theorem jsr (a : Operand) : Statement (.jsr a) := fun v hv _ =>
  special_shape hv (mk := Instr.jsr) (by simp [specialTable]) a

theorem int (a : Operand) : Statement (.int a) := fun v hv _ =>
  special_shape hv (mk := Instr.int) (by simp [specialTable]) a

theorem iag (a : Operand) : Statement (.iag a) := fun v hv _ =>
  special_shape hv (mk := Instr.iag) (by simp [specialTable]) a

theorem ias (a : Operand) : Statement (.ias a) := fun v hv _ =>
  special_shape hv (mk := Instr.ias) (by simp [specialTable]) a

theorem rfi (a : Operand) : Statement (.rfi a) := fun v hv _ =>
  special_shape hv (mk := Instr.rfi) (by simp [specialTable]) a

theorem iaq (a : Operand) : Statement (.iaq a) := fun v hv _ =>
  special_shape hv (mk := Instr.iaq) (by simp [specialTable]) a

theorem hwn (a : Operand) : Statement (.hwn a) := fun v hv _ =>
  special_shape hv (mk := Instr.hwn) (by simp [specialTable]) a

theorem hwq (a : Operand) : Statement (.hwq a) := fun v hv _ =>
  special_shape hv (mk := Instr.hwq) (by simp [specialTable]) a

theorem hwi (a : Operand) : Statement (.hwi a) := fun v hv _ =>
  special_shape hv (mk := Instr.hwi) (by simp [specialTable]) a

end Sys2Proof.Laws.EncodedShape
end

