-- ==== Sys2Proof/Laws/Step.lean ====
section
/-! SUPPORT. What every instruction, every host call and the two ends of a step keep. -/

namespace Sys2Proof.Machine

/-! ### The frames -/

theorem resolve_stays (o : Operand) (pos : Pos) {s0 s : State} (h : Stays s0 s) :
    Stays s0 (resolve o pos s).2 :=
  h.of_eq (by simp) (by simp) (by simp) (by simp) (by simpa using h.mid.core.memWf)
    (by simpa using h.mid.core.queueBound)

theorem basicFrame_stays (cost : Nat) (b a : Operand) {s0 s : State} (h : Stays s0 s) :
    Stays s0 (basicFrame cost b a s).st :=
  addCycles_stays (resolve_stays b .dst (resolve_stays a .src h)) _

theorem specialFrame_stays (cost : Nat) (a : Operand) {s0 s : State} (h : Stays s0 s) :
    Stays s0 (specialFrame cost a s).st :=
  addCycles_stays (resolve_stays a .src h) _

theorem writeRef_stays (r : Ref) (v : Word) {s0 s : State} (h : Stays s0 s) : Stays s0 (writeRef r v s) :=
  h.of_eq (by simp) (by simp) (by simp) (by simp) (writeRef_wf r v s h.mid.core.memWf)
    (by simpa using h.mid.core.queueBound)

theorem writeValEx_stays (r : Ref) (x : ValEx) {s0 s : State} (h : Stays s0 s) : Stays s0 (writeValEx r x s) :=
  h.of_eq (by simp) (by simp) (by simp) (by simp) (writeValEx_wf r x s h.mid.core.memWf)
    (by simpa using h.mid.core.queueBound)

theorem stepIJ_stays (d : Word) {s0 s : State} (h : Stays s0 s) : Stays s0 (stepIJ d s) :=
  setGpr_stays (setGpr_stays h _ _) _ _

theorem push_stays (v : Word) {s0 s : State} (h : Stays s0 s) : Stays s0 (push v s) :=
  h.of_eq rfl rfl rfl rfl (State.wf_writeMem _ h.mid.core.memWf _ _) h.mid.core.queueBound

/-! ### The skip chain -/

/-- A skip chain moves PC, counts cycles and does nothing else; where it stops by a fault, PC is at the invalid word (R170, R252). -/
theorem skipChain_cases (fuel : Nat) (s : State) :
    (∃ n p, skipChain fuel s = .next ((s.setPc p).addCycles n)) ∨
    (∃ n p, skipChain fuel s =
        raise (.invalidOpcode (s.readMem p) p) ((s.setPc p).addCycles n) ∧
          isInvalid s.params.opcodes (s.readMem p) = true ∧ s.params.skipInvalid = .fire) ∨
    skipChain fuel s = .fault .skipChainHangs := by
  induction fuel generalizing s with
  | zero => exact .inr (.inr rfl)
  | succ fuel ih =>
    unfold skipChain
    simp only
    split
    · rename_i h
      simp only [Bool.and_eq_true, beq_iff_eq] at h
      exact .inr (.inl ⟨0, s.pc, rfl, h.1, h.2⟩)
    · split
      · rcases ih ((s.setPc (s.pc + BitVec.ofNat 16 (lengthOf (s.readMem s.pc)))).addCycles 1) with
          ⟨n, p, e⟩ | ⟨n, p, e, hi, hp⟩ | e
        · refine .inl ⟨1 + n, p, ?_⟩
          rw [e]
          simp [State.setPc, State.addCycles, Nat.add_assoc]
        · refine .inr (.inl ⟨1 + n, p, ?_, hi, hp⟩)
          rw [e]
          simp [State.setPc, State.addCycles, Nat.add_assoc, State.readMem]
        · exact .inr (.inr e)
      · exact .inl ⟨1, _, rfl⟩

theorem skip_ends {s0 s : State} (h : Stays s0 s) : Ends (Stays s0) (Burnt s0) (skip s) := by
  unfold skip
  rcases skipChain_cases memWords s with ⟨n, p, e⟩ | ⟨n, p, e, _⟩ | e <;> rw [e]
  · exact h.of_eq rfl rfl rfl rfl h.mid.core.memWf h.mid.core.queueBound
  · exact raise_ends _ (h.of_eq rfl rfl rfl rfl h.mid.core.memWf h.mid.core.queueBound)
  · trivial

theorem continueIf_ends (b : Bool) {s0 s : State} (h : Stays s0 s) :
    Ends (Stays s0) (Burnt s0) (continueIf b s) := by
  unfold continueIf
  split
  · exact h
  · exact skip_ends h

theorem returnFromInterrupt_stays {s0 s : State} (h : Stays s0 s) : Stays s0 (returnFromInterrupt s) := by
  unfold returnFromInterrupt
  exact Stays.dispatch (h.of_eq rfl rfl rfl rfl h.mid.core.memWf h.mid.core.queueBound)

/-! ### The instructions -/

/-- Every instruction keeps the invariant inside a step, or fires, or never ends; none is refused. -/
theorem exec_ends (i : Instr) {s0 s : State} (h : Stays s0 s) :
    Ends (Stays s0) (Burnt s0) (exec i s) := by
  cases i with
  | set b a => exact writeRef_stays _ _ (basicFrame_stays _ b a h)
  | add b a => exact writeValEx_stays _ _ (basicFrame_stays _ b a h)
  | sub b a => exact writeValEx_stays _ _ (basicFrame_stays _ b a h)
  | mul b a => exact writeValEx_stays _ _ (basicFrame_stays _ b a h)
  | mli b a => exact writeValEx_stays _ _ (basicFrame_stays _ b a h)
  | div b a => exact writeValEx_stays _ _ (basicFrame_stays _ b a h)
  | dvi b a => exact writeValEx_stays _ _ (basicFrame_stays _ b a h)
  | mod b a => exact writeRef_stays _ _ (basicFrame_stays _ b a h)
  | mdi b a => exact writeRef_stays _ _ (basicFrame_stays _ b a h)
  | and b a => exact writeRef_stays _ _ (basicFrame_stays _ b a h)
  | bor b a => exact writeRef_stays _ _ (basicFrame_stays _ b a h)
  | xor b a => exact writeRef_stays _ _ (basicFrame_stays _ b a h)
  | shr b a => exact writeValEx_stays _ _ (basicFrame_stays _ b a h)
  | asr b a => exact writeValEx_stays _ _ (basicFrame_stays _ b a h)
  | shl b a => exact writeValEx_stays _ _ (basicFrame_stays _ b a h)
  | ifb b a => exact continueIf_ends _ (basicFrame_stays _ b a h)
  | ifc b a => exact continueIf_ends _ (basicFrame_stays _ b a h)
  | ife b a => exact continueIf_ends _ (basicFrame_stays _ b a h)
  | ifn b a => exact continueIf_ends _ (basicFrame_stays _ b a h)
  | ifg b a => exact continueIf_ends _ (basicFrame_stays _ b a h)
  | ifa b a => exact continueIf_ends _ (basicFrame_stays _ b a h)
  | ifl b a => exact continueIf_ends _ (basicFrame_stays _ b a h)
  | ifu b a => exact continueIf_ends _ (basicFrame_stays _ b a h)
  | adx b a => exact writeValEx_stays _ _ (basicFrame_stays _ b a h)
  | sbx b a => exact writeValEx_stays _ _ (basicFrame_stays _ b a h)
  | sti b a => exact stepIJ_stays _ (writeRef_stays _ _ (basicFrame_stays _ b a h))
  | std b a => exact stepIJ_stays _ (writeRef_stays _ _ (basicFrame_stays _ b a h))
  | jsr a =>
    have hf := specialFrame_stays s.params.cost.jsr a h
    have hp := push_stays (specialFrame s.params.cost.jsr a s).st.pc hf
    exact hp.of_eq rfl rfl rfl rfl hp.mid.core.memWf hp.mid.core.queueBound
  | int a => exact trigger_ends _ true (specialFrame_stays _ a h)
  | iag a => exact writeRef_stays _ _ (specialFrame_stays _ a h)
  | ias a =>
    exact (specialFrame_stays s.params.cost.ias a h).of_eq rfl rfl rfl rfl
      (specialFrame_stays s.params.cost.ias a h).mid.core.memWf
      (specialFrame_stays s.params.cost.ias a h).mid.core.queueBound
  | rfi a => exact returnFromInterrupt_stays (specialFrame_stays _ a h)
  | iaq a =>
    have hf := specialFrame_stays s.params.cost.iaq a h
    have hq : ∀ b, Stays s0 ((specialFrame s.params.cost.iaq a s).st.setIaq b) := fun b =>
      hf.of_eq rfl rfl rfl rfl hf.mid.core.memWf hf.mid.core.queueBound
    simp only [exec, execIaq]
    split
    · exact hq true
    · exact (hq false).dispatch
  | hwn a => exact writeRef_stays _ _ (specialFrame_stays _ a h)
  | hwq a =>
    have hf := specialFrame_stays s.params.cost.hwq a h
    simp only [exec, execHwq]
    split
    · exact raise_ends _ hf
    · exact setGpr_stays (setGpr_stays (setGpr_stays (setGpr_stays (setGpr_stays hf _ _) _ _) _ _) _ _) _ _
  | hwi a =>
    have hf := specialFrame_stays s.params.cost.hwi a h
    simp only [exec, execHwi]
    split
    · exact raise_ends _ hf
    · exact deviceReceive_ends _ hf

/-! ### The two ends of a step -/

theorem Inv.stays {s : State} (h : Inv s) : Stays s s :=
  ⟨SameHost.refl s, ⟨h.host, h.memWf, h.queueBound, h.notOnFire⟩,
    (forall_devices_iff s fun b => bodyOk s.params b = true).1 h.devicesOk⟩

/-- After the dispatch at its end, what holds inside a step is the invariant between steps. -/
theorem Mid.inv {s : State} (h : Mid s)
    (hq : s.params.ia0Drop = .all → s.queue ≠ [] → s.iaq = true) : Inv s :=
  ⟨h.core.host, h.core.memWf, h.core.queueBound, hq, h.core.notOnFire,
    (forall_devices_iff s fun b => bodyOk s.params b = true).2 h.bodies⟩

theorem endStep_ends {s0 s : State} (h : Stays s0 s) :
    Ends (fun t => SameHost s0 t ∧ Inv t) (Burnt s0) (endStep s) :=
  (broadcast_ends h).andThen fun t ht =>
    ⟨ht.dispatch.same, ht.dispatch.mid.inv fun hd => dispatch_queue_held t (by simpa using hd)⟩

theorem fetchWord_stays {s : State} (h : Inv s) : Stays s (fetchWord s).2 :=
  h.stays.of_eq rfl rfl rfl rfl h.memWf h.queueBound

end Sys2Proof.Machine
end

