-- ==== Sys2Proof/Tests/Slice0.lean ====
section
/-! SUPPORT. The model's own tests. Expected values are the spec's: its test vectors (95_test_vectors.md) and the worked examples of the
rules. The witnesses at the end meet the hypotheses of the statements. -/

namespace Sys2Proof.Tests

open Sys2Proof.Machine Sys2Proof.Claims

/-! ## Helpers -/

/-- Some fields of the next state. -/
def look {α : Type} (r : Result) (f : State → α) : Option α :=
  match r with
  | .next s => some (f s)
  | .fault _ => none
  | .refused _ => none

/-- The kind of the fatal fault a step ends in, and the PC and SP it leaves. -/
def fired (r : Result) : Option (Fire × Word × Word) :=
  match r with
  | .fault (.fire k post) => some (k, post.pc, post.sp)
  | _ => none

/-- The budget a run leaves, and the PC and the fault of its machine. -/
def ended (r : RunResult) : Option (Int × Word × Option Fire) :=
  match r with
  | .ended b s => some (b, s.pc, s.fire)
  | _ => none

/-- The reset state with memory. -/
def withMem (mem : Memory) : State := { State.reset with mem := mem }

/-- The word at 0, with A, B and EX: the rows of L2.2, L2.3 and L2.5. -/
def sAB (w a b ex : Word) : State :=
  { withMem [(0, w)] with gpr := ⟨a, b, 0, 0, 0, 0, 0, 0⟩, ex := ex }

/-- A, EX, PC and the cost. -/
def outAB (r : Result) : Option (Word × Word × Word × Nat) := look r fun t => (t.gpr.a, t.ex, t.pc, t.cyc)

/-- A conditional at 0 and `SET B, 1` at 1 and 2: the rows of L2.4. -/
def sIf (w a b : Word) : State :=
  { withMem [(0, w), (1, 0x8821), (2, 0x8821)] with gpr := ⟨a, b, 0, 0, 0, 0, 0, 0⟩ }

/-- PC and the cost. -/
def pcCost (r : Result) : Option (Word × Nat) := look r fun t => (t.pc, t.cyc)

/-- The start of L2.1, with the words of one instruction at 0. -/
def sOps (words : List Word) : State :=
  { State.reset with
    mem := Memory.ofWordsFrom 0 words ++ [(0x100, 0x1000), (0x101, 0x1001), (0x102, 0x1002), (0x107, 0x1007),
      (0x300, 0x3333), (0xFFF0, 0xAAAA), (0xFFF1, 0xBBBB), (0xFFF3, 0xCCCC)]
    gpr := ⟨0x100, 0x101, 0x102, 0x103, 0x104, 0x105, 0x106, 0x107⟩
    sp := 0xFFF0
    ex := 0x0EEE }

/-- J, PC, SP and the cost. -/
def outJ (r : Result) : Option (Word × Word × Word × Nat) := look r fun t => (t.gpr.j, t.pc, t.sp, t.cyc)

/-- The reference devices, with small disks for the tests (2 words a sector, 4 sectors, 3 cycles a seek, 5 a transfer). -/
def clockDevice (c : ClockState) : Device := ⟨0, clockIdent, .clock c⟩

def keyboardDevice (k : KeyboardState) : Device := ⟨1, keyboardIdent, .keyboard k⟩

def diskDevice (d : DiskState) : Device := ⟨2, diskIdent, .disk d⟩

def displayDevice (d : DisplayState) : Device := ⟨3, displayIdent, .display d⟩

def otherDevice (o : OtherState) : Device := ⟨4, ⟨0, 0, 0, "another device"⟩, .other o⟩

def smallParams : Params :=
  { defaultParams with diskSectorWords := 2, diskSectors := 4, diskSeekCycles := 3, diskTransferCycles := 5 }

/-- The Clock and the Keyboard attached, `w` at 0, and A, B: the start of L2.7. -/
def sDev (w a b : Word) : State :=
  { withMem [(0, w)] with
    gpr := ⟨a, b, 0, 0, 0, 0x77, 0, 0⟩
    devices := [clockDevice clockReset, keyboardDevice keyboardReset] }

/-- One disk, small, its sector 1 holding two words; `HWI 0` at 0; A, B, C and X. -/
def sDisk (a b c x flags : Word) : State :=
  { withMem [(0, 0x8640), (0x1000, 0x11), (0x1001, 0x22)] with
    gpr := ⟨a, b, c, x, 0, 0, 0, 0⟩
    devices := [diskDevice { diskNew smallParams (some [(2, 0xAA), (3, 0xBB)]) with flags := flags }]
    params := smallParams }

/-! ## Ill-formed instructions -/

/-- A b field cannot spell an inline literal (R94). -/
theorem test_inline_b_is_ill_formed : (Instr.set (.inline 3) (.reg .a)).wf = false := by decide

theorem test_inline_b_is_ill_formed_conditional : (Instr.ife (.inline 31) .peek).wf = false := by decide

theorem test_inline_a_is_well_formed :
    (Instr.set (.reg .a) (.inline 3)).wf = true ∧ (Instr.jsr (.inline 0)).wf = true := by decide

/-! ## Decoding: words written out from the bit patterns of R81, R82, R99 and R100 -/

theorem test_decode_arithmetic :
    decode defaultOpcodes 0b000001_00000_00010#16 = .ok (.add (.reg .a) (.reg .b)) ∧
    decode defaultOpcodes 0b110001_00000_00001#16 = .ok (.set (.reg .a) (.inline 17)) ∧
    decode defaultOpcodes 0b011000_11011_00011#16 = .ok (.sub .sp .pushPop) ∧
    decode defaultOpcodes 0b011110_10000_00100#16 = .ok (.mul (.indNext .a) .memNext) ∧
    decode defaultOpcodes 0b000111_01111_00101#16 = .ok (.mli (.ind .j) (.reg .j)) ∧
    decode defaultOpcodes 0b011001_11010_00110#16 = .ok (.div .pick .peek) ∧
    decode defaultOpcodes 0b011101_11100_00111#16 = .ok (.dvi .pc .ex) ∧
    decode defaultOpcodes 0b100000_11111_01000#16 = .ok (.mod .litNext (.inline 0)) ∧
    decode defaultOpcodes 0b111111_11101_01001#16 = .ok (.mdi .ex (.inline 31)) := by decide

theorem test_decode_bitwise :
    decode defaultOpcodes 0b000010_00011_01010#16 = .ok (.and (.reg .x) (.reg .c)) ∧
    decode defaultOpcodes 0b000100_00101_01011#16 = .ok (.bor (.reg .z) (.reg .y)) ∧
    decode defaultOpcodes 0b000110_00111_01100#16 = .ok (.xor (.reg .j) (.reg .i)) ∧
    decode defaultOpcodes 0b010111_00000_01101#16 = .ok (.shr (.reg .a) (.indNext .j)) ∧
    decode defaultOpcodes 0b100010_00000_01110#16 = .ok (.asr (.reg .a) (.inline 2)) ∧
    decode defaultOpcodes 0b100101_00000_01111#16 = .ok (.shl (.reg .a) (.inline 5)) := by decide

theorem test_decode_conditional :
    decode defaultOpcodes 0b000001_00000_10000#16 = .ok (.ifb (.reg .a) (.reg .b)) ∧
    decode defaultOpcodes 0b000001_00000_10001#16 = .ok (.ifc (.reg .a) (.reg .b)) ∧
    decode defaultOpcodes 0b100010_00000_10010#16 = .ok (.ife (.reg .a) (.inline 2)) ∧
    decode defaultOpcodes 0b100001_00110_10011#16 = .ok (.ifn (.reg .i) (.inline 1)) ∧
    decode defaultOpcodes 0b000001_00000_10100#16 = .ok (.ifg (.reg .a) (.reg .b)) ∧
    decode defaultOpcodes 0b000001_00000_10101#16 = .ok (.ifa (.reg .a) (.reg .b)) ∧
    decode defaultOpcodes 0b000001_00000_10110#16 = .ok (.ifl (.reg .a) (.reg .b)) ∧
    decode defaultOpcodes 0b000001_00000_10111#16 = .ok (.ifu (.reg .a) (.reg .b)) := by decide

theorem test_decode_carry_and_stream :
    decode defaultOpcodes 0b000001_00000_11010#16 = .ok (.adx (.reg .a) (.reg .b)) ∧
    decode defaultOpcodes 0b000001_00000_11011#16 = .ok (.sbx (.reg .a) (.reg .b)) ∧
    decode defaultOpcodes 0b001111_01110_11110#16 = .ok (.sti (.ind .i) (.ind .j)) ∧
    decode defaultOpcodes 0b000001_00000_11111#16 = .ok (.std (.reg .a) (.reg .b)) := by decide

theorem test_decode_special :
    decode defaultOpcodes 0b011111_00001_00000#16 = .ok (.jsr .litNext) ∧
    decode defaultOpcodes 0b100110_01000_00000#16 = .ok (.int (.inline 6)) ∧
    decode defaultOpcodes 0b000000_01001_00000#16 = .ok (.iag (.reg .a)) ∧
    decode defaultOpcodes 0b011111_01010_00000#16 = .ok (.ias .litNext) ∧
    decode defaultOpcodes 0b100001_01011_00000#16 = .ok (.rfi (.inline 1)) ∧
    decode defaultOpcodes 0b100010_01100_00000#16 = .ok (.iaq (.inline 2)) ∧
    decode defaultOpcodes 0b000000_10000_00000#16 = .ok (.hwn (.reg .a)) ∧
    decode defaultOpcodes 0b000000_10001_00000#16 = .ok (.hwq (.reg .a)) ∧
    decode defaultOpcodes 0b100001_10010_00000#16 = .ok (.hwi (.inline 1)) := by decide

/-- R101, R83: invalid words, and the lengths of L2.1. -/
theorem test_decode_invalid_and_lengths :
    [0x0018, 0x6018, 0x0019, 0x001C, 0x001D, 0x0000, 0x0040, 0x00E0, 0x01A0, 0x0260, 0x03E0].all (isInvalid defaultOpcodes) = true ∧
    [0x8401, 0x7C01, 0x03C1, 0x7FC1, 0x7A01, 0x7C20, 0x0220].map lengthOf = [1, 2, 2, 3, 3, 2, 1] := by decide

/-! ## Operands (L2.1) -/

theorem test_operand_registers :
    outJ (step (sOps [0x00E1])) = some (0x100, 1, 0xFFF0, 1) ∧
    outJ (step (sOps [0x3CE1])) = some (0x1007, 1, 0xFFF0, 1) ∧
    outJ (step (sOps [0x40E1, 0x0002])) = some (0x1002, 2, 0xFFF0, 2) ∧
    outJ (step (sOps [0x44E1, 0xFFFF])) = some (0x1000, 2, 0xFFF0, 2) := by decide

theorem test_operand_stack :
    outJ (step (sOps [0x60E1])) = some (0xAAAA, 1, 0xFFF1, 1) ∧
    outJ (step (sOps [0x64E1])) = some (0xAAAA, 1, 0xFFF0, 1) ∧
    outJ (step (sOps [0x68E1, 0x0003])) = some (0xCCCC, 2, 0xFFF0, 2) := by decide

theorem test_operand_special_registers :
    outJ (step (sOps [0x6CE1])) = some (0xFFF0, 1, 0xFFF0, 1) ∧
    outJ (step (sOps [0x70E1])) = some (0x0001, 1, 0xFFF0, 1) ∧
    outJ (step (sOps [0x74E1])) = some (0x0EEE, 1, 0xFFF0, 1) := by decide

theorem test_operand_next_word_and_literals :
    outJ (step (sOps [0x78E1, 0x0300])) = some (0x3333, 2, 0xFFF0, 2) ∧
    outJ (step (sOps [0x7CE1, 0xBEEF])) = some (0xBEEF, 2, 0xFFF0, 2) ∧
    outJ (step (sOps [0x80E1])) = some (0xFFFF, 1, 0xFFF0, 1) ∧
    outJ (step (sOps [0xFCE1])) = some (0x001E, 1, 0xFFF0, 1) := by decide

/-- `SET PUSH, POP`, `ADD SP, POP`, `SET [A + 0x10], [0x300]` and `ADD 0x1234, 5`. -/
theorem test_operand_order :
    look (step (sOps [0x6301])) (fun t => (t.sp, t.readMem 0xFFF0)) = some (0xFFF0, 0xAAAA) ∧
    look (step (sOps [0x6362])) (fun t => (t.sp, t.ex)) = some (0xAA9B, 1) ∧
    look (step (sOps [0x7A01, 0x0300, 0x0010])) (fun t => (t.readMem 0x110, t.pc, t.cyc)) = some (0x3333, 3, 3) ∧
    look (step (sOps [0x9BE2, 0x1234])) (fun t => (t.ex, t.pc, t.cyc)) = some (0, 2, 3) := by decide

/-! ## Results (L2.2, L2.3, L2.5) -/

/-- `SET [0x1000], 0x1234`, and `SET PC, PC`. -/
theorem test_set :
    look (step (withMem [(0, 0x7FC1), (1, 0x1234), (2, 0x1000)])) (fun t => (t.readMem 0x1000, t.pc, t.cyc))
      = some (0x1234, 3, 3) ∧
    look (step (withMem [(0, 0x7381)])) (fun t => t.pc) = some 1 := by decide

theorem test_add : outAB (step (sAB 0x0402 0xFFFF 0x0001 0x0)) = some (0x0000, 0x0001, 1, 2) := by decide

theorem test_add_corner : outAB (step (sAB 0x0402 0x7FFF 0x0001 0x0)) = some (0x8000, 0x0000, 1, 2) := by decide

theorem test_sub : outAB (step (sAB 0x0403 0x0000 0x0001 0x0)) = some (0xFFFF, 0xFFFF, 1, 2) := by decide

theorem test_sub_corner : outAB (step (sAB 0x0403 0x8000 0x0001 0x0)) = some (0x7FFF, 0x0000, 1, 2) := by decide

theorem test_mul : outAB (step (sAB 0x0404 0xFFFF 0xFFFF 0x0)) = some (0x0001, 0xFFFE, 1, 2) := by decide

theorem test_mul_corner : outAB (step (sAB 0x0404 0x1234 0x0010 0x0)) = some (0x2340, 0x0001, 1, 2) := by decide

theorem test_mli : outAB (step (sAB 0x0405 0x8000 0xFFFF 0x0)) = some (0x8000, 0x0000, 1, 2) := by decide

theorem test_mli_corner : outAB (step (sAB 0x0405 0x0003 0xFFFD 0x0)) = some (0xFFF7, 0xFFFF, 1, 2) := by decide

theorem test_div : outAB (step (sAB 0x0406 0x000A 0x0003 0x0)) = some (0x0003, 0x5555, 1, 3) := by decide

theorem test_div_corner : outAB (step (sAB 0x0406 0x0005 0x0000 0x1234)) = some (0x0000, 0x0000, 1, 3) := by decide

theorem test_dvi : outAB (step (sAB 0x0407 0x0007 0xFFFE 0x0)) = some (0xFFFD, 0x8000, 1, 3) := by decide

theorem test_dvi_corner : outAB (step (sAB 0x0407 0x8000 0xFFFF 0x0)) = some (0x8000, 0x0000, 1, 3) := by decide

theorem test_mod : outAB (step (sAB 0x0408 0xFFFF 0x0010 0x5555)) = some (0x000F, 0x5555, 1, 3) := by decide

theorem test_mod_corner : outAB (step (sAB 0x0408 0x0005 0x0000 0x1234)) = some (0x0000, 0x1234, 1, 3) := by decide

theorem test_mdi : outAB (step (sAB 0x0409 0xFFF9 0x0010 0x5555)) = some (0xFFF9, 0x5555, 1, 3) := by decide

theorem test_mdi_corner : outAB (step (sAB 0x0409 0x0007 0xFFF0 0x5555)) = some (0x0007, 0x5555, 1, 3) := by decide

theorem test_and : outAB (step (sAB 0x040A 0xF0F0 0x0FF0 0x5555)) = some (0x00F0, 0x5555, 1, 1) := by decide

theorem test_bor : outAB (step (sAB 0x040B 0xF0F0 0x0FF0 0x5555)) = some (0xFFF0, 0x5555, 1, 1) := by decide

theorem test_xor : outAB (step (sAB 0x040C 0x1234 0xFFFF 0x5555)) = some (0xEDCB, 0x5555, 1, 1) := by decide

theorem test_shr : outAB (step (sAB 0x040D 0x1234 0x0004 0x0)) = some (0x0123, 0x4000, 1, 1) := by decide

theorem test_shr_corner : outAB (step (sAB 0x040D 0x8000 0x001F 0x0)) = some (0x0000, 0x0001, 1, 1) := by decide

theorem test_asr : outAB (step (sAB 0x040E 0x8000 0x0010 0x0)) = some (0xFFFF, 0x8000, 1, 1) := by decide

theorem test_asr_corner : outAB (step (sAB 0x040E 0x8000 0x0020 0x0)) = some (0xFFFF, 0xFFFF, 1, 1) := by decide

theorem test_shl : outAB (step (sAB 0x040F 0x1234 0x0004 0x0)) = some (0x2340, 0x0001, 1, 1) := by decide

theorem test_shl_corner : outAB (step (sAB 0x040F 0xFFFF 0x0011 0x0)) = some (0x0000, 0xFFFE, 1, 1) := by decide

theorem test_adx : outAB (step (sAB 0x041A 0xFFFF 0xFFFF 0xFFFF)) = some (0xFFFD, 0x0001, 1, 3) := by decide

theorem test_adx_corner : outAB (step (sAB 0x041A 0x0001 0x0002 0x0003)) = some (0x0006, 0x0000, 1, 3) := by decide

theorem test_sbx : outAB (step (sAB 0x041B 0x0000 0x0001 0x0000)) = some (0xFFFF, 0xFFFF, 1, 3) := by decide

theorem test_sbx_corner : outAB (step (sAB 0x041B 0x0005 0x0003 0xFFFF)) = some (0x0001, 0x0001, 1, 3) := by decide

/-- `ADD EX, 1` with EX = 5: EX ends as the carry (D15). -/
theorem test_add_ex : look (step (sAB 0x8BA2 0 0 5)) (fun t => (t.ex, t.cyc)) = some (0, 2) := by decide

/-- The other readings: ADX under highWord (D13) and SHL under mask32 (I8). -/
theorem test_other_readings :
    look (step { sAB 0x041A 0xFFFF 0xFFFF 0xFFFF with params := { defaultParams with adxExMode := .highWord } })
      (fun t => (t.gpr.a, t.ex)) = some (0xFFFD, 2) ∧
    look (step { sAB 0x040F 0xFFFF 0x0020 0 with params := { defaultParams with shiftSemantics := .mask32 } })
      (fun t => (t.gpr.a, t.ex)) = some (0xFFFF, 0) := by decide

/-- A numbering that is not the default: the values of ADD and SBX changed about (I19). -/
def sbxForAdd : OpcodeValues := { defaultOpcodes with add := 0x1B, sbx := 0x02 }

/-- I19: under that numbering 0x041B adds, 0x0402 is SBX, and what is no value stays invalid. -/
theorem test_opcode_values :
    outAB (step { sAB 0x041B 0xFFFF 0x0001 0 with params := { defaultParams with opcodes := sbxForAdd } })
      = some (0x0000, 0x0001, 1, 2) ∧
    decode sbxForAdd 0x0402 = .ok (.sbx (.reg .a) (.reg .b)) ∧ isInvalid sbxForAdd 0x0018 = true ∧
    encode sbxForAdd (.add (.reg .a) (.reg .b)) = 0x041B := by decide

/-- `STI [I], [J]`, and `STI I, 9` with I = 5. -/
theorem test_sti :
    look (step { withMem [(0, 0x3DDE), (0x200, 0x1111)] with gpr := ⟨0, 0, 0, 0, 0, 0, 0x300, 0x200⟩ })
      (fun t => (t.readMem 0x300, t.gpr.i, t.gpr.j, t.cyc)) = some (0x1111, 0x301, 0x201, 2) ∧
    look (step { withMem [(0, 0xA8DE)] with gpr := ⟨0, 0, 0, 0, 0, 0, 5, 0⟩ }) (fun t => (t.gpr.i, t.gpr.j))
      = some (0x000A, 1) := by decide

/-- `STD A, B`. -/
theorem test_std :
    look (step { withMem [(0, 0x041F)] with gpr := ⟨0, 7, 0, 0, 0, 0, 0, 5⟩ })
      (fun t => (t.gpr.a, t.gpr.i, t.gpr.j, t.cyc)) = some (7, 0xFFFF, 4, 2) := by decide

/-! ## Conditionals (L2.4) -/

theorem test_ifb_passes : pcCost (step (sIf 0x0410 0x00FF 0x0F0F)) = some (1, 2) := by decide

theorem test_ifb_skips : pcCost (step (sIf 0x0410 0x000F 0x00F0)) = some (2, 3) := by decide

theorem test_ifc_passes : pcCost (step (sIf 0x0411 0x000F 0x00F0)) = some (1, 2) := by decide

theorem test_ifc_skips : pcCost (step (sIf 0x0411 0x0005 0x0005)) = some (2, 3) := by decide

theorem test_ife_passes : pcCost (step (sIf 0x0412 0x0005 0x0005)) = some (1, 2) := by decide

theorem test_ife_skips : pcCost (step (sIf 0x0412 0xFFFF 0x0001)) = some (2, 3) := by decide

theorem test_ifn_passes : pcCost (step (sIf 0x0413 0xFFFF 0x0001)) = some (1, 2) := by decide

theorem test_ifn_skips : pcCost (step (sIf 0x0413 0x0000 0x0000)) = some (2, 3) := by decide

theorem test_ifg_passes : pcCost (step (sIf 0x0414 0xFFFF 0x0001)) = some (1, 2) := by decide

theorem test_ifg_skips : pcCost (step (sIf 0x0414 0x0001 0xFFFF)) = some (2, 3) := by decide

theorem test_ifa_passes : pcCost (step (sIf 0x0415 0x7FFF 0x8000)) = some (1, 2) := by decide

theorem test_ifa_skips : pcCost (step (sIf 0x0415 0xFFFF 0x0001)) = some (2, 3) := by decide

theorem test_ifl_passes : pcCost (step (sIf 0x0416 0x7FFF 0x8000)) = some (1, 2) := by decide

theorem test_ifl_skips : pcCost (step (sIf 0x0416 0xFFFF 0x0001)) = some (2, 3) := by decide

theorem test_ifu_passes : pcCost (step (sIf 0x0417 0xFFFF 0x0001)) = some (1, 2) := by decide

theorem test_ifu_skips : pcCost (step (sIf 0x0417 0x7FFF 0x8000)) = some (2, 3) := by decide

/-- Two conditionals skipped; a conditional of three words skipped, SP untouched. -/
theorem test_skip_chain :
    pcCost (step (withMem [(0, 0x8812), (1, 0x8812), (2, 0x8821), (3, 0x8821)])) = some (3, 4) ∧
    look (step (withMem [(0, 0x8812), (1, 0x7A13), (2, 0x200), (3, 0x100), (4, 0x301), (5, 0x8821)]))
      (fun t => (t.pc, t.cyc, t.sp)) = some (5, 4, 0) := by decide

/-- Both values of SKIP_INVALID (D6), and `IFE PUSH, 1`. -/
theorem test_skip_invalid :
    pcCost (step (withMem [(0, 0x8812), (1, 0x18), (2, 0x8821)])) = some (2, 3) ∧
    fired (step { withMem [(0, 0x8812), (1, 0x18), (2, 0x8821)] with
      params := { defaultParams with skipInvalid := .fire } }) = some (.invalidOpcode 0x18 1, 1, 0) ∧
    look (step (withMem [(0, 0x8B12), (1, 0x8821)])) (fun t => (t.pc, t.cyc, t.sp)) = some (2, 3, 0xFFFF) := by decide

/-! ## Control (L2.6) -/

/-- `JSR 0x1234` and `JSR SP`. -/
theorem test_jsr :
    look (step (withMem [(0, 0x7C20), (1, 0x1234)])) (fun t => (t.readMem 0xFFFF, t.sp, t.pc, t.cyc))
      = some (2, 0xFFFF, 0x1234, 4) ∧
    look (step { withMem [(0, 0x6C20)] with sp := 0x100 }) (fun t => (t.pc, t.sp, t.readMem 0xFF, t.cyc))
      = some (0x100, 0xFF, 1, 3) := by decide

/-- `INT 5` at address 2. -/
theorem test_int :
    look (step { withMem [(2, 0x9900)] with pc := 2, ia := 0x10, gpr := ⟨7, 0, 0, 0, 0, 0, 0, 0⟩ })
      (fun t => ((t.readMem 0xFFFF, t.readMem 0xFFFE, t.sp, t.pc), t.gpr.a, t.iaq, t.queue, t.cyc))
      = some ((3, 7, 0xFFFE, 0x10), 5, true, [], 4) := by decide

/-- `INT 5` with IA = 0 loses every message (D35). -/
theorem test_int_discards :
    look (step { withMem [(0, 0x9900)] with iaq := true, queue := [0x11, 0x12] })
      (fun t => (t.queue, t.iaq, t.pc, t.cyc)) = some ([], false, 1, 4) := by decide

/-- `IAG A` and `IAG POP`. -/
theorem test_iag :
    look (step { withMem [(0, 0x0120)] with ia := 0x100 }) (fun t => (t.gpr.a, t.cyc)) = some (0x100, 1) ∧
    look (step { withMem [(0, 0x6120)] with ia := 0x1234, sp := 0xFFFE }) (fun t => (t.readMem 0xFFFE, t.sp))
      = some (0x1234, 0xFFFF) := by decide

/-- `IAS 0x0100`. -/
theorem test_ias :
    look (step (withMem [(0, 0x7D40), (1, 0x100)])) (fun t => (t.ia, t.cyc)) = some (0x100, 2) := by decide

/-- `RFI 0` with nothing waiting. -/
theorem test_rfi :
    look (step { withMem [(0, 0x8560), (0xFFFE, 7), (0xFFFF, 3)] with sp := 0xFFFE, iaq := true })
      (fun t => (t.gpr.a, t.pc, t.sp, t.iaq, t.cyc)) = some (7, 3, 0, false, 3) := by decide

/-- `RFI 0` with a message waiting: its handler is entered at once. -/
theorem test_rfi_next :
    look (step { withMem [(0, 0x8560), (0xFFFE, 7), (0xFFFF, 3)] with
      sp := 0xFFFE, iaq := true, ia := 0x40, queue := [0x11] })
      (fun t => ((t.readMem 0xFFFF, t.readMem 0xFFFE, t.sp, t.pc), t.gpr.a, t.iaq, t.queue))
      = some ((3, 7, 0xFFFE, 0x40), 0x11, true, []) := by decide

/-- `IAQ 1`, and `IAQ 0` with a message held. -/
theorem test_iaq :
    look (step (withMem [(0, 0x8980)])) (fun t => (t.iaq, t.cyc)) = some (true, 2) ∧
    look (step { withMem [(0, 0x8580)] with ia := 0x40, iaq := true, queue := [0x11], gpr := ⟨5, 0, 0, 0, 0, 0, 0, 0⟩ })
      (fun t => ((t.readMem 0xFFFF, t.readMem 0xFFFE, t.sp, t.pc), t.gpr.a, t.iaq, t.cyc))
      = some ((1, 5, 0xFFFE, 0x40), 0x11, true, 2) := by decide

/-! ## Hardware (L2.7, L2.9, L1-7) -/

theorem test_hwn : look (step (sDev 0x0200 0 0)) (fun t => (t.gpr.a, t.cyc)) = some (2, 2) := by decide

/-- `HWQ 0` and `HWQ A`. -/
theorem test_hwq :
    look (step (sDev 0x8620 0 0)) (fun t => ((t.gpr.a, t.gpr.b, t.gpr.c), t.gpr.x, t.gpr.y, t.cyc))
      = some ((0xB402, 0x12D0, 1), 0, 0, 4) ∧
    look (step (sDev 0x0220 1 0)) (fun t => ((t.gpr.a, t.gpr.b, t.gpr.c), t.gpr.x, t.gpr.y, t.gpr.z))
      = some ((0x7406, 0x30CF, 1), 0, 0, 0x77) := by decide

/-- `HWQ 2` with two devices; `HWI 0x0005` with none, its next word consumed. -/
theorem test_no_such_device :
    fired (step (sDev 0x8E20 0 0)) = some (.noSuchDevice 2, 1, 0) ∧
    fired (step (withMem [(0, 0x7E40), (1, 5)])) = some (.noSuchDevice 5, 2, 0) := by decide

/-- `HWI 0` to the Clock with A = 2. -/
theorem test_hwi_clock :
    look (step (sDev 0x8640 2 0x42)) (fun t => (t.bodyAt 0, t.cyc)) = some (some (.clock ⟨0, 0, 0, 0x42⟩), 4) := by
  decide

/-- `HWI 0` to the Display with A = 5 and B = 0xFFF8: the palette wraps (R321). -/
theorem test_hwi_palette :
    look (step { withMem [(0x200, 0x8640)] with
      pc := 0x200, gpr := ⟨5, 0xFFF8, 0, 0, 0, 0, 0, 0⟩, devices := [displayDevice displayReset] })
      (fun t => (t.readMem 0xFFF9, t.readMem 0, t.readMem 7, t.cyc)) = some (0x000A, 0x0555, 0x0FFF, 20) := by decide

/-- A blocking write of one sector at sector 2: 2 seeks and a transfer on top of HWI's 4 cycles. -/
theorem test_disk_write :
    look (step (sDisk 0x11 2 1 0x1000 0)) (fun t => (t.gpr.a, t.cyc)) = some (0, 15) ∧
    look (step (sDisk 0x11 2 1 0x1000 0)) (fun t => t.bodyAt 0)
      = some (some (.disk ⟨some [(2, 0xAA), (3, 0xBB), (4, 0x11), (5, 0x22)], 0, 0, 0, 2, [], 0⟩)) := by decide

/-- A blocking read of sector 1; a request past the last sector; a request while jobs wait (R312). -/
theorem test_disk_read :
    look (step (sDisk 0x10 1 1 0x2000 0)) (fun t => (t.gpr.a, t.readMem 0x2000, t.readMem 0x2001, t.cyc))
      = some (0, 0xAA, 0xBB, 12) ∧
    look (step (sDisk 0x10 4 1 0x2000 0)) (fun t => (t.gpr.a, t.readMem 0x2000)) = some (2, 0) ∧
    look (step (sDisk 0x10 2 1 0x2000 1)) (fun t => (t.gpr.a, t.bodyAt 0))
      = some (0, some (.disk ⟨some [(2, 0xAA), (3, 0xBB)], 1, 0, 0, 0, [⟨.read, 2, 0x2000⟩], 4⟩)) := by decide

/-- R303: B = 1; 1666 cycles give no tick and acc60 = 99960, one more gives a tick and acc60 = 20. -/
theorem test_clock_ticks :
    look (deviceClock 0 1666 { sDev 0 0 0 with devices := [clockDevice ⟨1, 0, 0, 0⟩] }) (fun t => t.bodyAt 0)
      = some (some (.clock ⟨1, 0, 99960, 0⟩)) ∧
    look (deviceClock 0 1 { sDev 0 0 0 with devices := [clockDevice ⟨1, 0, 99960, 0⟩] }) (fun t => t.bodyAt 0)
      = some (some (.clock ⟨1, 1, 20, 0⟩)) := by decide

/-- L2.8: a key event enters the handler between steps; the next one is held. -/
theorem test_key_event :
    look (hostCall (.keyDown 1 0x41)
      { sDev 0 0 0 with ia := 0x10, devices := [clockDevice clockReset, keyboardDevice ⟨[], [], 3⟩] })
      (fun t => (t.sp, t.pc, t.gpr.a, t.iaq, t.bodyAt 1))
      = some (0xFFFE, 0x10, 3, true, some (.keyboard ⟨[0x41], [0x41], 3⟩)) ∧
    look (hostCall (.keyDown 1 0x42)
      { sDev 0 0 0 with ia := 0x10, iaq := true, devices := [clockDevice clockReset, keyboardDevice ⟨[], [], 3⟩] })
      (fun t => (t.sp, t.queue)) = some (0, [3]) := by decide

/-! ## The machine -/

/-- R331: with no image the first step fires INVALID_OPCODE, and leaves PC = 1. -/
theorem test_reset_first_step : fired (step State.reset) = some (.invalidOpcode 0 0, 1, 0) := by decide

theorem test_reset_memory_is_canonical : Memory.wf memWords State.reset.mem = true := by decide

/-- `ADD A, B` placed in the reset state is the instruction the next step runs. -/
theorem test_with_fetch_word :
    outAB (step (State.reset.withFetchWord 16 0x0402)) = some (0, 0, 1, 2) ∧
    decodeTableWord 16 0x0402 = some (.add (.reg .a) (.reg .b)) ∧ decodeTableWord 16 0x0018 = none := by decide

/-- A reset after a fire: the image is back, the devices are reset (R330). -/
theorem test_reset_after_fire :
    let t := resetMachine { sDev 0 9 9 with
      fire := some (.noSuchDevice 3), image := [0x8401], devices := [clockDevice ⟨5, 6, 7, 8⟩] }
    t.fire = none ∧ t.mem = [(0, 0x8401)] ∧ t.gpr.a = 0 ∧ t.bodyAt 0 = some (.clock clockReset) := by decide

/-! ## Witnesses: a concrete state and operands that meet all hypotheses of a statement, one for each clause -/

theorem next_of_look {r : Result} (h : look r (fun _ => ()) = some ()) : ∃ t, r = .next t := by
  cases r with
  | next s => exact ⟨s, rfl⟩
  | fault e => cases h
  | refused e => cases h

/-- A well-formed instruction with two next words. -/
theorem witness_DecodeOfEncode :
    sbxForAdd.wf = true ∧ ∃ i : Instr, i.wf = true ∧ i = .set (.indNext .j) .pick := ⟨by decide, _, by decide, rfl⟩

theorem witness_EncodeOfDecode : decode defaultOpcodes 0x7A01 = .ok (.set (.indNext .a) .memNext) := by decide

theorem witness_InvalidEncodingFiresAtDecode :
    (withMem [(0, 0x0018)]).fire = none ∧
      isInvalid (withMem [(0, 0x0018)]).params.opcodes ((withMem [(0, 0x0018)]).readMem (withMem [(0, 0x0018)]).pc) = true := by
  decide

theorem witness_SpecialRegisterAndLiteralOperands :
    0x20 ≤ (0x20#6).toNat ∧ 0x20 ≤ (0x3F#6).toNat := by decide

theorem witness_RegistersAndMemoryHoldWhatIsWritten :
    Memory.wf memWords (withMem [(0, 0x0018), (0xFFFF, 1)]).mem = true := by decide

theorem witness_WriteOrderMattersOnlyForEx (mk : Operand → Operand → Instr) (h : mk ∈ exWriters) :
    ∃ (b a : Operand) (t u : State), b ≠ .ex ∧
      exec (mk b a) { State.reset with params := { State.reset.params with exWriteOrder := .destThenEx } } = .next t ∧
      exec (mk b a) { State.reset with params := { State.reset.params with exWriteOrder := .exThenDest } } = .next u := by
  simp only [exWriters, List.mem_cons, List.not_mem_nil, or_false] at h
  rcases h with rfl | rfl | rfl | rfl | rfl | rfl | rfl | rfl | rfl | rfl | rfl <;>
    exact ⟨.reg .a, .reg .b, _, _, by decide, rfl, rfl⟩

theorem witness_QuotientAndRemainderFit :
    (0xFFFE : Word) ≠ 0 ∧ 0 < (mdiVal 7 0xFFFE).toInt ∧ (mdiVal 0xFFF9 2).toInt < 0 ∧
      (dviVal 0x8000 0xFFFF).val.toInt ≠ ((0x8000 : Word).toInt).tdiv ((0xFFFF : Word).toInt) := by decide

theorem witness_ShiftedBitsGoToEx : (16 ≤ 16 ∧ 0 ≤ 16) ∧ 32 ≤ 32 := by decide

/-- The tests of the eight conditionals, each passing and each failing. -/
theorem witness_ConditionalResults :
    ((0x00FF : Word) &&& 0x0F0F ≠ 0 ∧ ¬ (0x000F : Word) &&& 0x00F0 ≠ 0) ∧
    ((0x0005 : Word) = 5 ∧ (0x0005 : Word) ≠ 6) ∧
    ((1 : Word).toNat < (0xFFFF : Word).toNat ∧ ¬ (0xFFFF : Word).toNat < (1 : Word).toNat) ∧
    ((0xFFFF : Word).toInt < (1 : Word).toInt ∧ ¬ (1 : Word).toInt < (0xFFFF : Word).toInt) := by decide

/-- A chain of one conditional and a SET, the same with an invalid word, and the same under SKIP_INVALID = fire. -/
def sChain (last : Word) (mode : SkipInvalid) : State :=
  { withMem [(0, 0x8812), (1, last)] with params := { defaultParams with skipInvalid := mode } }

theorem sChain_conditionals (last : Word) (mode : SkipInvalid) : conditionalsFor (sChain last mode) 1 := by
  intro k hk
  obtain rfl : k = 0 := by omega
  have h : (sChain last mode).readMem 0 = 0x8812 := by simp [sChain, withMem, State.readMem, Memory.read]
  rw [show skipAddress (sChain last mode) (sChain last mode).pc 0 = 0 from rfl, h]
  show isConditional defaultOpcodes 0x8812 = true
  decide

/-- Memory that is `IFE A, 2` at every address. -/
def sEndless : State := withMem (Memory.ofWordsFrom 0 (List.replicate 65536 0x8812))

/-- A chain that never ends: the right side of the equivalence. -/
theorem witness_SkipChainHangsExactlyWhenEndless : ∀ n, conditionalsFor sEndless n := by
  intro n k _
  have key : ∀ m x : Nat, x < m → Memory.read (Memory.ofWordsFrom 0 (List.replicate m 0x8812)) x = 0x8812 :=
    fun m x hx => by simp [Memory.read_ofWordsFrom, List.getD_eq_getElem?_getD, hx]
  have h : ∀ x : Word, sEndless.readMem x = 0x8812 := fun x => key 65536 x.toNat x.isLt
  rw [h]
  show isConditional defaultOpcodes 0x8812 = true
  decide

theorem witness_SkipChainPassesConditionals :
    conditionalsFor (sChain 0x8821 .fire) 1 ∧
      isConditional defaultOpcodes ((sChain 0x8821 .fire).readMem (skipAddress (sChain 0x8821 .fire) 0 1)) = false ∧
      isInvalid defaultOpcodes ((sChain 0x8821 .fire).readMem (skipAddress (sChain 0x8821 .fire) 0 1)) = false :=
  ⟨sChain_conditionals _ _, by decide, by decide⟩

theorem witness_SkipChainPassesConditionals_invalid :
    conditionalsFor (sChain 0x0018 .skip) 1 ∧
      isConditional defaultOpcodes ((sChain 0x0018 .skip).readMem (skipAddress (sChain 0x0018 .skip) 0 1)) = false ∧
      isInvalid defaultOpcodes ((sChain 0x0018 .skip).readMem (skipAddress (sChain 0x0018 .skip) 0 1)) = true ∧
      (sChain 0x0018 .skip).params.skipInvalid = .skip :=
  ⟨sChain_conditionals _ _, by decide, by decide, rfl⟩

theorem witness_SkipChainPassesConditionals_fire :
    conditionalsFor (sChain 0x0018 .fire) 1 ∧
      isInvalid defaultOpcodes ((sChain 0x0018 .fire).readMem (skipAddress (sChain 0x0018 .fire) 0 1)) = true ∧
      (sChain 0x0018 .fire).params.skipInvalid = .fire :=
  ⟨sChain_conditionals _ _, by decide, rfl⟩

/-- IA0_DROP = head, with three messages held. -/
def headDrop : State :=
  { withMem [(0, 0x9900)] with queue := [1, 2], iaq := true, params := { defaultParams with ia0Drop := .head } }

/-- I3: `INT 5` with IA = 0 then loses its own message only; the dispatch at the end of the step the next one. -/
theorem test_int_drops_head :
    look (exec (.int (.inline 6)) headDrop) (fun t => (t.queue, t.iaq)) = some ([1, 2], false) ∧
    look (step headDrop) (fun t => (t.queue, t.iaq, t.pc)) = some ([2], false, 1) := by decide

theorem witness_IntEntersOrDiscards :
    let s := { State.reset with ia := 0xFFFF }
    (s.fire = none ∧ s.ia ≠ 0) ∧ State.reset.fire = none ∧ State.reset.ia = 0 ∧ State.reset.params.ia0Drop = .all ∧
    headDrop.ia = 0 ∧ headDrop.params.ia0Drop = .head := by
  decide

theorem witness_RfiRestoresAThenPc : State.reset.queue = [] := rfl

theorem witness_IaqSetsOrReleases :
    (srcRef (.inline 0) State.reset).u ≠ 0 ∧ (srcRef (.inline 1) State.reset).u = 0 := by decide

/-- The index just past the last device, and the last device. -/
theorem witness_HwnHwqReportDevices :
    (sDev 0 0 0).devices.length ≤ (srcRef (.inline 3) (sDev 0 0 0)).u.toNat ∧
      (sDev 0 0 0).devices[(srcRef (.inline 2) (sDev 0 0 0)).u.toNat]? = some (keyboardDevice keyboardReset) := by
  decide

/-- One of each device, in the order Clock, Keyboard, Disk, Display, other. -/
def sAll : State :=
  { withMem [(0, 0x8401)] with
    devices := [clockDevice ⟨1, 0, 0, 0⟩, keyboardDevice keyboardReset, diskDevice (diskNew smallParams (some [(2, 0xAA)])),
      displayDevice displayReset, otherDevice ⟨[[.consume 1]], []⟩]
    params := smallParams }

theorem witness_HwiRunsReferenceDevice :
    sAll.devices.length ≤ (srcRef (.inline 6) sAll).u.toNat ∧
    sAll.bodyAt (srcRef (.inline 1) sAll).u.toNat = some (.clock ⟨1, 0, 0, 0⟩) ∧
    sAll.bodyAt (srcRef (.inline 2) sAll).u.toNat = some (.keyboard keyboardReset) ∧
    sAll.bodyAt (srcRef (.inline 3) sAll).u.toNat = some (.disk (diskNew smallParams (some [(2, 0xAA)]))) ∧
    sAll.bodyAt (srcRef (.inline 4) sAll).u.toNat = some (.display displayReset) ∧
    sAll.bodyAt (srcRef (.inline 5) sAll).u.toNat = some (.other ⟨[[.consume 1]], []⟩) := by decide

theorem witness_PlainWritersFrame (mk : Operand → Operand → Instr) (h : mk ∈ plainWriters ++ streamWriters) :
    ∃ t, exec (mk (.ind .a) (.reg .b)) State.reset = .next t := by
  simp only [plainWriters, streamWriters, List.cons_append, List.nil_append, List.mem_cons, List.not_mem_nil,
    or_false] at h
  rcases h with rfl | rfl | rfl | rfl | rfl | rfl | rfl | rfl <;> exact ⟨_, rfl⟩

theorem witness_ExWritersFrame (mk : Operand → Operand → Instr) (h : mk ∈ exWriters) :
    ∃ t, exec (mk (.ind .a) (.reg .b)) State.reset = .next t := by
  simp only [exWriters, List.mem_cons, List.not_mem_nil, or_false] at h
  rcases h with rfl | rfl | rfl | rfl | rfl | rfl | rfl | rfl | rfl | rfl | rfl <;> exact ⟨_, rfl⟩

theorem witness_ConditionalsFrame (mk : Operand → Operand → Instr) (h : mk ∈ conditionals) :
    ∃ t, exec (mk (.reg .a) (.reg .b)) (sIf 0x8821 1 2) = .next t := by
  simp only [conditionals, List.mem_cons, List.not_mem_nil, or_false] at h
  rcases h with rfl | rfl | rfl | rfl | rfl | rfl | rfl | rfl <;> exact next_of_look (by decide)

theorem witness_SpecialWritersFrame :
    (∃ t, exec (.jsr (.reg .a)) sAll = .next t) ∧ (∃ t, exec (.iag (.reg .a)) sAll = .next t) ∧
    (∃ t, exec (.hwn (.ind .a)) sAll = .next t) ∧ (∃ t, exec (.ias .litNext) sAll = .next t) ∧
    ∃ t, exec (.hwq (.inline 1)) sAll = .next t :=
  ⟨next_of_look (by decide), next_of_look (by decide), next_of_look (by decide), next_of_look (by decide),
    next_of_look (by decide)⟩

theorem witness_ControlFrame :
    (∃ t, exec (.int (.reg .a)) { sAll with ia := 4 } = .next t) ∧
    (∃ t, exec (.rfi .pushPop) { sAll with ia := 4, queue := [3], iaq := true } = .next t) ∧
    ∃ t, exec (.iaq (.inline 1)) { sAll with ia := 4, queue := [3], iaq := true } = .next t :=
  ⟨next_of_look (by decide), next_of_look (by decide), next_of_look (by decide)⟩

/-- `HWI` to each reference device; to the Display with command 5, to the Disk with a read of one sector. -/
theorem witness_HwiFrame :
    (∃ t, exec (.hwi (.inline 1)) sAll = .next t) ∧ (∃ t, exec (.hwi (.inline 2)) sAll = .next t) ∧
    (∃ t, exec (.hwi (.inline 3)) { sAll with gpr := ⟨0x10, 1, 1, 0x2000, 0, 0, 0, 0⟩ } = .next t) ∧
    ∃ t, exec (.hwi (.inline 4)) { sAll with gpr := ⟨5, 0xFFF8, 0, 0, 0, 0, 0, 0⟩ } = .next t :=
  ⟨next_of_look (by decide), next_of_look (by decide), next_of_look (by decide), next_of_look (by decide)⟩

theorem witness_DispatchEntersAtIa :
    State.reset.queue = [] ∧ ({ State.reset with iaq := true } : State).iaq = true ∧
    (let s := { State.reset with queue := [1, 2] };
      s.queue = 1 :: [2] ∧ s.iaq = false ∧ s.ia = 0 ∧ s.params.ia0Drop = .all) ∧
    (let s := { headDrop with iaq := false };
      s.queue = 1 :: [2] ∧ s.iaq = false ∧ s.ia = 0 ∧ s.params.ia0Drop = .head) ∧
    (let s := { State.reset with queue := [1, 2], ia := 1 };
      s.queue = 1 :: [2] ∧ s.iaq = false ∧ s.ia ≠ 0) := by decide

/-- On fire; 255 messages held; 256 messages held. -/
theorem witness_TriggerQueuesAndDispatches :
    ({ State.reset with fire := some (.noSuchDevice 0) } : State).fire ≠ none ∧ State.reset.fire = none ∧
    ({ State.reset with queue := List.replicate 255 7 } : State).queue.length < 256 ∧
    256 ≤ ({ State.reset with queue := List.replicate 256 7 } : State).queue.length := by
  refine ⟨by decide, rfl, ?_, ?_⟩
  · show (List.replicate 255 (7 : Word)).length < 256
    rw [List.length_replicate]; omega
  · show 256 ≤ (List.replicate 256 (7 : Word)).length
    rw [List.length_replicate]

theorem witness_EntryThenReturnRestores : Memory.wf memWords (sAB 1 2 3 4).mem = true := by decide

theorem witness_StepRunsDecodedInstruction :
    sAll.fire = none ∧ decode defaultOpcodes (sAll.readMem sAll.pc) = .ok (.set (.reg .a) (.inline 1)) := by decide

theorem witness_FireStopsTheMachine :
    ({ State.reset with fire := some (.noSuchDevice 0) } : State).fire = some (.noSuchDevice 0) ∧
    (sDev 0x8E20 0 0).fire = none ∧ decode defaultOpcodes ((sDev 0x8E20 0 0).readMem 0) = .ok (.hwq (.inline 3)) ∧
    fired (exec (.hwq (.inline 3)) { sDev 0x8E20 0 0 with pc := 1, cyc := 0 }) = some (.noSuchDevice 2, 1, 0) ∧
    fired (step State.reset) = some (.invalidOpcode 0 0, 1, 0) := by decide

theorem witness_StepKeepsHostSide : ∃ t, step sAll = .next t := next_of_look (by decide)

theorem witness_OnlyIasChangesIa :
    referenceDevicesOnly (sDev 0x0402 0 0) ∧
    decode defaultOpcodes ((sDev 0x0402 0 0).readMem (sDev 0x0402 0 0).pc) = .ok (.add (.reg .a) (.reg .b)) ∧
    (∀ a, Instr.add (.reg .a) (.reg .b) ≠ .ias a) ∧ ∃ t, step (sDev 0x0402 0 0) = .next t := by
  refine ⟨?_, by decide, fun a h => (by cases h), next_of_look (by decide)⟩
  intro i o h
  match i, h with
  | 0, h => cases h
  | 1, h => cases h
  | _ + 2, h => cases h

/-- The state with one of each device meets the invariant, and steps. -/
theorem inv_sAll : Inv sAll where
  host := ⟨by decide, by decide, by decide, by decide, by decide⟩
  memWf := by decide
  queueBound := by decide
  queueHeld := by decide
  notOnFire := rfl
  devicesOk := by decide

theorem witness_StepKeepsInvariant : Inv sAll ∧ ∃ t, step sAll = .next t :=
  ⟨inv_sAll, next_of_look (by decide)⟩

theorem witness_HostCallKeepsInvariant :
    Inv sAll ∧ hostCallOk sAll.params (.insertMedia 2 [(7, 1)]) = true ∧
      ∃ t, hostCall (.insertMedia 2 [(7, 1)]) sAll = .next t :=
  ⟨inv_sAll, by decide, next_of_look (by decide)⟩

/-- A state that fires: the word 0 is invalid. -/
theorem witness_ResetAfterFireMeetsInvariant :
    Inv { sAll with mem := [] } ∧
      fired (step { sAll with mem := [] }) = some (.invalidOpcode 0 0, 1, 0) :=
  ⟨{ inv_sAll with host := { inv_sAll.host with }, memWf := by decide }, by decide⟩

/-- One of each device. -/
theorem witness_ResetLeaves :
    sAll.bodyAt 0 = some (.clock ⟨1, 0, 0, 0⟩) ∧ sAll.bodyAt 1 = some (.keyboard keyboardReset) ∧
    sAll.bodyAt 2 = some (.disk (diskNew smallParams (some [(2, 0xAA)]))) ∧
    sAll.bodyAt 3 = some (.display displayReset) ∧ sAll.bodyAt 4 = some (.other ⟨[[.consume 1]], []⟩) := by decide

/-- Attach at 65535 devices, of a device present, of a new device; detach of one absent and of one present. -/
theorem witness_AttachDetach :
    ({ sAll with devices := List.replicate 65535 (keyboardDevice keyboardReset) } : State).devices.length = 65535 ∧
    (∃ e ∈ sAll.devices, e.handle = (clockDevice clockReset).handle) ∧
    sAll.devices.length < 65535 ∧
    (∀ e ∈ sAll.devices, e.handle ≠ ({ clockDevice clockReset with handle := 9 } : Device).handle) ∧
    (∀ e ∈ sAll.devices, e.handle ≠ 9) ∧ ∃ e ∈ sAll.devices, e.handle = 3 := by
  refine ⟨List.length_replicate, by decide, by decide, by decide, by decide, by decide⟩

/-- The longest image and one word more; an odd stream; the longest stream and two bytes more. -/
theorem witness_ImageLoading :
    (List.replicate 65536 (1 : Word)).length ≤ 65536 ∧ 65536 < (List.replicate 65537 (1 : Word)).length ∧
    ([1] : List Byte).length % 2 = 1 ∧ 131072 < (List.replicate 131074 (1 : Byte)).length ∧
    (List.replicate 131072 (1 : Byte)).length % 2 = 0 ∧ (List.replicate 131072 (1 : Byte)).length ≤ 131072 := by
  rw [List.length_replicate, List.length_replicate, List.length_replicate, List.length_replicate]
  refine ⟨by omega, by omega, by decide, by omega, by omega, by omega⟩

theorem witness_RunEndsWithinBudget : costsPositive State.reset.params.cost := by
  unfold costsPositive; decide

/-- R336: a run of 3 cycles. Two steps of 2 cycles use it up; and the second word fires, 1 cycle left. -/
theorem test_run_ends :
    ended (run 4 3 (withMem [(0, 0x0402), (1, 0x0402)])) = some (-1, 2, none) ∧
    ended (run 4 3 (withMem [(0, 0x0402)])) = some (1, 2, some (.invalidOpcode 0 1)) := by decide

/-- One step of cost 2. -/
theorem witness_RunEndsWithinBudget_steps : ∃ t, StepsTo 1 2 (withMem [(0, 0x0402), (1, 0x0402)]) t := by
  obtain ⟨t, h⟩ := next_of_look (r := step (withMem [(0, 0x0402), (1, 0x0402)])) (by decide)
  have hc : look (step (withMem [(0, 0x0402), (1, 0x0402)])) (fun t => t.cyc) = some 2 := by decide
  rw [h] at hc
  exact ⟨t, t, 0, h, (Option.some.inj hc).symm, rfl, rfl⟩

theorem witness_ClockCommands : 3 ≤ (3 : Word).toNat ∧ 3 ≤ (0xFFFF : Word).toNat := by decide

/-- A silent Clock, and one with a message where the machine holds messages. -/
theorem witness_ClockTicksAreExact :
    (sAll.bodyAt 0 = some (.clock ⟨1, 0, 0, 0⟩) ∧ 0 < sAll.params.clockHz) ∧
    (let s := { sAll with devices := [clockDevice ⟨1, 0, 99960, 5⟩], iaq := true };
      s.bodyAt 0 = some (.clock ⟨1, 0, 99960, 5⟩) ∧ (5 : Word) ≠ 0 ∧ (1 : Word) ≠ 0 ∧ s.fire = none ∧ s.iaq = true ∧
        s.queue.length + (99960 + 60 * 1) / (s.params.clockHz * (1 : Word).toNat) ≤ 256) := by decide

theorem witness_EveryClockSeesTheStepCost :
    let s := { sAll with devices := [clockDevice ⟨1, 0, 99960, 0⟩, { clockDevice ⟨2, 0, 0, 0⟩ with handle := 9 }] }
    0 < s.params.clockHz ∧ ∀ i b, s.bodyAt i = some b → ∃ c, b = .clock c ∧ c.message = 0 := by
  refine ⟨by decide, fun i b h => ?_⟩
  match i, h with
  | 0, h => cases h; exact ⟨_, rfl, rfl⟩
  | 1, h => cases h; exact ⟨_, rfl, rfl⟩
  | _ + 2, h => cases h

/-- A silent Keyboard, and one with a message. -/
theorem witness_KeyboardIsFifo :
    sAll.bodyAt 1 = some (.keyboard keyboardReset) ∧
    ({ sAll with devices := [keyboardDevice ⟨[5], [5], 3⟩] } : State).bodyAt 0 = some (.keyboard ⟨[5], [5], 3⟩) ∧
    (⟨[5, 6], [], 0⟩ : KeyboardState).buffer = 5 :: [6] ∧ keyboardReset.buffer = [] ∧ 4 ≤ (4 : Word).toNat := by decide

/-- R306: a release, silent and with a message held. -/
theorem test_key_up :
    look (hostCall (.keyUp 0 5) { sAll with devices := [keyboardDevice ⟨[5], [5, 6], 0⟩] }) (fun t => (t.bodyAt 0, t.queue))
      = some (some (.keyboard ⟨[5], [6], 0⟩), []) ∧
    look (hostCall (.keyUp 0 5) { sAll with devices := [keyboardDevice ⟨[5], [5, 6], 3⟩], iaq := true })
      (fun t => (t.bodyAt 0, t.queue)) = some (some (.keyboard ⟨[5], [6], 3⟩), [3]) := by decide

/-- R306: the first and the last ASCII code, and their neighbours in the table. -/
theorem test_key_codes :
    keyCode .delete = 0x13 ∧ keyCode (.ascii 0) = 0x20 ∧ keyCode (.ascii 95) = 0x7F ∧ keyCode .up = 0x80 := by decide

/-- Distinct commands; another command; no medium; jobs waiting; past the last sector; a request taken in non-blocking mode up to the
last sector. -/
theorem witness_DiskCommands :
    (let c := defaultDiskCodes;
      [c.mediaQuery, c.parameterQuery, c.flagsGet, c.flagsSet, c.interruptTypeQuery, c.interruptMessageSet,
        c.readSectors, c.writeSectors, c.qualityQuery].Nodup ∧
      (6 : Word) ∉ [c.mediaQuery, c.parameterQuery, c.flagsGet, c.flagsSet, c.interruptTypeQuery,
        c.interruptMessageSet, c.readSectors, c.writeSectors, c.qualityQuery]) ∧
    (diskNew smallParams none).media = none ∧
    (({ diskNew smallParams (some []) with jobs := [⟨.read, 0, 0⟩] } : DiskState).media ≠ none ∧
      ({ diskNew smallParams (some []) with jobs := [⟨.read, 0, 0⟩] } : DiskState).jobs ≠ []) ∧
    ((diskNew smallParams (some [])).media ≠ none ∧ (diskNew smallParams (some [])).jobs = [] ∧
      (sDisk 0x10 4 1 0 0).params.diskSectors < (sDisk 0x10 4 1 0 0).gpr.b.toNat + (sDisk 0x10 4 1 0 0).gpr.c.toNat) ∧
    (let d := { diskNew smallParams (some []) with flags := 1 };
      d.media ≠ none ∧ d.jobs = [] ∧
      (sDisk 0x10 3 1 0 1).gpr.b.toNat + (sDisk 0x10 3 1 0 1).gpr.c.toNat ≤ (sDisk 0x10 3 1 0 1).params.diskSectors ∧
      d.flags.getLsbD (sDisk 0x10 3 1 0 1).params.diskCodes.flagNonBlocking = true) := by
  refine ⟨by decide, rfl, ⟨by simp [diskNew], by simp⟩, ⟨by simp [diskNew], rfl, by decide⟩, ?_⟩
  exact ⟨by simp [diskNew], rfl, by decide, by decide⟩

/-- I14: a drive with other codes: command 0x0007 reads the flags, and ERROR_NONE is 9; 0x0002 is no command of it. -/
theorem test_disk_codes :
    let p := { smallParams with diskCodes := { defaultDiskCodes with flagsGet := 7, errorNone := 9 } }
    look (step { sDisk 7 0 0 0 5 with params := p }) (fun t => (t.gpr.a, t.gpr.b)) = some (9, 5) ∧
    look (step { sDisk 2 0 0 0 5 with params := p }) (fun t => (t.gpr.a, t.gpr.b)) = some (2, 0) := by decide

/-- A request up to the last sector. -/
theorem witness_DiskBlockingTransfers :
    let d := diskNew smallParams (some [(2, 0xAA), (3, 0xBB)])
    let s := sDisk 0x10 2 2 0x1000 0
    s.bodyAt 0 = some (.disk d) ∧ d.media = some [(2, 0xAA), (3, 0xBB)] ∧ d.jobs = [] ∧
    d.flags.getLsbD s.params.diskCodes.flagNonBlocking = false ∧
    s.gpr.b.toNat + s.gpr.c.toNat ≤ s.params.diskSectors ∧
    s.gpr.c.toNat * s.params.diskSectorWords ≤ 65536 ∧ Memory.wf memWords s.mem = true ∧
    Memory.wf (s.params.diskSectors * s.params.diskSectorWords) [(2, 0xAA), (3, 0xBB)] = true := by decide

/-- A disk with three jobs, of costs 11 (2 seeks), 8 (1 seek) and 5 (none). -/
def threeJobs : DiskState := ⟨some [(2, 0xAA)], 1, 0, 0, 0, [⟨.write, 2, 0x2000⟩, ⟨.read, 1, 0x2000⟩, ⟨.read, 1, 0x3000⟩], 4⟩

def sThree : State := { sDisk 0 0 0 0 1 with devices := [diskDevice threeJobs] }

/-- No job; none, one and all three covered. -/
theorem witness_DiskJobCompletesByClock :
    sThree.bodyAt 0 = some (.disk threeJobs) ∧ (diskNew smallParams none).jobs = [] ∧
    (threeJobs.jobs = [] ++ threeJobs.jobs ∧ jobsCost sThree.params 0 [] ≤ 4 + 6 ∧
      4 + 6 < jobsCost sThree.params 0 [⟨.write, 2, 0x2000⟩] ∧ threeJobs.jobs ≠ []) ∧
    (threeJobs.jobs = [⟨.write, 2, 0x2000⟩] ++ [⟨.read, 1, 0x2000⟩, ⟨.read, 1, 0x3000⟩] ∧
      jobsCost sThree.params 0 [⟨.write, 2, 0x2000⟩] ≤ 4 + 7 ∧
      4 + 7 < jobsCost sThree.params 0 [⟨.write, 2, 0x2000⟩, ⟨.read, 1, 0x2000⟩]) ∧
    (threeJobs.jobs = threeJobs.jobs ++ [] ∧ jobsCost sThree.params 0 threeJobs.jobs ≤ 4 + 20 ∧
      threeJobs.jobs.getLast? = some ⟨.read, 1, 0x3000⟩) := by decide

/-- R315: one cycle short of the last job, the first two done in order, 4 cycles kept; then all done, and one message. -/
theorem test_disk_clock :
    look (deviceClock 0 19 sThree) (fun t => (t.bodyAt 0, t.readMem 0x2000))
      = some (some (.disk ⟨some [(2, 0xAA)], 1, 0, 0, 1, [⟨.read, 1, 0x3000⟩], 4⟩), 0xAA) ∧
    look (deviceClock 0 20 { sThree with devices := [diskDevice { threeJobs with message := 6 }], iaq := true })
      (fun t => (t.bodyAt 0, t.readMem 0x3000, t.queue))
      = some (some (.disk ⟨some [(2, 0xAA)], 1, 2, 6, 1, [], 0⟩), 0xAA, [6]) := by decide

/-- Both events, with the media-status bit clear and set. -/
theorem witness_DiskMediaEvents :
    sThree.bodyAt 0 = some (.disk threeJobs) ∧
    threeJobs.flags.getLsbD sThree.params.diskCodes.flagMediaStatus = false ∧
    (let d := { threeJobs with flags := 3 };
      ({ sThree with devices := [diskDevice d] } : State).bodyAt 0 = some (.disk d) ∧
        d.flags.getLsbD sThree.params.diskCodes.flagMediaStatus = true) ∧
    (∃ md, HostCall.insertMedia 0 [(7, 1)] = .insertMedia 0 md ∧ some [(7, 1)] = some md) ∧
    HostCall.ejectMedia 0 = .ejectMedia 0 := by
  refine ⟨by decide, by decide, ⟨by decide, by decide⟩, ⟨_, rfl, rfl⟩, rfl⟩

/-- R316: an ejection with jobs waiting. -/
theorem test_disk_eject :
    look (hostCall (.ejectMedia 0)
      { sThree with devices := [diskDevice { threeJobs with flags := 3, message := 6 }], iaq := true })
      (fun t => (t.bodyAt 0, t.queue)) = some (some (.disk ⟨none, 3, 1, 6, 0, [], 0⟩), [6]) := by decide

theorem witness_DisplayCommands :
    6 ≤ (6 : Word).toNat ∧ sAll.bodyAt 3 = some (.display displayReset) ∧ Memory.wf memWords sAll.mem = true := by
  decide

end Sys2Proof.Tests
end

section
/-! ## The frames of the basic instructions

An instruction of the basic frame (R107) resolves its operands, writes its destination, and may write EX or move I and J. Each of these
is one rule below; the frames of all the writers are chains of these rules. -/

namespace Sys2Proof.Machine

open Sys2Proof.Claims

/-! ### What the writers end in -/

/-- Every writer of its destination alone ends in one write, after the operands are resolved. -/
theorem exec_plainWriter {mk : Operand → Operand → Instr} (h : mk ∈ plainWriters) (b a : Operand) (s : State) :
    ∃ cost v, exec (mk b a) s = .next (writeRef (dstRef b a s) v (afterBasic cost b a s)) := by
  simp only [plainWriters, List.mem_cons, List.not_mem_nil, or_false] at h
  rcases h with rfl | rfl | rfl | rfl | rfl | rfl <;> exact ⟨_, _, rfl⟩

/-- STI and STD end in the write and the move of I and J. -/
theorem exec_streamWriter {mk : Operand → Operand → Instr} (h : mk ∈ streamWriters) (b a : Operand) (s : State) :
    ∃ cost v d, exec (mk b a) s = .next (stepIJ d (writeRef (dstRef b a s) v (afterBasic cost b a s))) := by
  simp only [streamWriters, List.mem_cons, List.not_mem_nil, or_false] at h
  rcases h with rfl | rfl <;> exact ⟨_, _, _, rfl⟩

/-- Every writer of its destination and EX ends in the two writes, in the order of EX_WRITE_ORDER. -/
theorem exec_exWriter {mk : Operand → Operand → Instr} (h : mk ∈ exWriters) (b a : Operand) (s : State) :
    ∃ cost x, exec (mk b a) s = .next (writeValEx (dstRef b a s) x (afterBasic cost b a s)) := by
  simp only [exWriters, List.mem_cons, List.not_mem_nil, or_false] at h
  rcases h with rfl | rfl | rfl | rfl | rfl | rfl | rfl | rfl | rfl | rfl | rfl <;> exact ⟨_, _, rfl⟩

/-! ### Where an operand lies -/

/-- The operand that names a register. -/
def LocReg.operand : LocReg → Operand
  | .gpr r => .reg r
  | .sp => .sp
  | .pc => .pc
  | .ex => .ex

/-- An operand resolves to a register only by naming it (R85, R91). -/
theorem resolve_loc_eq_reg {o : Operand} {pos : Pos} {s : State} {q : LocReg} :
    (resolve o pos s).1.loc = .reg q ↔ o = q.operand := by
  cases q <;> cases o <;> cases pos <;> simp [resolve, LocReg.operand]

theorem dstRef_loc_ne_reg {b a : Operand} {s : State} {q : LocReg} (h : b ≠ q.operand) :
    (dstRef b a s).loc ≠ .reg q := fun e => h (resolve_loc_eq_reg.1 e)

/-! ### The frame of a write to the destination -/

@[simp] theorem afterBasic_ex (cost : Nat) (b a : Operand) (s : State) : (afterBasic cost b a s).ex = s.ex := by
  simp [afterBasic]

/-- What the writes of a basic instruction may leave in `t`, EX and PC apart: all but the destination is as it was in `s`. -/
structure DestFrame (b a : Operand) (s t : State) : Prop where
  untouched : Untouched s t
  gpr : ∀ r, b ≠ .reg r → t.gpr.get r = s.gpr.get r
  sp : b ≠ .sp → b ≠ .pushPop → a ≠ .pushPop → t.sp = s.sp
  readMem : ∀ x, (dstRef b a s).loc ≠ .mem x → t.readMem x = s.readMem x

theorem afterBasic_destFrame (cost : Nat) (b a : Operand) (s : State) :
    DestFrame b a s (afterBasic cost b a s) where
  untouched := by constructor <;> simp [afterBasic]
  gpr r _ := by simp [afterBasic]
  sp _ hb ha := by simp [afterBasic, resolve_sp_of_ne hb, resolve_sp_of_ne ha]
  readMem x _ := by simp [afterBasic, State.readMem]

theorem DestFrame.writeRef {b a : Operand} {s t : State} (h : DestFrame b a s t) (v : Word) :
    DestFrame b a s (writeRef (dstRef b a s) v t) where
  untouched := by
    obtain ⟨hia, hiaq, hqueue, hfire, hdevices, himage, hparams⟩ := h.untouched
    constructor <;> simpa
  gpr r hr := (writeRef_gpr_of_ne _ v t r (dstRef_loc_ne_reg hr)).trans (h.gpr r hr)
  sp hsp hb ha := (writeRef_sp_of_ne _ v t (dstRef_loc_ne_reg hsp)).trans (h.sp hsp hb ha)
  readMem x hx := (writeRef_readMem_of_ne _ v t x hx).trans (h.readMem x hx)

theorem DestFrame.setEx {b a : Operand} {s t : State} (h : DestFrame b a s t) (v : Word) :
    DestFrame b a s (t.setEx v) :=
  ⟨⟨h.untouched.ia, h.untouched.iaq, h.untouched.queue, h.untouched.fire, h.untouched.devices, h.untouched.image,
    h.untouched.params⟩, h.gpr, h.sp, h.readMem⟩

/-- Both orders of the two writes have the same frame (D15). -/
theorem DestFrame.writeValEx {b a : Operand} {s t : State} (h : DestFrame b a s t) (x : ValEx) :
    DestFrame b a s (writeValEx (dstRef b a s) x t) := by
  unfold Machine.writeValEx
  split
  · exact (h.writeRef x.val).setEx x.ex
  · exact (h.setEx x.ex).writeRef x.val

theorem writeRef_dstRef_ex {b : Operand} (a : Operand) (cost : Nat) (s : State) (v : Word) (h : b ≠ .ex) :
    (writeRef (dstRef b a s) v (afterBasic cost b a s)).ex = s.ex := by
  rw [writeRef_ex_of_ne _ _ _ (dstRef_loc_ne_reg h), afterBasic_ex]

/-! ### I and J move -/

theorem stepIJ_untouched {s t : State} (h : Untouched s t) (d : Word) : Untouched s (stepIJ d t) :=
  ⟨h.ia, h.iaq, h.queue, h.fire, h.devices, h.image, h.params⟩

theorem stepIJ_gpr_of_ne (d : Word) (s : State) {r : Gpr} (hi : r ≠ .i) (hj : r ≠ .j) :
    (stepIJ d s).gpr.get r = s.gpr.get r := by
  simp [stepIJ, Gprs.get_put_ne, hi, hj]

/-! ### The two obligations -/

/-- Settles O31: the rules of the destination's write, and for STI and STD the move of I and J after it. -/
theorem plainWritersFrame : Obligations.PlainWritersFrame := by
  intro b a s t
  refine ⟨fun mk hmk he => ?_, fun mk hmk he => ?_⟩
  · rcases List.mem_append.1 hmk with hmk | hmk
    · obtain ⟨cost, v, e⟩ := exec_plainWriter hmk b a s
      cases e.symm.trans he
      have h := (afterBasic_destFrame cost b a s).writeRef v
      exact ⟨h.untouched, fun r hr _ _ => h.gpr r hr, writeRef_dstRef_ex a cost s v, h.sp, h.readMem⟩
    · obtain ⟨cost, v, d, e⟩ := exec_streamWriter hmk b a s
      cases e.symm.trans he
      have h := (afterBasic_destFrame cost b a s).writeRef v
      exact ⟨stepIJ_untouched h.untouched d, fun r hr hi hj => (stepIJ_gpr_of_ne d _ hi hj).trans (h.gpr r hr),
        writeRef_dstRef_ex a cost s v, h.sp, h.readMem⟩
  · obtain ⟨cost, v, e⟩ := exec_plainWriter hmk b a s
    cases e.symm.trans he
    exact ((afterBasic_destFrame cost b a s).writeRef v).gpr

/-- Settles O32: the rules of the two writes, in either order. -/
theorem exWritersFrame : Obligations.ExWritersFrame := by
  intro mk hmk b a s t he
  obtain ⟨cost, x, e⟩ := exec_exWriter hmk b a s
  cases e.symm.trans he
  have h := (afterBasic_destFrame cost b a s).writeValEx x
  exact ⟨h.untouched, h.gpr, h.sp, h.readMem⟩

end Sys2Proof.Machine
end

section
/-! ## Reset -/

namespace Sys2Proof.Machine

/-- Each device's own state after a reset is its reset value (R287, R330). -/
theorem resetMachine_bodyAt (s : State) (i : Nat) :
    (resetMachine s).bodyAt i = (s.bodyAt i).map (bodyReset s.params) := by
  simp [State.bodyAt, resetMachine, deviceReset, Function.comp_def]

/-- Memory after a reset is the image, then zeros (R330). -/
theorem resetMachine_readMem (s : State) (x : Word) : (resetMachine s).readMem x = s.image.getD x.toNat 0 := by
  simp [State.readMem, resetMachine, Memory.read_ofWordsFrom, unlistedWord]

/-- Settles O48: memory and the devices by their own lemmas, every other field as `State.reset` states it. -/
theorem resetLeaves : Obligations.ResetLeaves := by
  intro s
  have hgpr : ∀ r, (resetMachine s).gpr.get r = 0 := fun r => by cases r <;> rfl
  have hhandles : (resetMachine s).devices.map Device.handle = s.devices.map Device.handle := by
    simp [resetMachine, deviceReset]
  have hidents : (resetMachine s).devices.map Device.ident = s.devices.map Device.ident := by
    simp [resetMachine, deviceReset]
  have hbody : ∀ i b, s.bodyAt i = some b → (resetMachine s).bodyAt i = some (bodyReset s.params b) := fun i b hb => by
    rw [resetMachine_bodyAt, hb]; rfl
  exact ⟨hgpr, rfl, rfl, rfl, rfl, rfl, rfl, rfl, resetMachine_readMem s, rfl, rfl, hhandles, hidents, fun i =>
    ⟨fun _ => hbody i _, fun _ => hbody i _, fun _ => hbody i _, fun _ => hbody i _, fun _ => hbody i _⟩⟩

/-- Settles O44: no device, no message, empty memory, an empty image, and the default CLOCK_HZ. -/
theorem resetMeetsInvariant : Obligations.ResetMeetsInvariant where
  host :=
    { deviceCount := by decide
      handlesDiffer := by decide
      mediaFit := by simp [State.reset]
      imageFits := by decide
      clockRuns := by decide }
  memWf := by decide
  queueBound := by decide
  queueHeld := by simp [State.reset]
  notOnFire := rfl
  devicesOk := by simp [State.reset]

end Sys2Proof.Machine
end

section
/-! ## What every part of a step keeps of the host side and of IA

`Conserves s t` says what no reference device and no instruction but IAS changes. It holds from every state, on fire or not, whatever the
invariant; a device of another kind keeps its first half only (R291). -/

namespace Sys2Proof.Machine

open Sys2Proof.Claims

/-- From `s` to `t` the host side stayed, and, with reference devices only, IA and the kinds of the devices. -/
structure Conserves (s t : State) : Prop where
  same : SameHost s t
  quiet : referenceDevicesOnly s → t.ia = s.ia ∧ referenceDevicesOnly t

theorem Conserves.refl (s : State) : Conserves s s := ⟨SameHost.refl s, fun h => ⟨rfl, h⟩⟩

theorem Conserves.trans {s t u : State} (h : Conserves s t) (k : Conserves t u) : Conserves s u where
  same := h.same.trans k.same
  quiet href := by
    obtain ⟨hia, ht⟩ := h.quiet href
    obtain ⟨kia, hu⟩ := k.quiet ht
    exact ⟨kia.trans hia, hu⟩

/-- A change of registers other than IA, of memory, the queue, IAQ, the fault state or the cost. -/
theorem Conserves.of_eq {s t : State} (hi : t.image = s.image) (hp : t.params = s.params)
    (hd : t.devices = s.devices) (hia : t.ia = s.ia) : Conserves s t where
  same := SameHost.of_eq hi hp hd
  quiet href := ⟨hia, by simpa only [referenceDevicesOnly, State.bodyAt, hd] using href⟩

/-- A device moves to another state of a reference device. -/
theorem Conserves.setBody (s : State) (i : Nat) {b : DeviceBody} (hb : ∀ o, b ≠ .other o) :
    Conserves s (s.setBody i b) where
  same := SameHost.setBody s i b
  quiet href := by
    refine ⟨rfl, fun k o he => ?_⟩
    by_cases hk : k = i
    · subst hk
      cases hd : s.devices[k]? <;> simp [State.bodyAt, putBody_getElem?, hd] at he
      exact hb o he
    · exact href k o (by rwa [bodyAt_setBody_ne s b hk] at he)

/-- Where a device of another kind is attached, `Conserves` asks for the host side alone. -/
theorem Conserves.of_other {s t : State} (h : SameHost s t) {i : Nat} {o : OtherState}
    (hb : s.bodyAt i = some (.other o)) : Conserves s t :=
  ⟨h, fun href => absurd hb (href i o)⟩

theorem Conserves.setGpr (s : State) (r : Gpr) (v : Word) : Conserves s (s.setGpr r v) := .of_eq rfl rfl rfl rfl

theorem Conserves.dispatch (s : State) : Conserves s (dispatch s) := .of_eq (by simp) (by simp) (by simp) (by simp)

/-- An answer conserves what `s` has, whether it is a next state or a fatal fault. -/
def Conserving (s : State) (r : Result) : Prop := Ends (Conserves s) (Conserves s) r

theorem Conserving.andThen {s : State} {r : Result} {f : State → Result} (h : Conserving s r)
    (hf : ∀ t, Conserving t (f t)) : Conserving s (andThen r f) :=
  Ends.andThen h fun t ht => (hf t).mono (fun _ => ht.trans) (fun _ => ht.trans)

theorem Conserving.after {s t : State} {r : Result} (h : Conserving t r) (ht : Conserves s t) : Conserving s r :=
  h.mono (fun _ => ht.trans) (fun _ => ht.trans)

/-! ### The controller -/

theorem raise_conserving (k : Fire) (s : State) : Conserving s (raise k s) := Conserves.of_eq rfl rfl rfl rfl

theorem trigger_conserving (m : Word) (bypass : Bool) (s : State) : Conserving s (trigger m bypass s) := by
  have hqueue : ∀ q, Conserves s (s.setQueue q) := fun q => .of_eq rfl rfl rfl rfl
  by_cases hf : s.fire = none
  · rcases trigger_cases m bypass s hf with ⟨_, e⟩ | ⟨_, _, e⟩ | ⟨_, _, e⟩ <;> rw [e]
    · exact Conserves.trans (t := (s.setIaq false).setQueue (m :: s.queue)) (.of_eq rfl rfl rfl rfl) (.dispatch _)
    · exact (hqueue _).trans (.dispatch _)
    · exact (raise_conserving _ _).after (hqueue _)
  · have e : trigger m bypass s = .next s := by simp [trigger, Option.isSome_iff_ne_none, hf]
    rw [e]
    exact Conserves.refl s

/-- A reference device's interrupt, if it is enabled. -/
theorem signal_conserving (m : Word) (s : State) : Conserving s (if m = 0 then .next s else trigger m false s) := by
  split
  · exact Conserves.refl s
  · exact trigger_conserving m false s

/-! ### The Clock and the Keyboard -/

theorem clockReceive_conserves (i : Nat) (c : ClockState) (m : Word) (s : State) :
    Conserves s (clockReceive i c m s) := by
  unfold clockReceive
  split
  · exact .setBody s i nofun
  · exact (Conserves.setGpr s .c c.ticks).trans (.setBody _ i nofun)
  · exact .setBody s i nofun
  · exact .refl s

theorem clockTicks_conserving (i n : Nat) (c : ClockState) (s : State) : Conserving s (clockTicks i n c s) := by
  induction n generalizing c s with
  | zero => exact Conserves.refl s
  | succ n ih =>
    refine Conserving.after ?_ (Conserves.setBody s i (b := .clock { c with
      acc60 := c.acc60 - clockPeriod60 s.params c, ticks := c.ticks + 1 }) nofun)
    simp only [clockTicks]
    split
    · exact ih _ _
    · exact (trigger_conserving _ _ _).andThen (ih _)

theorem clockAdvance_conserving (i n : Nat) (c : ClockState) (s : State) : Conserving s (clockAdvance i c n s) := by
  unfold clockAdvance
  split
  · exact Conserves.refl s
  · exact (clockTicks_conserving i _ _ _).after (.setBody s i nofun)

theorem keyboardReceive_conserves (i : Nat) (k : KeyboardState) (m : Word) (s : State) :
    Conserves s (keyboardReceive i k m s) := by
  unfold keyboardReceive
  split
  · exact .setBody s i nofun
  · split
    · exact .setGpr s _ _
    · exact (Conserves.setGpr s .c _).trans (.setBody _ i nofun)
  · exact .setGpr s _ _
  · exact .setBody s i nofun
  · exact .refl s

/-! ### The Disk -/

/-- A job moves words and the disk's own state only (R312, R313). -/
theorem runJob_conserves (i : Nat) (j : Job) (d : DiskState) (s : State) : Conserves s (runJob i j d s).2 :=
  Conserves.trans (t := { s with mem := (transfer s.params j d.media s.mem).2 }) (.of_eq rfl rfl rfl rfl)
    (.setBody _ i nofun)

theorem runBlocking_conserves (i : Nat) (jobs : List Job) (d : DiskState) (s : State) :
    Conserves s (runBlocking i jobs d s) := by
  induction jobs generalizing d s with
  | nil => exact .refl s
  | cons j rest ih =>
    have hcost : Conserves s (s.addCycles (jobCost s.params d.head j)) := .of_eq rfl rfl rfl rfl
    exact hcost.trans ((runJob_conserves i j _ _).trans (ih _ _))

theorem diskRequest_conserves (i : Nat) (dir : JobDirection) (d : DiskState) (s : State) :
    Conserves s (diskRequest i dir d s) := by
  have haccepted : ∀ d', Conserves s ((s.setGpr .a s.params.diskCodes.errorNone).setBody i (.disk d')) := fun d' =>
    (Conserves.setGpr s _ _).trans (.setBody _ i nofun)
  unfold diskRequest
  simp only
  split
  · exact .setGpr s _ _
  split
  · exact .setGpr s _ _
  split
  · exact .setGpr s _ _
  split
  · exact haccepted _
  · exact (haccepted _).trans (runBlocking_conserves i _ _ _)

theorem diskReceive_conserves (i : Nat) (d : DiskState) (m : Word) (s : State) :
    Conserves s (diskReceive i d m s) := by
  have hquery : ∀ v w, Conserves s ((s.setGpr .b v).setGpr .a w) := fun _ _ => .of_eq rfl rfl rfl rfl
  have hset : ∀ d' w, Conserves s ((s.setBody i (.disk d')).setGpr .a w) := fun d' _ =>
    (Conserves.setBody s i (b := .disk d') nofun).trans (.setGpr _ _ _)
  unfold diskReceive
  simp only
  split
  · exact hquery _ _
  split
  · split
    · exact .of_eq rfl rfl rfl rfl
    · exact .setGpr s _ _
  split
  · exact hquery _ _
  split
  · exact hset _ _
  split
  · exact hquery _ _
  split
  · exact hset _ _
  split
  · exact diskRequest_conserves i _ d s
  split
  · exact diskRequest_conserves i _ d s
  split
  · exact hquery _ _
  · exact .refl s

theorem drainJobs_conserving (i : Nat) (jobs : List Job) (d : DiskState) (s : State) :
    Conserving s (drainJobs i jobs d s) := by
  induction jobs generalizing d s with
  | nil => exact Conserves.refl s
  | cons j rest ih =>
    have hmoved : ∀ d', Conserves s ({ s with mem := (transfer s.params j d.media s.mem).2 }.setBody i (.disk d')) :=
      fun d' => Conserves.trans (t := { s with mem := (transfer s.params j d.media s.mem).2 })
        (.of_eq rfl rfl rfl rfl) (.setBody _ i nofun)
    rcases Nat.lt_or_ge d.acc (jobCost s.params d.head j) with hlt | hge
    · rw [drainJobs_short i j rest hlt]
      exact Conserves.refl s
    · cases rest with
      | nil =>
        rw [drainJobs_last i j hge]
        exact (signal_conserving _ _).after (hmoved _)
      | cons k more =>
        rw [drainJobs_more i j k more hge]
        exact (ih _ _).after (hmoved _)

theorem diskAdvance_conserving (i n : Nat) (d : DiskState) (s : State) : Conserving s (diskAdvance i d n s) := by
  unfold diskAdvance
  split
  · exact Conserves.refl s
  · exact (drainJobs_conserving i _ _ _).after (.setBody s i nofun)

/-! ### The Display -/

theorem storeWords_conserves (ws : List Word) (base : Word) (s : State) : Conserves s (storeWords base ws s) := by
  induction ws generalizing base s with
  | nil => exact .refl s
  | cons w ws ih => exact Conserves.trans (t := s.writeMem base w) (.of_eq rfl rfl rfl rfl) (ih _ _)

theorem displayReceive_conserves (i : Nat) (d : DisplayState) (m : Word) (s : State) :
    Conserves s (displayReceive i d m s) := by
  have hstored : ∀ base ws n, Conserves s ((storeWords base ws s).addCycles n) := fun base ws n =>
    (storeWords_conserves ws base s).trans (.of_eq rfl rfl rfl rfl)
  unfold displayReceive
  split
  · exact .setBody s i nofun
  · exact .setBody s i nofun
  · exact .setBody s i nofun
  · exact .setBody s i nofun
  · exact hstored _ _ _
  · exact hstored _ _ _
  · exact .refl s

/-! ### Any other device: it may write IA, and keeps the host side -/

theorem busAction_sameHost (a : BusAction) (s : State) : Ends (SameHost s) (SameHost s) (busAction a s) := by
  cases a with
  | setReg r v => cases r <;> exact SameHost.of_eq rfl rfl rfl
  | setMem x v => exact SameHost.of_eq rfl rfl rfl
  | trigger m => exact (trigger_conserving m false s).mono (fun _ => Conserves.same) (fun _ => Conserves.same)

theorem busActions_sameHost (as : List BusAction) {s0 s : State} (h : SameHost s0 s) :
    Ends (SameHost s0) (SameHost s0) (busActions as s) := by
  induction as generalizing s with
  | nil => exact h
  | cons a as ih =>
    exact ((busAction_sameHost a s).mono (fun _ => h.trans) (fun _ => h.trans)).andThen fun _ => ih

theorem receiveAction_sameHost (a : ReceiveAction) (s : State) :
    Ends (SameHost s) (SameHost s) (receiveAction a s) := by
  cases a with
  | act b => exact busAction_sameHost b s
  | consume n => exact SameHost.of_eq rfl rfl rfl

theorem receiveActions_sameHost (as : List ReceiveAction) {s0 s : State} (h : SameHost s0 s) :
    Ends (SameHost s0) (SameHost s0) (receiveActions as s) := by
  induction as generalizing s with
  | nil => exact h
  | cons a as ih =>
    exact ((receiveAction_sameHost a s).mono (fun _ => h.trans) (fun _ => h.trans)).andThen fun _ => ih

/-- What another device does is conserved as far as `Conserves` asks. -/
theorem Conserving.of_other {s : State} {r : Result} (h : Ends (SameHost s) (SameHost s) r) {i : Nat}
    {o : OtherState} (hb : s.bodyAt i = some (.other o)) : Conserving s r :=
  h.mono (fun _ ht => .of_other ht hb) (fun _ ht => .of_other ht hb)

theorem otherReceive_sameHost (i : Nat) (o : OtherState) (s : State) :
    Ends (SameHost s) (SameHost s) (otherReceive i o s) := by
  unfold otherReceive
  split
  · exact SameHost.refl s
  · exact receiveActions_sameHost _ (SameHost.setBody s i _)

theorem otherAdvance_sameHost (i : Nat) (o : OtherState) (s : State) :
    Ends (SameHost s) (SameHost s) (otherAdvance i o s) := by
  unfold otherAdvance
  split
  · exact SameHost.refl s
  · exact busActions_sameHost _ (SameHost.setBody s i _)

/-! ### The bus -/

theorem deviceReceive_conserving (i : Nat) (s : State) : Conserving s (deviceReceive i s) := by
  unfold deviceReceive
  split
  · exact Conserves.refl s
  · exact clockReceive_conserves i _ _ s
  · exact keyboardReceive_conserves i _ _ s
  · exact diskReceive_conserves i _ _ s
  · exact displayReceive_conserves i _ _ s
  · exact .of_other (otherReceive_sameHost i _ s) ‹_›

theorem deviceClock_conserving (i n : Nat) (s : State) : Conserving s (deviceClock i n s) := by
  unfold deviceClock
  split
  · exact Conserves.refl s
  · exact clockAdvance_conserving i n _ s
  · exact Conserves.refl s
  · exact diskAdvance_conserving i n _ s
  · exact Conserves.refl s
  · exact .of_other (otherAdvance_sameHost i _ s) ‹_›

theorem clockDevices_conserving (n : Nat) (is : List Nat) (s : State) : Conserving s (clockDevices n is s) := by
  induction is generalizing s with
  | nil => exact Conserves.refl s
  | cons i is ih => exact (deviceClock_conserving i n s).andThen ih

/-- The end of a step: the broadcast to every device, and the dispatch (R109). -/
theorem endStep_conserving (s : State) : Conserving s (endStep s) :=
  (clockDevices_conserving _ _ s).andThen Conserves.dispatch

/-! ### The instructions -/

theorem basicFrame_conserves (cost : Nat) (b a : Operand) (s : State) : Conserves s (basicFrame cost b a s).st :=
  .of_eq (by simp) (by simp) (by simp) (by simp)

theorem specialFrame_conserves (cost : Nat) (a : Operand) (s : State) : Conserves s (specialFrame cost a s).st :=
  .of_eq (by simp) (by simp) (by simp) (by simp)

theorem writeRef_conserves (r : Ref) (v : Word) (s : State) : Conserves s (writeRef r v s) :=
  .of_eq (by simp) (by simp) (by simp) (by simp)

theorem writeValEx_conserves (r : Ref) (x : ValEx) (s : State) : Conserves s (writeValEx r x s) :=
  .of_eq (by simp) (by simp) (by simp) (by simp)

theorem stepIJ_conserves (d : Word) (s : State) : Conserves s (stepIJ d s) := .of_eq rfl rfl rfl rfl

theorem continueIf_conserving (test : Bool) (s : State) : Conserving s (continueIf test s) := by
  have hmoved : ∀ p n, Conserves s ((s.setPc p).addCycles n) := fun _ _ => .of_eq rfl rfl rfl rfl
  unfold continueIf
  split
  · exact Conserves.refl s
  · unfold skip
    rcases skipChain_cases memWords s with ⟨n, p, e⟩ | ⟨n, p, e, _⟩ | e <;> rw [e]
    · exact hmoved p n
    · exact (raise_conserving _ _).after (hmoved p n)
    · trivial

theorem returnFromInterrupt_conserves (s : State) : Conserves s (returnFromInterrupt s) :=
  .of_eq (by simp [returnFromInterrupt]) (by simp [returnFromInterrupt]) (by simp [returnFromInterrupt])
    (by simp [returnFromInterrupt])

/-- Every instruction but IAS conserves. -/
theorem exec_conserving (i : Instr) (hi : ∀ a, i ≠ .ias a) (s : State) : Conserving s (exec i s) := by
  cases i with
  | set b a | mod b a | mdi b a | and b a | bor b a | xor b a =>
    exact (basicFrame_conserves _ b a s).trans (writeRef_conserves _ _ _)
  | sti b a | std b a =>
    exact (basicFrame_conserves _ b a s).trans ((writeRef_conserves _ _ _).trans (stepIJ_conserves _ _))
  | add b a | sub b a | mul b a | mli b a | div b a | dvi b a | shr b a | asr b a | shl b a | adx b a | sbx b a =>
    exact (basicFrame_conserves _ b a s).trans (writeValEx_conserves _ _ _)
  | ifb b a | ifc b a | ife b a | ifn b a | ifg b a | ifa b a | ifl b a | ifu b a =>
    exact (continueIf_conserving _ _).after (basicFrame_conserves _ b a s)
  | jsr a => exact (specialFrame_conserves s.params.cost.jsr a s).trans (.of_eq rfl rfl rfl rfl)
  | int a => exact (trigger_conserving _ true _).after (specialFrame_conserves _ a s)
  | iag a | hwn a => exact (specialFrame_conserves _ a s).trans (writeRef_conserves _ _ _)
  | ias a => exact absurd rfl (hi a)
  | rfi a => exact (specialFrame_conserves _ a s).trans (returnFromInterrupt_conserves _)
  | iaq a =>
    have hset : ∀ q, Conserves s ((specialFrame s.params.cost.iaq a s).st.setIaq q) := fun _ =>
      (specialFrame_conserves s.params.cost.iaq a s).trans (.of_eq rfl rfl rfl rfl)
    simp only [exec, execIaq]
    split
    · exact hset true
    · exact (hset false).trans (.dispatch _)
  | hwq a =>
    refine Conserving.after ?_ (specialFrame_conserves s.params.cost.hwq a s)
    simp only [exec, execHwq]
    split
    · exact raise_conserving _ _
    · exact Conserves.of_eq rfl rfl rfl rfl
  | hwi a =>
    refine Conserving.after ?_ (specialFrame_conserves s.params.cost.hwi a s)
    simp only [exec, execHwi]
    split
    · exact raise_conserving _ _
    · exact deviceReceive_conserving _ _

/-- IAS writes IA and keeps the host side, as every instruction does. -/
theorem exec_sameHost (i : Instr) (s : State) : Ends (SameHost s) (SameHost s) (exec i s) := by
  by_cases hi : ∃ a, i = .ias a
  · obtain ⟨a, rfl⟩ := hi
    exact (specialFrame_conserves s.params.cost.ias a s).same.trans (.of_eq rfl rfl rfl)
  · exact (exec_conserving i (not_exists.1 hi) s).mono (fun _ => Conserves.same) (fun _ => Conserves.same)

/-! ### The step -/

/-- A step that ends in a next state ran the instruction its word decodes to, and then the end of a step. -/
theorem step_eq_next {s t : State} (h : step s = .next t) :
    ∃ i u, decode s.params.opcodes (s.readMem s.pc) = .ok i ∧ exec i (fetchWord s).2 = .next u ∧
      endStep u = .next t := by
  unfold step beginStep at h
  cases hf : s.fire with
  | some k => simp [hf] at h
  | none =>
    cases hd : decode s.params.opcodes (fetchWord s).1 with
    | error e => simp [hf, hd, raise] at h
    | ok i =>
      simp only [hf, hd] at h
      obtain ⟨u, hu, ht⟩ := andThen_eq_next.1 h
      exact ⟨i, u, hd, hu, ht⟩

theorem fetchWord_conserves (s : State) : Conserves s (fetchWord s).2 := .of_eq rfl rfl rfl rfl

/-- Settles O42: the fetch, the instruction and the end of the step each keep the host side, from every state. -/
theorem stepKeepsHostSide : Obligations.StepKeepsHostSide := by
  intro s t h
  obtain ⟨i, u, -, hexec, hend⟩ := step_eq_next h
  have hsame := ((fetchWord_conserves s).same.trans ((exec_sameHost i _).next hexec)).trans
    ((endStep_conserving u).next hend).same
  exact ⟨hsame.image, hsame.params, hsame.handles, hsame.idents⟩

/-- Settles O43: with reference devices only, the fetch, every instruction but IAS and the end of the step conserve IA. -/
theorem onlyIasChangesIa : Obligations.OnlyIasChangesIa := by
  intro s t i href hdecode hi h
  obtain ⟨i', u, hdecode', hexec, hend⟩ := step_eq_next h
  cases hdecode.symm.trans hdecode'
  have hstep := ((fetchWord_conserves s).trans ((exec_conserving i hi _).next hexec)).trans
    ((endStep_conserving u).next hend)
  exact (hstep.quiet href).1

end Sys2Proof.Machine
end

section
/-! ## The invariant over a step, and the image -/

namespace Sys2Proof.Machine

/-! ### The step -/

/-- A step from the invariant ends in it again, or fires and keeps the host side, or never ends; none is refused (R109). -/
theorem step_ends {s : State} (h : Inv s) : Ends (fun t => SameHost s t ∧ Inv t) (Burnt s) (step s) := by
  have hfetch := fetchWord_stays h
  cases hd : decode s.params.opcodes (fetchWord s).1 with
  | error e =>
    simp only [step, beginStep, h.notOnFire, hd]
    exact raise_ends _ hfetch
  | ok i =>
    simp only [step, beginStep, h.notOnFire, hd]
    exact (exec_ends i hfetch).andThen fun _ => endStep_ends

/-- Settles O45: a next state is one of the ends of a step from the invariant. -/
theorem stepKeepsInvariant : Obligations.StepKeepsInvariant := by
  intro s t hs h
  exact ((step_ends hs).next h).2

/-! ### Words from bytes -/

/-- A word of two bytes is 256 times its high byte and its low byte (R66). -/
theorem toNat_append_bytes (hi lo : Byte) : (hi ++ lo : Word).toNat = hi.toNat * 256 + lo.toNat := by
  rw [BitVec.toNat_append, ← Nat.shiftLeft_add_eq_or_of_lt lo.isLt, Nat.shiftLeft_eq]

/-- A byte stream spells no words exactly when its length is odd (D19). -/
theorem wordsOfBytes_eq_none_iff (order : ByteOrder) (bytes : List Byte) :
    wordsOfBytes order bytes = none ↔ bytes.length % 2 = 1 := by
  induction bytes using wordsOfBytes.induct with
  | case1 => simp [wordsOfBytes]
  | case2 b => simp [wordsOfBytes]
  | case3 b0 b1 rest ih => simp [wordsOfBytes, ih]; omega

/-- A word comes from each two bytes of the stream. -/
theorem wordsOfBytes_length {order : ByteOrder} {bytes : List Byte} {ws : List Word}
    (h : wordsOfBytes order bytes = some ws) : bytes.length = 2 * ws.length := by
  induction bytes using wordsOfBytes.induct generalizing ws with
  | case1 => cases h; rfl
  | case2 b => cases h
  | case3 b0 b1 rest ih =>
    obtain ⟨tail, htail, rfl⟩ := Option.map_eq_some_iff.1 h
    have := ih htail
    simp only [List.length_cons]
    omega

/-- Word `k` is made of the bytes `2 k` and `2 k + 1` (R66). -/
theorem wordsOfBytes_getD {order : ByteOrder} {bytes : List Byte} {ws : List Word}
    (h : wordsOfBytes order bytes = some ws) {k : Nat} (hk : k < ws.length) :
    ws.getD k 0 = wordOfBytes order (bytes.getD (2 * k) 0) (bytes.getD (2 * k + 1) 0) := by
  induction bytes using wordsOfBytes.induct generalizing ws k with
  | case1 => cases h; simp at hk
  | case2 b => cases h
  | case3 b0 b1 rest ih =>
    obtain ⟨tail, htail, rfl⟩ := Option.map_eq_some_iff.1 h
    cases k with
    | zero => rfl
    | succ k => exact ih htail (Nat.lt_of_succ_lt_succ hk)

/-! ### Installing an image -/

theorem loadWords_of_le {image : List Word} (h : image.length ≤ memWords) (s : State) :
    loadWords image s = .next { s with image := image } := if_neg (Nat.not_lt.2 h)

theorem loadWords_of_lt {image : List Word} (h : memWords < image.length) (s : State) :
    loadWords image s = .refused .imageRefused := if_pos h

theorem loadBytes_of_odd (order : ByteOrder) {bytes : List Byte} (h : bytes.length % 2 = 1) (s : State) :
    loadBytes order bytes s = .refused .imageRefused := by
  simp [loadBytes, (wordsOfBytes_eq_none_iff order bytes).2 h]

theorem loadBytes_of_some {order : ByteOrder} {bytes : List Byte} {ws : List Word}
    (h : wordsOfBytes order bytes = some ws) (s : State) : loadBytes order bytes s = loadWords ws s := by
  simp [loadBytes, h]

/-- A byte stream of even length is loaded as the words it spells. -/
theorem exists_words_of_even (order : ByteOrder) {bytes : List Byte} (h : bytes.length % 2 = 0) :
    ∃ ws, wordsOfBytes order bytes = some ws ∧ bytes.length = 2 * ws.length := by
  have hne : wordsOfBytes order bytes ≠ none := fun e => by
    have := (wordsOfBytes_eq_none_iff order bytes).1 e
    omega
  obtain ⟨ws, hws⟩ := Option.ne_none_iff_exists'.1 hne
  exact ⟨ws, hws, wordsOfBytes_length hws⟩

/-- Settles O50: the bound of a word image, which a byte stream of even length meets with half its length. -/
theorem imageLoading : Obligations.ImageLoading := by
  intro s
  refine ⟨fun ws h => loadWords_of_le h s, fun ws h => loadWords_of_lt h s, fun order bytes => ⟨fun hbad => ?_,
    fun heven hfits => ?_⟩⟩
  · rcases Nat.mod_two_eq_zero_or_one bytes.length with heven | hodd
    · obtain ⟨ws, hws, hlen⟩ := exists_words_of_even order heven
      exact (loadBytes_of_some hws s).trans (loadWords_of_lt (by simp only [memWords]; omega) s)
    · exact loadBytes_of_odd order hodd s
  · obtain ⟨ws, hws, hlen⟩ := exists_words_of_even order heven
    refine ⟨ws, (loadBytes_of_some hws s).trans (loadWords_of_le (by simp only [memWords]; omega) s), by omega,
      fun k hk => ?_⟩
    rw [wordsOfBytes_getD hws hk]
    cases order with
    | big => exact toNat_append_bytes _ _
    | little => exact toNat_append_bytes _ _

end Sys2Proof.Machine
end

section
/-! ## The encoding: the length of an instruction, the operand codes, the conditional class, and the step that runs what it decodes -/

namespace Sys2Proof.Machine

open Sys2Proof.Claims
open Sys2Proof.Laws.EncodedShape (isIf)

/-! ### The length -/

/-- The operand a code spells takes a next word exactly when R83 says so of the code. -/
theorem nextWords_decodeOperand (c : BitVec 6) : nextWords (decodeOperand c) = nwCode c.toNat := by
  revert c; decide

theorem nwCode_le_one (c : Nat) : nwCode c ≤ 1 := by
  unfold nwCode
  split <;> simp

/-- A b field is a code below 0x20 (R81). -/
theorem toNat_bCode (c : BitVec 5) : (0b0#1 ++ c : BitVec 6).toNat = c.toNat := by
  revert c; decide

theorem lengthOf_eq (w : Word) :
    lengthOf w = 1 + nwCode (aField w).toNat + (if opField w ≠ 0 then nwCode (bField w).toNat else 0) := by
  simp only [lengthOf, nextWords_decodeOperand, toNat_bCode, ne_eq, ite_not]

/-- Settles O5: each code adds at most one word, and a special instruction has the a code only. -/
theorem lengthFromFirstWord : Obligations.LengthFromFirstWord := by
  intro w
  have ha := nwCode_le_one (aField w).toNat
  have hb := nwCode_le_one (bField w).toNat
  have hlen := lengthOf_eq w
  refine ⟨hlen, ?_⟩
  by_cases hop : opField w = 0
  · rw [if_neg (not_not_intro hop)] at hlen
    exact ⟨by omega, by omega, fun _ => by omega⟩
  · rw [if_pos hop] at hlen
    exact ⟨by omega, by omega, fun h => absurd h hop⟩

/-! ### The codes of the registers -/

/-- The general registers in the order of their index (R20). -/
def gprOrder : List Gpr := [.a, .b, .c, .x, .y, .z, .i, .j]

/-- The codes of register `n`, of memory at it, and of memory at it plus the next word (R85 to R87). -/
theorem decodeOperand_gprOrder : ∀ n : Fin 8,
    decodeOperand (BitVec.ofNat 6 n.val) = .reg (gprOrder.getD n.val .a) ∧
    decodeOperand (BitVec.ofNat 6 (0x08 + n.val)) = .ind (gprOrder.getD n.val .a) ∧
    decodeOperand (BitVec.ofNat 6 (0x10 + n.val)) = .indNext (gprOrder.getD n.val .a) := by decide

/-- The value of register `n` is entry `n` of the values in the same order. -/
theorem get_gprOrder (g : Gprs) (n : Fin 8) :
    g.get (gprOrder.getD n.val .a) = (gprOrder.map g.get).getD n.val 0 := by
  have hn : n.val < gprOrder.length := n.isLt
  simp [List.getD, List.getElem?_eq_getElem hn]

/-- Settles O6: the codes by the operand table; each operand form then resolves as its rule says. -/
theorem registerAndStackOperands : Obligations.RegisterAndStackOperands := by
  intro n pos s r u
  obtain ⟨hreg, hind, hindNext⟩ := decodeOperand_gprOrder n
  have hu : s.gpr.get (gprOrder.getD n.val .a) = u := get_gprOrder s.gpr n
  rw [hreg, hind, hindNext, ← hu]
  exact ⟨rfl, rfl, rfl, rfl, rfl, rfl, rfl⟩

/-! ### The words of the basic instructions -/

/-- A basic word of any three fields is the word of the operands its fields spell (R81). -/
theorem encodeBasic_decodeOperand (o : BitVec 5) (A : BitVec 6) (B : BitVec 5) :
    encodeBasic o (decodeOperand (0b0#1 ++ B)) (decodeOperand A) = A ++ B ++ o := by
  rw [encodeBasic, encodeOperand_decodeOperand, encodeOperand_bField]

/-- The words of a row of the basic map are those of its instruction (R99). -/
theorem basicWord {value : OpcodeValues → BitVec 5} {o : BitVec 5} {mk : Operand → Operand → Instr}
    (ho : value defaultOpcodes = o) (hrow : ∀ v, (value v, mk) ∈ basicTable v) : BasicWord value o mk := by
  refine ⟨ho, fun v hv A B => ?_⟩
  rw [← encodeBasic_decodeOperand]
  exact decode_encodeBasic hv (hrow v) (fitsB_decodeOperand B) _

/-- What decodes is the instruction of a row of the basic map, or, the opcode field 0, of the special map (R99, R100). -/
theorem row_of_decode {v : OpcodeValues} {w : Word} {i : Instr} (h : decode v w = .ok i) :
    (∃ mk, (opField w, mk) ∈ basicTable v ∧
      i = mk (decodeOperand (0b0#1 ++ bField w)) (decodeOperand (aField w))) ∨
    (∃ mk, (bField w, mk) ∈ specialTable v ∧ i = mk (decodeOperand (aField w))) := by
  unfold decode at h
  split at h
  · cases hrow : findRow (bField w) (specialTable v) with
    | none => simp [decodeSpecial, hrow] at h
    | some mk =>
      simp only [decodeSpecial, hrow, Except.ok.injEq] at h
      exact .inr ⟨mk, mem_of_findRow hrow, h.symm⟩
  · cases hrow : findRow (opField w) (basicTable v) with
    | none => simp [decodeBasic, hrow] at h
    | some mk =>
      simp only [decodeBasic, hrow, Except.ok.injEq] at h
      exact .inl ⟨mk, mem_of_findRow hrow, h.symm⟩

/-! ### The conditional class -/

/-- The rows of the conditional map are the conditionals (R103). -/
theorem mem_conditionals_of_row {v : OpcodeValues} {o : BitVec 5} {mk : Operand → Operand → Instr}
    (h : (o, mk) ∈ conditionalTable v) : mk ∈ conditionals :=
  List.mem_map_of_mem (f := Prod.snd) h

theorem isIf_of_mem_conditionals {mk : Operand → Operand → Instr} (h : mk ∈ conditionals) (b a : Operand) :
    isIf (mk b a) = true := by
  simp only [conditionals, List.mem_cons, List.not_mem_nil, or_false] at h
  rcases h with rfl | rfl | rfl | rfl | rfl | rfl | rfl | rfl <;> rfl

/-- No other basic instruction is an IF. -/
theorem isIf_of_plain_row {v : OpcodeValues} {o : BitVec 5} {mk : Operand → Operand → Instr}
    (h : (o, mk) ∈ arithmeticTable v ++ carryTable v) (b a : Operand) : isIf (mk b a) = false := by
  have hall : ∀ row ∈ arithmeticTable v ++ carryTable v, isIf (row.2 b a) = false := by
    simp [arithmeticTable, carryTable, isIf]
  exact hall _ h

/-- No special instruction is an IF. -/
theorem isIf_of_special_row {v : OpcodeValues} {op : BitVec 5} {mk : Operand → Instr}
    (h : (op, mk) ∈ specialTable v) (a : Operand) : isIf (mk a) = false := by
  have hall : ∀ row ∈ specialTable v, isIf (row.2 a) = false := by
    simp [specialTable, isIf]
  exact hall _ h

/-- The conditional words are exactly those that decode to an IF (R103). -/
theorem isConditional_iff_decode {v : OpcodeValues} {w : Word} (hv : v.wf = true) :
    isConditional v w = true ↔ ∃ mk ∈ conditionals, ∃ b a, decode v w = .ok (mk b a) := by
  constructor
  · intro h
    obtain ⟨-, hkey⟩ := Bool.and_eq_true_iff.1 h
    obtain ⟨⟨o, mk⟩, hrow, ho⟩ := List.mem_map.1 (List.contains_iff_mem.1 hkey)
    exact ⟨mk, mem_conditionals_of_row hrow, _, _, decode_basic hv (List.mem_append_left _ hrow) ho.symm⟩
  · rintro ⟨mk, hmk, b, a, h⟩
    have hif := isIf_of_mem_conditionals hmk b a
    rcases row_of_decode h with ⟨mk', hrow, e⟩ | ⟨mk', hrow, e⟩
    · rcases List.mem_append.1 hrow with hcond | hplain
      · exact isConditional_conditional hv hcond rfl
      · rw [e, isIf_of_plain_row hplain] at hif
        cases hif
    · rw [e, isIf_of_special_row hrow] at hif
      cases hif

/-- By default the conditional words are those of the opcodes 0x10 to 0x17 (R103). -/
theorem isConditional_default (w : Word) :
    isConditional defaultOpcodes w = true ↔ 0x10 ≤ (opField w).toNat ∧ (opField w).toNat ≤ 0x17 := by
  unfold isConditional
  generalize opField w = o
  revert o; decide

/-! ### The rules of the conditionals -/

/-- The signed reading of a word is the library's (R11). -/
theorem sval_eq_toInt (w : Word) : sval w = w.toInt := by
  have := w.isLt
  rw [sval, BitVec.toInt]
  split <;> split <;> omega

/-- An instruction of the conditional map that ends in `continueIf` of its test, after the basic frame, has the rule of a conditional
(R171). -/
theorem ifRule {value : OpcodeValues → BitVec 5} {o : BitVec 5} {mk : Operand → Operand → Instr}
    {base : BaseCosts → Nat} {test : Ref → Ref → Prop} (pass : Ref → Ref → Bool) (ho : value defaultOpcodes = o)
    (hcost : base defaultCosts = 2) (hrow : ∀ v, (value v, mk) ∈ conditionalTable v)
    (hexec : ∀ b a s, exec (mk b a) s =
      continueIf (pass (dstRef b a s) (srcRef a s)) (afterBasic (base s.params.cost) b a s))
    (hpass : ∀ rb ra, pass rb ra = true ↔ test rb ra) : IfRule value o mk base test := by
  refine ⟨basicWord ho fun v => List.mem_append_left _ (hrow v), hcost, fun b a s => ?_⟩
  rw [hexec, continueIf, ← hpass]
  exact ⟨fun h => if_pos h, fun h => if_neg h⟩

/-- Settles O21: the class by the opcode tables; each of the eight is `continueIf` of its test. -/
theorem conditionalResults : Obligations.ConditionalResults := by
  refine ⟨isConditional_default, fun _ _ => isConditional_iff_decode, ?ifb, ?ifc, ?ife, ?ifn, ?ifg, ?ifa, ?ifl,
    ?ifu⟩
  case ifb =>
    exact ifRule (fun rb ra => rb.u &&& ra.u != 0) rfl rfl (by simp [conditionalTable]) (fun _ _ _ => rfl)
      (by simp)
  case ifc =>
    exact ifRule (fun rb ra => rb.u &&& ra.u == 0) rfl rfl (by simp [conditionalTable]) (fun _ _ _ => rfl)
      (by simp)
  case ife =>
    exact ifRule (fun rb ra => rb.u == ra.u) rfl rfl (by simp [conditionalTable]) (fun _ _ _ => rfl)
      (by simp)
  case ifn =>
    exact ifRule (fun rb ra => rb.u != ra.u) rfl rfl (by simp [conditionalTable]) (fun _ _ _ => rfl)
      (by simp)
  case ifg =>
    exact ifRule (fun rb ra => decide (uval ra.u < uval rb.u)) rfl rfl (by simp [conditionalTable]) (fun _ _ _ => rfl)
      (by simp [uval])
  case ifa =>
    exact ifRule (fun rb ra => decide (ra.s < rb.s)) rfl rfl (by simp [conditionalTable]) (fun _ _ _ => rfl)
      (by simp [Ref.s, sval_eq_toInt])
  case ifl =>
    exact ifRule (fun rb ra => decide (uval rb.u < uval ra.u)) rfl rfl (by simp [conditionalTable]) (fun _ _ _ => rfl)
      (by simp [uval])
  case ifu =>
    exact ifRule (fun rb ra => decide (rb.s < ra.s)) rfl rfl (by simp [conditionalTable]) (fun _ _ _ => rfl)
      (by simp [Ref.s, sval_eq_toInt])

/-! ### The step -/

theorem andThen_assoc (r : Result) (f g : State → Result) :
    andThen (andThen r f) g = andThen r fun s => andThen (f s) g := by
  cases r <;> rfl

/-- Clocking devices in order is a fold over them, whatever came before (R294). -/
theorem foldl_deviceClock (n : Nat) (ks : List Nat) (r : Result) :
    ks.foldl (fun r k => andThen r (deviceClock k n)) r = andThen r (clockDevices n ks) := by
  induction ks generalizing r with
  | nil => cases r <;> rfl
  | cons k ks ih =>
    rw [List.foldl_cons, ih, andThen_assoc]
    rfl

/-- The broadcast clocks each device in index order with the cost of the step (R294). -/
theorem broadcast_eq_foldl (s : State) :
    broadcast s = (List.range s.devices.length).foldl (fun r k => andThen r (deviceClock k s.cyc)) (.next s) :=
  (foldl_deviceClock s.cyc (List.range s.devices.length) (.next s)).symm

/-- A step off fire whose word decodes is the instruction, then the end of the step (R109). -/
theorem step_of_decode {s : State} {i : Instr} (hfire : s.fire = none)
    (hdecode : decode s.params.opcodes (s.readMem s.pc) = .ok i) :
    step s = andThen (exec i { s with pc := s.pc + 1, cyc := 0 }) endStep := by
  have hword : decode s.params.opcodes (fetchWord s).1 = .ok i := hdecode
  have hbegin : beginStep s = .run i (fetchWord s).2 := by simp only [beginStep, hfire, hword]
  rw [step, hbegin]
  rfl

/-- Settles O40: the end of the step is the broadcast, a fold over the devices, and the dispatch. -/
theorem stepRunsDecodedInstruction : Obligations.StepRunsDecodedInstruction := by
  intro s i hfire hdecode
  rw [step_of_decode hfire hdecode]
  congr 1
  funext t
  rw [endStep, broadcast_eq_foldl]

end Sys2Proof.Machine
end

section
/-! ## Arithmetic: SET, MOD and MDI, the whole product, quotient and remainder, and the double-word addition

The quotients and remainders of the model are the library's division of words, unsigned and signed; the product and its EX are the two
halves of one 32-bit word. -/

namespace Sys2Proof.Machine

open Sys2Proof.Claims

/-! ### The rules of SET, MOD and MDI -/

/-- An instruction of the basic map that ends in `effect`, after the basic frame, has the rule of a basic instruction (R107). -/
theorem basicRule {value : OpcodeValues → BitVec 5} {o : BitVec 5} {mk : Operand → Operand → Instr}
    {base : BaseCosts → Nat} {cycles : Nat} {effect : Ref → Ref → State → State} (ho : value defaultOpcodes = o)
    (hcost : base defaultCosts = cycles) (hrow : ∀ v, (value v, mk) ∈ basicTable v)
    (hexec : ∀ b a s,
      exec (mk b a) s = .next (effect (dstRef b a s) (srcRef a s) (afterBasic (base s.params.cost) b a s))) :
    BasicRule value o mk base cycles effect :=
  ⟨basicWord ho hrow, hcost, hexec⟩

/-- A word made of a natural number (R10). -/
theorem u16_natCast (n : Nat) : u16 (n : Int) = BitVec.ofNat 16 n :=
  BitVec.ofInt_natCast 16 n

theorem modVal_eq (b a : Word) : modVal b a = if a = 0 then 0 else BitVec.ofNat 16 (b.toNat % a.toNat) := by
  rw [modVal, uval, uval, ← Int.ofNat_fmod, u16_natCast]

theorem mdiVal_eq (b a : Word) :
    mdiVal b a = if a = 0 then 0 else BitVec.ofInt 16 (b.toInt - a.toInt * b.toInt.tdiv a.toInt) := by
  rw [mdiVal, sval_eq_toInt, sval_eq_toInt, u16]

/-- Settles O9: each of the three ends in one write, of a's value or of the remainder. -/
theorem setModMdiResults : Obligations.SetModMdiResults := by
  refine ⟨?set, ?mod, ?mdi⟩
  case set =>
    exact basicRule rfl rfl (by simp [basicTable, arithmeticTable]) fun _ _ _ => rfl
  case mod =>
    refine basicRule rfl rfl (by simp [basicTable, arithmeticTable]) fun b a s => ?_
    rw [← modVal_eq]
    rfl
  case mdi =>
    refine basicRule rfl rfl (by simp [basicTable, arithmeticTable]) fun b a s => ?_
    rw [← mdiVal_eq]
    rfl

/-! ### The whole product -/

/-- Two words side by side, read as one number. -/
theorem toNat_append_word (hi lo : Word) : (hi ++ lo).toNat = hi.toNat * 0x10000 + lo.toNat := by
  rw [BitVec.toNat_append, ← Nat.shiftLeft_add_eq_or_of_lt lo.isLt, Nat.shiftLeft_eq]

/-- The high and the low word of an integer are the two halves of its 32 bits. -/
theorem u16_fdiv_append_u16 (p : Int) : u16 (p.fdiv 0x10000) ++ u16 p = BitVec.ofInt 32 p := by
  apply BitVec.eq_of_toNat_eq
  rw [toNat_append_word, u16, u16, Int.fdiv_eq_ediv_of_nonneg p (by decide)]
  simp only [BitVec.toNat_ofInt]
  omega

/-- Settles O17: both products fit 32 bits, whose halves are EX and the result. -/
theorem multiplyGivesWholeProduct : Obligations.MultiplyGivesWholeProduct := by
  intro b a
  constructor
  · have hfit : b.toNat * a.toNat < 2 ^ 32 := (Nat.mul_lt_mul'' b.isLt a.isLt).trans_eq (by decide)
    calc (mulVal b a).ex.toNat * 0x10000 + (mulVal b a).val.toNat
        = (BitVec.ofInt 32 (uval b * uval a)).toNat := by rw [← toNat_append_word, mulVal, u16_fdiv_append_u16]
      _ = (BitVec.ofNat 32 (b.toNat * a.toNat)).toNat := by
        rw [uval, uval, ← Int.natCast_mul, BitVec.ofInt_natCast]
      _ = b.toNat * a.toNat := by rw [BitVec.toNat_ofNat, Nat.mod_eq_of_lt hfit]
  · have hlow : -2 ^ 30 ≤ b.toInt * a.toInt := BitVec.le_toInt_mul_toInt
    have hhigh : b.toInt * a.toInt ≤ 2 ^ 30 := BitVec.toInt_mul_toInt_le
    rw [mliVal, u16_fdiv_append_u16, sval_eq_toInt, sval_eq_toInt]
    exact BitVec.toInt_ofInt_eq_self (by decide) (by omega) (by omega)

/-! ### Quotient and remainder -/

/-- A nonzero divisor is not 0 in its unsigned reading. -/
theorem toNat_pos_of_ne_zero {a : Word} (ha : a ≠ 0) : 0 < a.toNat := by
  simpa [Nat.pos_iff_ne_zero, ← BitVec.toNat_inj] using ha

/-- A nonzero divisor is not 0 in its signed reading. -/
theorem toInt_ne_zero_of_ne_zero {a : Word} (ha : a ≠ 0) : a.toInt ≠ 0 := by
  simpa [← BitVec.toInt_inj] using ha

/-- DIV is the unsigned quotient of words. -/
theorem divVal_val {a : Word} (ha : a ≠ 0) (b : Word) : (divVal b a).val = b / a := by
  simp only [divVal, if_neg ha, uval]
  rw [← Int.ofNat_fdiv, u16_natCast, ← BitVec.toNat_udiv, BitVec.ofNat_toNat, BitVec.setWidth_eq]

/-- MOD is the unsigned remainder of words. -/
theorem modVal_eq_umod {a : Word} (ha : a ≠ 0) (b : Word) : modVal b a = b % a := by
  rw [modVal_eq, if_neg ha, ← BitVec.toNat_umod, BitVec.ofNat_toNat, BitVec.setWidth_eq]

/-- The bits of `b / a` below the point are those of `(b mod a) / a`. -/
theorem divVal_ex_toNat {a : Word} (ha : a ≠ 0) (b : Word) :
    (divVal b a).ex.toNat = b.toNat % a.toNat * 0x10000 / a.toNat := by
  have hpos := toNat_pos_of_ne_zero ha
  have hfrac : b.toNat % a.toNat * 0x10000 / a.toNat < 0x10000 :=
    Nat.div_lt_of_lt_mul (Nat.mul_lt_mul_of_pos_right (Nat.mod_lt _ hpos) (by decide))
  have hsplit : b.toNat * 0x10000 / a.toNat =
      b.toNat % a.toNat * 0x10000 / a.toNat + b.toNat / a.toNat * 0x10000 := by
    rw [← Nat.add_mul_div_right _ _ hpos, Nat.mul_right_comm, ← Nat.add_mul, Nat.mod_add_div']
  have hex : (divVal b a).ex = BitVec.ofNat 16 (b.toNat * 0x10000 / a.toNat) := by
    simp only [divVal, if_neg ha, uval]
    rw [← u16_natCast, Int.ofNat_fdiv, Int.natCast_mul]
    rfl
  rw [hex, hsplit, BitVec.toNat_ofNat, Nat.add_mul_mod_self_right, Nat.mod_eq_of_lt hfrac]

/-- DVI is the signed quotient of words. -/
theorem dviVal_val {a : Word} (ha : a ≠ 0) (b : Word) : (dviVal b a).val = b.sdiv a := by
  rw [← BitVec.toInt_inj, BitVec.toInt_sdiv, ← BitVec.toInt_ofInt]
  simp only [dviVal, if_neg ha, u16, sval_eq_toInt]

/-- MDI is the signed remainder of words. -/
theorem mdiVal_eq_srem {a : Word} (ha : a ≠ 0) (b : Word) : mdiVal b a = b.srem a := by
  rw [mdiVal_eq, if_neg ha, ← Int.tmod_def, ← BitVec.toInt_srem, BitVec.ofInt_toInt]

/-- The identity of integer division, read modulo 2^16. -/
theorem sdiv_mul_add_srem (b a : Word) : b.sdiv a * a + b.srem a = b := by
  have hq : b.sdiv a = BitVec.ofInt 16 (b.toInt.tdiv a.toInt) := by
    rw [← BitVec.toInt_inj, BitVec.toInt_sdiv, BitVec.toInt_ofInt]
  have hr : b.srem a = BitVec.ofInt 16 (b.toInt.tmod a.toInt) := by
    rw [← BitVec.toInt_srem, BitVec.ofInt_toInt]
  calc b.sdiv a * a + b.srem a
      = BitVec.ofInt 16 (b.toInt.tdiv a.toInt * a.toInt + b.toInt.tmod a.toInt) := by
        rw [hq, hr, BitVec.ofInt_add, BitVec.ofInt_mul, BitVec.ofInt_toInt]
    _ = b := by rw [Int.tdiv_mul_add_tmod, BitVec.ofInt_toInt]

/-- A positive remainder has a positive dividend. -/
theorem pos_of_tmod_pos {m k : Int} (h : 0 < m.tmod k) : 0 < m := by
  by_contra hm
  have hneg : 0 ≤ (-m).tmod k := Int.tmod_nonneg k (by omega)
  rw [Int.neg_tmod] at hneg
  omega

/-- A negative remainder has a negative dividend. -/
theorem neg_of_tmod_neg {m k : Int} (h : m.tmod k < 0) : m < 0 := by
  by_contra hm
  have hpos : 0 ≤ m.tmod k := Int.tmod_nonneg k (by omega)
  omega

/-- The signed quotient wraps for the least dividend by -1 only. -/
theorem operands_of_toInt_sdiv_ne {b a : Word} (h : (b.sdiv a).toInt ≠ b.toInt.tdiv a.toInt) :
    b = 0x8000 ∧ a = 0xFFFF := by
  by_contra hne
  rcases not_and_or.1 hne with hb | ha
  · exact h (BitVec.toInt_sdiv_of_ne_or_ne b a (.inl hb))
  · exact h (BitVec.toInt_sdiv_of_ne_or_ne b a (.inr ha))

/-- Settles O18: the model's quotients and remainders are those of words, whose laws these are. -/
theorem quotientAndRemainderFit : Obligations.QuotientAndRemainderFit := by
  intro b a ha
  have hpos := toNat_pos_of_ne_zero ha
  rw [divVal_val ha, divVal_ex_toNat ha, modVal_eq_umod ha, dviVal_val ha, mdiVal_eq_srem ha, BitVec.toInt_srem,
    BitVec.toNat_udiv, BitVec.toNat_umod]
  refine ⟨⟨Nat.div_add_mod' _ _, Nat.mod_lt _ hpos⟩, rfl, sdiv_mul_add_srem b a, pos_of_tmod_pos, neg_of_tmod_neg, ?_,
    operands_of_toInt_sdiv_ne⟩
  rw [Int.natAbs_tmod]
  exact Nat.mod_lt _ (Int.natAbs_pos.2 (toInt_ne_zero_of_ne_zero ha))

/-! ### Double-word addition -/

/-- A sum of at most 17 bits is its carry and its word. -/
theorem carry_mul_add_u16 {n : Nat} (h : n < 0x20000) :
    (if 0xFFFF < (n : Int) then 1 else 0 : Word).toNat * 0x10000 + (u16 n).toNat = n := by
  rw [u16_natCast, BitVec.toNat_ofNat]
  split <;> simp <;> omega

/-- ADD gives the 17 bits of the sum (R121). -/
theorem addVal_sum (b a : Word) : (addVal b a).ex.toNat * 0x10000 + (addVal b a).val.toNat = b.toNat + a.toNat := by
  simp only [addVal, uval, ← Int.natCast_add]
  exact carry_mul_add_u16 (by omega)

/-- The carry of ADD is one bit (R121). -/
theorem addVal_ex_le_one (b a : Word) : (addVal b a).ex.toNat ≤ 1 := by
  simp only [addVal]
  split <;> decide

/-- ADX on a carry of one bit gives the 17 bits of the sum (R190, D13). -/
theorem adxVal_flag_sum (b a : Word) {ex : Word} (hex : ex.toNat ≤ 1) :
    (adxVal .flag b a ex).ex.toNat * 0x10000 + (adxVal .flag b a ex).val.toNat = b.toNat + a.toNat + ex.toNat := by
  simp only [adxVal, uval, ← Int.natCast_add]
  exact carry_mul_add_u16 (by omega)

/-- Settles O20: each half gives the 17 bits of its sum, the carry of the low half going into the high one. -/
theorem addThenAdxAddsDoubleWords : Obligations.AddThenAdxAddsDoubleWords := by
  intro bl bh al ah
  have hlo := addVal_sum bl al
  have hhi := adxVal_flag_sum bh ah (addVal_ex_le_one bl al)
  linear_combination hlo + 2 ^ 16 * hhi

end Sys2Proof.Machine
end

section
/-! ## Bitwise instructions and shifts

A right shift by at most 16 places is a product by the complementary power of two, so SHL, SHR and ASR all come down to one 32-bit
word that holds the product exactly. -/

namespace Sys2Proof.Machine

open Sys2Proof.Claims

/-! ### The rules of AND, BOR and XOR -/

/-- Settles O12: each of the three is a row of the basic map and ends in one write. -/
theorem bitwiseResults : Obligations.BitwiseResults := by
  refine ⟨?and, ?bor, ?xor⟩
  case and =>
    exact basicRule rfl rfl (by simp [basicTable, arithmeticTable]) fun _ _ _ => rfl
  case bor =>
    exact basicRule rfl rfl (by simp [basicTable, arithmeticTable]) fun _ _ _ => rfl
  case xor =>
    exact basicRule rfl rfl (by simp [basicTable, arithmeticTable]) fun _ _ _ => rfl

/-! ### The two words of a shift, side by side -/

/-- SHL leaves in EX and the destination the low 32 bits of the product (R155). -/
theorem shlVal_append (b : Word) (n : Nat) :
    (shlVal b n).ex ++ (shlVal b n).val = BitVec.ofInt 32 (uval b * 2 ^ n) :=
  u16_fdiv_append_u16 _

/-- By at most 16 places nothing is shifted out of the 16 fraction bits. -/
theorem fdiv_two_pow_of_le {n : Nat} (hn : n ≤ 16) (m : Int) :
    (m * 0x10000).fdiv (2 ^ n) = m * 2 ^ (16 - n) := by
  have hpow : (0x10000 : Int) = 2 ^ (16 - n) * 2 ^ n := by rw [← pow_add, Nat.sub_add_cancel hn]; rfl
  rw [hpow, ← Int.mul_assoc, Int.mul_fdiv_cancel _ (by positivity)]

/-- A right shift by at most 16 places, the whole part beside the fraction, is the value with 16 fraction bits. -/
theorem u16_shiftRight_append {n : Nat} (hn : n ≤ 16) (m : Int) :
    u16 (m.fdiv (2 ^ n)) ++ u16 ((m * 0x10000).fdiv (2 ^ n)) = BitVec.ofInt 32 (m * 2 ^ (16 - n)) := by
  have hwhole : m.fdiv (2 ^ n) = ((m * 0x10000).fdiv (2 ^ n)).fdiv 0x10000 := by
    rw [Int.fdiv_fdiv_eq_fdiv_mul _ (by positivity) (by decide), Int.mul_fdiv_mul_of_pos_left _ _ (by decide)]
  rw [hwhole, u16_fdiv_append_u16, fdiv_two_pow_of_le hn]

/-- The 32-bit word holds the unsigned product exactly. -/
theorem toNat_ofInt_uval_mul_two_pow (b : Word) {k : Nat} (hk : k ≤ 16) :
    (BitVec.ofInt 32 (uval b * 2 ^ k)).toNat = b.toNat * 2 ^ k := by
  have hpow : 2 ^ k ≤ 2 ^ 16 := Nat.pow_le_pow_right (by decide) hk
  have hfit : b.toNat * 2 ^ k < 2 ^ 16 * 2 ^ 16 := Nat.mul_lt_mul_of_lt_of_le b.isLt hpow (by decide)
  have hcast : uval b * 2 ^ k = (b.toNat * 2 ^ k : Nat) := by simp [uval]
  rw [hcast, BitVec.ofInt_natCast, BitVec.toNat_ofNat]
  exact Nat.mod_eq_of_lt hfit

/-- The 32-bit word holds the signed product exactly. -/
theorem toInt_ofInt_sval_mul_two_pow (b : Word) {k : Nat} (hk : k ≤ 16) :
    (BitVec.ofInt 32 (sval b * 2 ^ k)).toInt = b.toInt * 2 ^ k := by
  have hpos : (0 : Int) < 2 ^ k := by positivity
  have hpow : (2 : Int) ^ k ≤ 0x10000 := pow_le_pow_right₀ (by decide) hk
  have hlow : -0x8000 ≤ b.toInt := BitVec.le_toInt b
  have hhigh : b.toInt < 0x8000 := BitVec.toInt_lt
  have hfitLow : -0x80000000 ≤ b.toInt * 2 ^ k := by nlinarith
  have hfitHigh : b.toInt * 2 ^ k < 0x80000000 := by nlinarith
  rw [sval_eq_toInt]
  exact BitVec.toInt_ofInt_eq_self (by decide) hfitLow hfitHigh

/-! ### Counts from 32 on -/

/-- A number below the divisor in size has quotient 0, or -1 when it is negative. -/
theorem fdiv_two_pow_of_small {m : Int} {n : Nat} (hlow : -2 ^ n ≤ m) (hhigh : m < 2 ^ n) :
    m.fdiv (2 ^ n) = if m < 0 then -1 else 0 := by
  rw [Int.fdiv_eq_ediv_of_nonneg m (by positivity)]
  split
  · next hneg => exact Int.ediv_eq_neg_one_of_neg_of_le hneg (by omega)
  · next hpos => exact Int.ediv_eq_zero_of_lt (by omega) hhigh

/-- A multiple of 2^16 leaves nothing in a word. -/
theorem u16_mul_two_pow_of_le {n : Nat} (hn : 16 ≤ n) (m : Int) : u16 (m * 2 ^ n) = 0 := by
  obtain ⟨k, rfl⟩ := Nat.exists_eq_add_of_le' hn
  rw [u16, pow_add, ← Int.mul_assoc, BitVec.ofInt_mul]
  exact BitVec.mul_zero

/-- SHL by 32 places or more (R155). -/
theorem shlVal_of_le {n : Nat} (hn : 32 ≤ n) (b : Word) : shlVal b n = ⟨0, 0⟩ := by
  have hex : (uval b * 2 ^ n).fdiv 0x10000 = uval b * 2 ^ (n - 16) := by
    have hpow : (2 : Int) ^ n = 2 ^ (n - 16) * 0x10000 := by
      rw [← Nat.sub_add_cancel (show 16 ≤ n by omega), pow_add, Nat.add_sub_cancel]; rfl
    rw [hpow, ← Int.mul_assoc, Int.mul_fdiv_cancel _ (by decide)]
  simp only [shlVal, hex]
  rw [u16_mul_two_pow_of_le (by omega), u16_mul_two_pow_of_le (by omega)]

/-- Both words of a right shift by 32 places or more are the sign of the value. -/
theorem u16_shiftRight_of_le {n : Nat} (hn : 32 ≤ n) {m : Int} (hlow : -2 ^ 16 ≤ m) (hhigh : m < 2 ^ 16) :
    ValEx.mk (u16 (m.fdiv (2 ^ n))) (u16 ((m * 0x10000).fdiv (2 ^ n))) =
      if m < 0 then ⟨0xFFFF, 0xFFFF⟩ else ⟨0, 0⟩ := by
  have hpow : (2 : Int) ^ 32 ≤ 2 ^ n := pow_le_pow_right₀ (by decide) hn
  rw [fdiv_two_pow_of_small (by omega) (by omega), fdiv_two_pow_of_small (by omega) (by omega)]
  by_cases hneg : m < 0
  · rw [if_pos hneg, if_pos (by omega), if_pos hneg]; rfl
  · rw [if_neg hneg, if_neg (by omega), if_neg hneg]; rfl

/-- SHR by 32 places or more (R153). -/
theorem shrVal_of_le {n : Nat} (hn : 32 ≤ n) (b : Word) : shrVal b n = ⟨0, 0⟩ := by
  have hnonneg : 0 ≤ uval b := Int.natCast_nonneg _
  have hhigh : uval b < 2 ^ 16 := Int.ofNat_lt.2 b.isLt
  rw [shrVal, u16_shiftRight_of_le hn (by omega) hhigh, if_neg (by omega)]

/-- ASR by 32 places or more (R154). -/
theorem asrVal_of_le {n : Nat} (hn : 32 ≤ n) (b : Word) :
    asrVal b n = if b.toInt < 0 then ⟨0xFFFF, 0xFFFF⟩ else ⟨0, 0⟩ := by
  have hlow : -2 ^ 15 ≤ b.toInt := BitVec.le_toInt b
  have hhigh : b.toInt < 2 ^ 15 := BitVec.toInt_lt
  rw [asrVal, sval_eq_toInt, u16_shiftRight_of_le hn (by omega) (by omega)]

/-- Settles O19: up to 16 places the two words together hold the product by a power of two; from 32 on nothing but the sign is left. -/
theorem shiftedBitsGoToEx : Obligations.ShiftedBitsGoToEx := by
  intro b n
  refine ⟨fun hn => ?shl, fun hn => ?shr, fun hn => ?asr,
    fun hn => ⟨shlVal_of_le hn b, shrVal_of_le hn b, asrVal_of_le hn b⟩⟩
  case shl =>
    rw [← toNat_append_word, shlVal_append, toNat_ofInt_uval_mul_two_pow b hn]
  case shr =>
    rw [← toNat_append_word, shrVal, u16_shiftRight_append hn, toNat_ofInt_uval_mul_two_pow b (Nat.sub_le _ _),
      Nat.mul_assoc, ← pow_add, Nat.sub_add_cancel hn]
    rfl
  case asr =>
    rw [asrVal, u16_shiftRight_append hn, toInt_ofInt_sval_mul_two_pow b (Nat.sub_le _ _), Int.mul_assoc, ← pow_add,
      Nat.sub_add_cancel hn]
    rfl

end Sys2Proof.Machine
end

section
/-! ## The skip chain and the frame of the conditionals

The addresses a chain passes are an orbit among 65536 words, so the first 65536 of them are all it ever meets: the bound of the model's
chain (log 9) cuts no chain short. -/

namespace Sys2Proof.Machine

open Sys2Proof.Claims

/-! ### One pass of the chain -/

/-- The state of a chain that has passed over `n` instructions (R170). -/
def afterPasses (s : State) (n : Nat) : State := { s with pc := skipAddress s s.pc n, cyc := s.cyc + n }

/-- A conditional is a valid word, under any numbering. -/
theorem isInvalid_of_isConditional {v : OpcodeValues} {w : Word} (h : isConditional v w = true) :
    isInvalid v w = false := by
  obtain ⟨hop, hkey⟩ := Bool.and_eq_true_iff.1 h
  have hmem : opField w ∈ (basicTable v).map Prod.fst := by
    rw [basicTable, List.map_append]
    exact List.mem_append_left _ (List.contains_iff_mem.1 hkey)
  obtain ⟨mk, hmk⟩ := Option.ne_none_iff_exists'.1 fun e => findRow_eq_none.1 e hmem
  rw [isInvalid, decode, if_neg (bne_iff_ne.1 hop), decodeBasic, hmk]

theorem isConditional_of_isInvalid {v : OpcodeValues} {w : Word} (h : isInvalid v w = true) :
    isConditional v w = false := by
  by_contra hcond
  simp [isInvalid_of_isConditional (Bool.eq_true_of_not_eq_false hcond)] at h

theorem skipChain_conditional {s : State} (h : isConditional s.params.opcodes (s.readMem s.pc) = true) (fuel : Nat) :
    skipChain (fuel + 1) s = skipChain fuel (afterPasses s 1) := by
  simp only [skipChain, h, isInvalid_of_isConditional h, Bool.false_and, Bool.false_eq_true, if_false, if_true]
  rfl

theorem skipChain_last {s : State} (h : isConditional s.params.opcodes (s.readMem s.pc) = false)
    (hskip : isInvalid s.params.opcodes (s.readMem s.pc) = true → s.params.skipInvalid = .skip) (fuel : Nat) :
    skipChain (fuel + 1) s = .next (afterPasses s 1) := by
  have hstop : (isInvalid s.params.opcodes (s.readMem s.pc) && s.params.skipInvalid == .fire) = false := by
    by_cases hinv : isInvalid s.params.opcodes (s.readMem s.pc) = true
    · simp [hskip hinv]
    · simp [hinv]
  simp only [skipChain, h, hstop, Bool.false_eq_true, if_false]
  rfl

theorem skipChain_fires {s : State} (h : isInvalid s.params.opcodes (s.readMem s.pc) = true)
    (hfire : s.params.skipInvalid = .fire) (fuel : Nat) :
    skipChain (fuel + 1) s = raise (.invalidOpcode (s.readMem s.pc) s.pc) s := by
  simp [skipChain, h, hfire]

/-- A chain runs out of passes only over conditionals. -/
theorem isConditional_of_skipChain_hangs {s : State} {fuel : Nat}
    (h : skipChain (fuel + 1) s = .fault .skipChainHangs) :
    isConditional s.params.opcodes (s.readMem s.pc) = true := by
  by_contra hcond
  have hlast := Bool.eq_false_of_not_eq_true hcond
  cases hmode : s.params.skipInvalid with
  | skip => simp [skipChain_last hlast fun _ => hmode] at h
  | fire =>
    by_cases hinv : isInvalid s.params.opcodes (s.readMem s.pc) = true
    · simp [skipChain_fires hinv hmode, raise] at h
    · simp [skipChain_last hlast fun hi => absurd hi hinv] at h

/-! ### Many passes -/

theorem conditionalsFor_mono {s : State} {m n : Nat} (h : conditionalsFor s n) (hmn : m ≤ n) : conditionalsFor s m :=
  fun k hk => h k (hk.trans_le hmn)

theorem conditionalsFor_succ {s : State} {n : Nat} :
    conditionalsFor s (n + 1) ↔
      conditionalsFor s n ∧ isConditional s.params.opcodes (s.readMem (skipAddress s s.pc n)) = true :=
  Nat.forall_lt_succ_right

/-- A chain over `n` conditionals goes on past them. -/
theorem skipChain_conditionals {s : State} {n : Nat} (h : conditionalsFor s n) (fuel : Nat) :
    skipChain (n + fuel) s = skipChain fuel (afterPasses s n) := by
  induction n generalizing fuel with
  | zero => rw [Nat.zero_add]; rfl
  | succ n ih =>
    obtain ⟨hn, hlast⟩ := conditionalsFor_succ.1 h
    calc skipChain (n + 1 + fuel) s
        = skipChain (n + (fuel + 1)) s := by rw [Nat.add_assoc, Nat.add_comm 1]
      _ = skipChain (fuel + 1) (afterPasses s n) := ih hn _
      _ = skipChain fuel (afterPasses s (n + 1)) := skipChain_conditional (s := afterPasses s n) hlast fuel

theorem skipChain_hangs_iff (fuel : Nat) (s : State) :
    skipChain fuel s = .fault .skipChainHangs ↔ conditionalsFor s fuel := by
  constructor
  · intro h
    suffices ∀ k ≤ fuel, conditionalsFor s k from this fuel le_rfl
    intro k
    induction k with
    | zero => exact fun _ k hk => absurd hk (Nat.not_lt_zero k)
    | succ k ih =>
      intro hk
      obtain ⟨rest, rfl⟩ := Nat.exists_eq_add_of_le hk
      have hpassed := ih (by omega)
      rw [Nat.add_assoc, Nat.add_comm 1, skipChain_conditionals hpassed] at h
      exact conditionalsFor_succ.2 ⟨hpassed, isConditional_of_skipChain_hangs h⟩
  · intro h
    exact skipChain_conditionals h 0

/-! ### The addresses of a chain -/

/-- Where a chain goes depends only on the address it is at. -/
theorem skipAddress_add_congr {s : State} {p : Word} {i j : Nat} (h : skipAddress s p i = skipAddress s p j) (k : Nat) :
    skipAddress s p (i + k) = skipAddress s p (j + k) := by
  induction k with
  | zero => exact h
  | succ k ih => rw [← Nat.add_assoc, ← Nat.add_assoc, skipAddress, skipAddress, ih]

/-- Of the first 65537 addresses two are the same. -/
theorem exists_skipAddress_eq (s : State) (p : Word) :
    ∃ i j, i < j ∧ j ≤ memWords ∧ skipAddress s p i = skipAddress s p j := by
  have hcard : (Finset.range memWords).card < (Finset.range (memWords + 1)).card := by simp
  obtain ⟨i, hi, j, hj, hne, heq⟩ := Finset.exists_ne_map_eq_of_card_lt_of_maps_to hcard
    (f := fun k => (skipAddress s p k).toNat) fun k _ => Finset.mem_range.2 (skipAddress s p k).isLt
  have haddr := BitVec.eq_of_toNat_eq heq
  rw [Finset.mem_range, Nat.lt_succ_iff] at hi hj
  rcases Nat.lt_or_gt_of_ne hne with hlt | hgt
  · exact ⟨i, j, hlt, hj, haddr⟩
  · exact ⟨j, i, hgt, hi, haddr.symm⟩

/-- Every address of a chain is among its first 65536. -/
theorem exists_skipAddress_eq_of_lt (s : State) (p : Word) (n : Nat) :
    ∃ k < memWords, skipAddress s p n = skipAddress s p k := by
  induction n using Nat.strong_induction_on with
  | _ n ih =>
    rcases Nat.lt_or_ge n memWords with hn | hn
    · exact ⟨n, hn, rfl⟩
    · obtain ⟨i, j, hij, hj, heq⟩ := exists_skipAddress_eq s p
      obtain ⟨rest, rfl⟩ := Nat.exists_eq_add_of_le (hj.trans hn)
      obtain ⟨k, hk, e⟩ := ih (i + rest) (by omega)
      exact ⟨k, hk, (skipAddress_add_congr heq.symm rest).trans e⟩

/-- A chain that meets 65536 conditionals meets conditionals for ever (R171, I11). -/
theorem conditionalsFor_memWords {s : State} : conditionalsFor s memWords ↔ ∀ n, conditionalsFor s n := by
  refine ⟨fun h n k _ => ?_, fun h => h memWords⟩
  obtain ⟨j, hj, e⟩ := exists_skipAddress_eq_of_lt s s.pc k
  rw [e]
  exact h j hj

/-- A chain that ends has passes left at its last instruction. -/
theorem skip_eq_skipChain_succ {s : State} {n : Nat} (h : conditionalsFor s n)
    (hlast : isConditional s.params.opcodes (s.readMem (skipAddress s s.pc n)) = false) :
    ∃ fuel, skip s = skipChain (fuel + 1) (afterPasses s n) := by
  have hn : n < memWords := by
    by_contra hge
    have hendless := conditionalsFor_memWords.1 (conditionalsFor_mono h (Nat.le_of_not_lt hge)) (n + 1)
    simp [(conditionalsFor_succ.1 hendless).2] at hlast
  obtain ⟨fuel, e⟩ := Nat.exists_eq_add_of_lt hn
  exact ⟨fuel, by rw [skip, e, Nat.add_assoc, skipChain_conditionals h]⟩

/-! ### The chain's obligations -/

/-- Settles O22: the chain goes past the conditionals, and then passes the last instruction or fires at it. -/
theorem skipChainPassesConditionals : Obligations.SkipChainPassesConditionals := by
  intro s n h
  refine ⟨fun hlast hskip => ?_, fun hinv hfire => ?_⟩
  · obtain ⟨fuel, e⟩ := skip_eq_skipChain_succ h hlast
    exact e.trans (skipChain_last (s := afterPasses s n) hlast hskip fuel)
  · obtain ⟨fuel, e⟩ := skip_eq_skipChain_succ h (isConditional_of_isInvalid hinv)
    exact e.trans (skipChain_fires (s := afterPasses s n) hinv hfire fuel)

/-- Settles O23: the chain hangs where its 65536 passes meet conditionals only, and those are all it ever meets. -/
theorem skipChainHangsExactlyWhenEndless : Obligations.SkipChainHangsExactlyWhenEndless := fun s =>
  (skipChain_hangs_iff memWords s).trans conditionalsFor_memWords

/-! ### The frame of the conditionals -/

/-- Every conditional goes on or skips, after its operands are resolved (R171). -/
theorem exec_conditional {mk : Operand → Operand → Instr} (h : mk ∈ conditionals) (b a : Operand) (s : State) :
    ∃ cost test, exec (mk b a) s = continueIf test (afterBasic cost b a s) := by
  simp only [conditionals, List.mem_cons, List.not_mem_nil, or_false] at h
  rcases h with rfl | rfl | rfl | rfl | rfl | rfl | rfl | rfl <;> exact ⟨_, _, rfl⟩

/-- Passed or failed, a conditional that ends in a next state moved PC and counted cycles after the frame. -/
theorem continueIf_eq_next {test : Bool} {s t : State} (h : continueIf test s = .next t) :
    ∃ p n, t = (s.setPc p).addCycles n := by
  cases test with
  | true => cases h; exact ⟨s.pc, 0, rfl⟩
  | false =>
    have hskip : skipChain memWords s = .next t := h
    rcases skipChain_cases memWords s with ⟨n, p, e⟩ | ⟨n, p, e, -⟩ | e
    · cases e.symm.trans hskip; exact ⟨p, n, rfl⟩
    · cases e.symm.trans hskip
    · cases e.symm.trans hskip

/-- Settles O33: the frame of the operands, and a move of PC and the cost after it. -/
theorem conditionalsFrame : Obligations.ConditionalsFrame := by
  intro mk hmk b a s t he
  obtain ⟨cost, test, e⟩ := exec_conditional hmk b a s
  obtain ⟨p, n, rfl⟩ := continueIf_eq_next (e.symm.trans he)
  obtain ⟨hia, hiaq, hqueue, hfire, hdevices, himage, hparams⟩ := (afterBasic_destFrame cost b a s).untouched
  refine ⟨⟨hia, hiaq, hqueue, hfire, hdevices, himage, hparams⟩, ?gpr, ?ex, ?mem, fun hb ha => ?sp⟩
  case gpr => simp [afterBasic]
  case ex => simp
  case mem => simp [afterBasic]
  case sp => simp [afterBasic, resolve_sp_of_ne hb, resolve_sp_of_ne ha]

end Sys2Proof.Machine
end

section
/-! ## The stream instructions

STI and STD are one write and one move of I and J: STD's move is that of STI by -1, which among words is a subtraction. -/

namespace Sys2Proof.Machine

open Sys2Proof.Claims

/-- I and J move together, and nothing else does (R192, R193). -/
theorem stepIJ_eq (d : Word) (s : State) :
    stepIJ d s = { s with gpr := { s.gpr with i := s.gpr.i + d, j := s.gpr.j + d } } := rfl

/-- STD takes 1 from I and J (R193). -/
theorem stepIJ_neg_one (s : State) :
    stepIJ (-1) s = { s with gpr := { s.gpr with i := s.gpr.i - 1, j := s.gpr.j - 1 } } := by
  simp only [stepIJ_eq, sub_eq_add_neg]

/-- Settles O15: each of the two is a row of the basic map and ends in the move of I and J that follows its write. -/
theorem streamResults : Obligations.StreamResults := by
  refine ⟨?sti, ?std⟩
  case sti =>
    refine basicRule rfl rfl (by simp [basicTable, carryTable]) fun b a s => ?_
    rw [← stepIJ_eq]
    rfl
  case std =>
    refine basicRule rfl rfl (by simp [basicTable, carryTable]) fun b a s => ?_
    rw [← stepIJ_neg_one]
    rfl

end Sys2Proof.Machine
end

section
/-! ## The special instructions of control

JSR, INT, IAG, IAS, RFI and IAQ each resolve their operand and end in one operation of the stack or of the interrupt controller. What a
bypass trigger does, whatever IAQ was, is the controller's: it enters the handler, or drops messages because IA is 0. -/

namespace Sys2Proof.Machine

open Sys2Proof.Claims

/-! ### The words of the special instructions -/

/-- A special word of any two fields is the word of the operand its a field spells (R82). -/
theorem encodeSpecial_decodeOperand (op : BitVec 5) (A : BitVec 6) :
    encodeSpecial op (decodeOperand A) = A ++ op ++ 0b00000#5 := by
  rw [encodeSpecial, encodeOperand_decodeOperand]

/-- The words of a row of the special map are those of its instruction (R100). -/
theorem specialWord {value : OpcodeValues → BitVec 5} {op : BitVec 5} {mk : Operand → Instr}
    (ho : value defaultOpcodes = op) (hrow : ∀ v, (value v, mk) ∈ specialTable v) : SpecialWord value op mk := by
  refine ⟨ho, fun v hv A => ?_⟩
  rw [← encodeSpecial_decodeOperand]
  exact decode_encodeSpecial hv (hrow v) _

/-! ### The state after the special frame -/

@[simp] theorem afterSpecial_ia (cost : Nat) (a : Operand) (s : State) : (afterSpecial cost a s).ia = s.ia := by
  simp [afterSpecial]

@[simp] theorem afterSpecial_queue (cost : Nat) (a : Operand) (s : State) :
    (afterSpecial cost a s).queue = s.queue := by
  simp [afterSpecial]

@[simp] theorem afterSpecial_fire (cost : Nat) (a : Operand) (s : State) : (afterSpecial cost a s).fire = s.fire := by
  simp [afterSpecial]

@[simp] theorem afterSpecial_params (cost : Nat) (a : Operand) (s : State) :
    (afterSpecial cost a s).params = s.params := by
  simp [afterSpecial]

/-! ### Dispatch, bypass and return -/

/-- A dispatch with nothing waiting does nothing (R264). -/
theorem dispatch_of_queue_nil {s : State} (h : s.queue = []) : dispatch s = s := by
  rw [dispatch, h]

/-- A dispatch with a message waiting and IA not 0 enters the handler (R264). -/
theorem dispatch_of_ia_ne_zero {s : State} {m : Word} {rest : List Word} (hq : s.queue = m :: rest)
    (hiaq : s.iaq = false) (hia : s.ia ≠ 0) : dispatch s = enterInterrupt m rest s := by
  simp only [dispatch, hq, hiaq, Bool.false_eq_true, if_false, if_neg hia]

/-- A dispatch with a message waiting and IA = 0 drops what IA0_DROP says (R264, D35). -/
theorem dispatch_of_ia_zero {s : State} {m : Word} {rest : List Word} (hq : s.queue = m :: rest)
    (hiaq : s.iaq = false) (hia : s.ia = 0) : dispatch s = s.setQueue (droppedQueue s.params.ia0Drop rest) := by
  simp only [dispatch, hq, hiaq, Bool.false_eq_true, if_false, if_pos hia]

/-- A bypass puts its message before those that wait, turns queueing off and dispatches (R262). -/
theorem trigger_bypass (m : Word) {s : State} (hfire : s.fire = none) :
    trigger m true s = .next (dispatch ((s.setIaq false).setQueue (m :: s.queue))) :=
  ((trigger_cases m true s hfire).resolve_right (by simp)).2

/-- A bypass with IA not 0 enters the handler, whatever IAQ was, and leaves the waiting messages (R262). -/
theorem trigger_bypass_of_ia_ne_zero (m : Word) {s : State} (hfire : s.fire = none) (hia : s.ia ≠ 0) :
    trigger m true s = .next (enterInterrupt m s.queue s) := by
  rw [trigger_bypass m hfire, dispatch_of_ia_ne_zero (s := (s.setIaq false).setQueue (m :: s.queue)) rfl rfl hia]
  rfl

/-- A bypass with IA = 0 turns queueing off and drops what IA0_DROP says of the message and those that wait (R262, R264). -/
theorem trigger_bypass_of_ia_zero (m : Word) {s : State} (hfire : s.fire = none) (hia : s.ia = 0) :
    trigger m true s = .next ((s.setIaq false).setQueue (droppedQueue s.params.ia0Drop s.queue)) := by
  rw [trigger_bypass m hfire, dispatch_of_ia_zero (s := (s.setIaq false).setQueue (m :: s.queue)) rfl rfl hia]
  rfl

/-- The state after the return from an interrupt, before its dispatch (R214). -/
def returned (s : State) : State :=
  { s with
    iaq := false
    gpr := s.gpr.put .a (s.readMem s.sp)
    pc := s.readMem (s.sp + 1)
    sp := s.sp + 2 }

/-- A return takes A and then PC from the stack, and dispatches (R214). -/
theorem returnFromInterrupt_eq (s : State) : returnFromInterrupt s = dispatch (returned s) := by
  have h : s.sp + 1 + 1 = s.sp + 2 := BitVec.add_assoc _ _ _
  rw [returned, ← h]
  rfl

/-! ### INT and RFI -/

theorem exec_int (a : Operand) (s : State) :
    exec (.int a) s = trigger (srcRef a s).u true (afterSpecial s.params.cost.int a s) := rfl

/-- INT with IA = 0 turns queueing off and drops what IA0_DROP says of its message and those that wait (R211). -/
theorem exec_int_of_ia_zero (a : Operand) {s : State} (hfire : s.fire = none) (hia : s.ia = 0) :
    exec (.int a) s = .next (((afterSpecial s.params.cost.int a s).setIaq false).setQueue
      (droppedQueue s.params.ia0Drop (afterSpecial s.params.cost.int a s).queue)) := by
  rw [exec_int, trigger_bypass_of_ia_zero _ (by simpa using hfire) (by simpa using hia), afterSpecial_params]

theorem exec_rfi (a : Operand) (s : State) :
    exec (.rfi a) s = .next (dispatch (returned (afterSpecial s.params.cost.rfi a s))) :=
  congrArg Host.Outcome.next (returnFromInterrupt_eq _)

/-! ### The obligations -/

/-- Settles O24: JSR is a push of the PC its operand leaves, and a jump. -/
theorem jsrPushesReturnAddress : Obligations.JsrPushesReturnAddress :=
  ⟨specialWord rfl (by simp [specialTable]), rfl, fun _ _ => rfl⟩

/-- Settles O25: INT is a bypass trigger after the special frame, which leaves IA, the queue and IA0_DROP as they were. -/
theorem intEntersOrDiscards : Obligations.IntEntersOrDiscards := by
  refine ⟨specialWord rfl (by simp [specialTable]), rfl, rfl, fun a s hfire =>
    ⟨fun hia => ?enters, fun hia hdrop => ?dropsAll, fun hia hdrop => ?dropsOwn⟩⟩
  case enters =>
    rw [exec_int, trigger_bypass_of_ia_ne_zero _ (by simpa using hfire) (by simpa using hia), enterInterrupt_eq]
  case dropsAll =>
    rw [exec_int_of_ia_zero a hfire hia, hdrop]
    rfl
  case dropsOwn =>
    rw [exec_int_of_ia_zero a hfire hia, hdrop]
    rfl

/-- Settles O26: IAG writes the IA its frame leaves, which is the IA before; IAS sets IA. -/
theorem iagIasMoveIa : Obligations.IagIasMoveIa := by
  refine ⟨specialWord rfl (by simp [specialTable]), rfl, specialWord rfl (by simp [specialTable]), rfl,
    fun a s => ⟨?iag, rfl⟩⟩
  case iag =>
    rw [← afterSpecial_ia s.params.cost.iag a s]
    rfl

/-- Settles O27: RFI is the return from an interrupt, whose dispatch finds the queue as it was. -/
theorem rfiRestoresAThenPc : Obligations.RfiRestoresAThenPc := by
  refine ⟨specialWord rfl (by simp [specialTable]), rfl, fun a s => ⟨exec_rfi a s, fun hqueue => ?empty⟩⟩
  case empty =>
    have hnone : (returned (afterSpecial s.params.cost.rfi a s)).queue = [] := by simpa [returned] using hqueue
    rw [exec_rfi, dispatch_of_queue_nil hnone]
    rfl

/-- Settles O28: the operand's value decides between the flag and its release. -/
theorem iaqSetsOrReleases : Obligations.IaqSetsOrReleases := by
  refine ⟨specialWord rfl (by simp [specialTable]), rfl, fun a s => ⟨fun hne => ?sets, fun hzero => ?releases⟩⟩
  case sets => exact if_pos (bne_iff_ne.2 hne)
  case releases => exact if_neg fun h => bne_iff_ne.1 h hzero

end Sys2Proof.Machine
end

section
/-! ## The hardware instructions

HWN, HWQ and HWI resolve their operand, and HWQ and HWI look for the device at the index it names. What a command of a reference device
may change is one relation, `DeviceFrame`: other devices and every register but the listed ones stay, and memory outside the listed
cells. Each update of the state that a command is made of has its rule for it, and the frames of the commands are chains of these rules. -/

namespace Sys2Proof.Machine

open Sys2Proof.Claims

/-! ### The state after the special frame -/

@[simp] theorem afterSpecial_gpr (cost : Nat) (a : Operand) (s : State) : (afterSpecial cost a s).gpr = s.gpr := by
  simp [afterSpecial]

@[simp] theorem afterSpecial_ex (cost : Nat) (a : Operand) (s : State) : (afterSpecial cost a s).ex = s.ex := by
  simp [afterSpecial]

@[simp] theorem afterSpecial_iaq (cost : Nat) (a : Operand) (s : State) : (afterSpecial cost a s).iaq = s.iaq := by
  simp [afterSpecial]

@[simp] theorem afterSpecial_mem (cost : Nat) (a : Operand) (s : State) : (afterSpecial cost a s).mem = s.mem := by
  simp [afterSpecial]

@[simp] theorem afterSpecial_devices (cost : Nat) (a : Operand) (s : State) :
    (afterSpecial cost a s).devices = s.devices := by
  simp [afterSpecial]

@[simp] theorem afterSpecial_image (cost : Nat) (a : Operand) (s : State) :
    (afterSpecial cost a s).image = s.image := by
  simp [afterSpecial]

@[simp] theorem afterSpecial_readMem (cost : Nat) (a : Operand) (s : State) (x : Word) :
    (afterSpecial cost a s).readMem x = s.readMem x := by
  simp [State.readMem]

@[simp] theorem afterSpecial_bodyAt (cost : Nat) (a : Operand) (s : State) (k : Nat) :
    (afterSpecial cost a s).bodyAt k = s.bodyAt k := by
  simp [State.bodyAt]

theorem afterSpecial_sp_of_ne {a : Operand} (h : a ≠ .pushPop) (cost : Nat) (s : State) :
    (afterSpecial cost a s).sp = s.sp := by
  simp [afterSpecial, resolve_sp_of_ne h]

/-! ### The device at the index -/

/-- HWN writes the number of devices to its operand (R230). -/
theorem exec_hwn (a : Operand) (s : State) :
    exec (.hwn a) s =
      .next (writeRef (srcRef a s) (BitVec.ofNat 16 s.devices.length) (afterSpecial s.params.cost.hwn a s)) := by
  rw [← afterSpecial_devices s.params.cost.hwn a s]
  rfl

/-- The device HWQ and HWI look at is the one at the operand's index before the operand was resolved. -/
theorem specialFrame_device (cost : Nat) (a : Operand) (s : State) :
    (specialFrame cost a s).st.devices[(specialFrame cost a s).ra.u.toNat]? = s.devices[(srcRef a s).u.toNat]? := by
  simp [srcRef]

/-- HWQ reports the device at the index (R231). -/
theorem exec_hwq_of_device {a : Operand} {s : State} {d : Device} (h : s.devices[(srcRef a s).u.toNat]? = some d) :
    exec (.hwq a) s = .next (reportIdent d.ident (afterSpecial s.params.cost.hwq a s)) := by
  simp only [exec, execHwq, specialFrame_device, h]
  rfl

/-- HWQ fires where no device is at the index (R231, D23). -/
theorem exec_hwq_of_no_device {a : Operand} {s : State} (h : s.devices.length ≤ (srcRef a s).u.toNat) :
    exec (.hwq a) s = raise (.noSuchDevice (srcRef a s).u) (afterSpecial s.params.cost.hwq a s) := by
  simp only [exec, execHwq, specialFrame_device, List.getElem?_eq_none h]
  rfl

/-- HWI calls the device at the index (R232). -/
theorem exec_hwi_of_bodyAt {a : Operand} {s : State} {b : DeviceBody}
    (h : s.bodyAt (srcRef a s).u.toNat = some b) :
    exec (.hwi a) s = deviceReceive (srcRef a s).u.toNat (afterSpecial s.params.cost.hwi a s) := by
  obtain ⟨d, hd, -⟩ := Option.map_eq_some_iff.1 h
  simp only [exec, execHwi, specialFrame_device, hd]
  rfl

/-- HWI fires where no device is at the index (R232, D23). -/
theorem exec_hwi_of_no_device {a : Operand} {s : State} (h : s.devices.length ≤ (srcRef a s).u.toNat) :
    exec (.hwi a) s = raise (.noSuchDevice (srcRef a s).u) (afterSpecial s.params.cost.hwi a s) := by
  simp only [exec, execHwi, specialFrame_device, List.getElem?_eq_none h]
  rfl

/-! ### What a command of a reference device changes -/

/-- From `s` to `t` device `i` moved, the registers in `regs` and the words at the addresses in `cells` may have been written, and cycles
may have been consumed; all else is as it was. -/
structure DeviceFrame (i : Nat) (regs : List Gpr) (cells : Set Word) (s t : State) : Prop where
  rest : t = { s with gpr := t.gpr, mem := t.mem, devices := t.devices, cyc := t.cyc }
  others : ∀ k, k ≠ i → t.bodyAt k = s.bodyAt k
  gpr : ∀ r, r ∉ regs → t.gpr.get r = s.gpr.get r
  readMem : ∀ x, x ∉ cells → t.readMem x = s.readMem x

section
variable {i : Nat} {regs : List Gpr} {cells : Set Word} {s t : State}

theorem DeviceFrame.refl (i : Nat) (regs : List Gpr) (cells : Set Word) (s : State) : DeviceFrame i regs cells s s :=
  ⟨rfl, fun _ _ => rfl, fun _ _ => rfl, fun _ _ => rfl⟩

theorem DeviceFrame.setGpr (h : DeviceFrame i regs cells s t) {r : Gpr} (hr : r ∈ regs) (v : Word) :
    DeviceFrame i regs cells s (t.setGpr r v) where
  rest := congrArg (·.setGpr r v) h.rest
  others := h.others
  gpr q hq := (Gprs.get_put_ne _ v (ne_of_mem_of_not_mem hr hq).symm).trans (h.gpr q hq)
  readMem := h.readMem

theorem DeviceFrame.setBody (h : DeviceFrame i regs cells s t) (b : DeviceBody) :
    DeviceFrame i regs cells s (t.setBody i b) where
  rest := congrArg (·.setBody i b) h.rest
  others k hk := (bodyAt_setBody_ne t b hk).trans (h.others k hk)
  gpr := h.gpr
  readMem := h.readMem

theorem DeviceFrame.addCycles (h : DeviceFrame i regs cells s t) (n : Nat) :
    DeviceFrame i regs cells s (t.addCycles n) :=
  ⟨congrArg (·.addCycles n) h.rest, h.others, h.gpr, h.readMem⟩

/-- Memory is replaced by one that reads the same outside the cells. -/
theorem DeviceFrame.setMem (h : DeviceFrame i regs cells s t) {m : Memory}
    (hm : ∀ x, x ∉ cells → Memory.read m x.toNat = t.readMem x) : DeviceFrame i regs cells s { t with mem := m } where
  rest := congrArg (fun u : State => { u with mem := m }) h.rest
  others := h.others
  gpr := h.gpr
  readMem x hx := (hm x hx).trans (h.readMem x hx)

theorem DeviceFrame.writeMem (h : DeviceFrame i regs cells s t) {x : Word} (hx : x ∈ cells) (v : Word) :
    DeviceFrame i regs cells s (t.writeMem x v) :=
  h.setMem fun _ hy => State.readMem_writeMem_other t v fun e => hy (e ▸ hx)

theorem DeviceFrame.params (h : DeviceFrame i regs cells s t) : t.params = s.params := by
  rw [h.rest]

end

/-! ### The Clock, the Keyboard and the Display -/

theorem clockReceive_frame (i : Nat) (c : ClockState) (m : Word) (s : State) :
    DeviceFrame i [.c] ∅ s (clockReceive i c m s) := by
  have h := DeviceFrame.refl i [.c] ∅ s
  unfold clockReceive
  split
  · exact h.setBody _
  · exact (h.setGpr (by simp) _).setBody _
  · exact h.setBody _
  · exact h

@[simp] theorem clockReceive_mem (i : Nat) (c : ClockState) (m : Word) (s : State) :
    (clockReceive i c m s).mem = s.mem := by
  unfold clockReceive
  split <;> rfl

theorem keyboardReceive_frame (i : Nat) (k : KeyboardState) (m : Word) (s : State) :
    DeviceFrame i [.c] ∅ s (keyboardReceive i k m s) := by
  have h := DeviceFrame.refl i [.c] ∅ s
  have hc : Gpr.c ∈ [Gpr.c] := by simp
  unfold keyboardReceive
  split
  · exact h.setBody _
  · split
    · exact h.setGpr hc _
    · exact (h.setGpr hc _).setBody _
  · exact h.setGpr hc _
  · exact h.setBody _
  · exact h

@[simp] theorem keyboardReceive_mem (i : Nat) (k : KeyboardState) (m : Word) (s : State) :
    (keyboardReceive i k m s).mem = s.mem := by
  unfold keyboardReceive
  split
  case h_2 => split <;> rfl
  all_goals rfl

/-- The addresses less than `n` words from `base` on, wrapping (R61). -/
def wordsFrom (base : Word) (n : Nat) : Set Word := {x | (x - base).toNat < n}

theorem add_ofNat_mem_wordsFrom (base : Word) {k n : Nat} (h : k < n) : base + BitVec.ofNat 16 k ∈ wordsFrom base n := by
  have hk : (base + BitVec.ofNat 16 k - base).toNat = k % 65536 := by simp
  exact hk.trans_lt ((Nat.mod_le k _).trans_lt h)

theorem DeviceFrame.storeWords {i : Nat} {regs : List Gpr} {cells : Set Word} {s : State} (ws : List Word)
    {base : Word} {t : State} (h : DeviceFrame i regs cells s t)
    (hcells : ∀ k < ws.length, base + BitVec.ofNat 16 k ∈ cells) :
    DeviceFrame i regs cells s (storeWords base ws t) := by
  induction ws generalizing base t with
  | nil => exact h
  | cons w ws ih =>
    have hbase : base ∈ cells := by simpa using hcells 0 (by simp)
    refine ih (h.writeMem hbase w) fun k hk => ?_
    have hnext : base + 1 + BitVec.ofNat 16 k = base + BitVec.ofNat 16 (k + 1) := by
      rw [Nat.add_comm k 1, BitVec.ofNat_add, ← BitVec.add_assoc]
      rfl
    rw [hnext]
    exact hcells (k + 1) (by simpa using hk)

/-- The words a command of the Display stores (R321). -/
def displayCells (command base : Word) : Set Word :=
  {x | command = 4 ∧ x ∈ wordsFrom base 256 ∨ command = 5 ∧ x ∈ wordsFrom base 16}

theorem displayReceive_frame (i : Nat) (d : DisplayState) (m : Word) (s : State) :
    DeviceFrame i [] (displayCells m s.gpr.b) s (displayReceive i d m s) := by
  have h := DeviceFrame.refl i [] (displayCells m s.gpr.b) s
  unfold displayReceive
  split
  case h_5 hm =>
    exact (h.storeWords _ fun k hk =>
      .inl ⟨BitVec.eq_of_toNat_eq hm, add_ofNat_mem_wordsFrom _ (by simpa using hk)⟩).addCycles 256
  case h_6 hm =>
    exact (h.storeWords _ fun k hk =>
      .inr ⟨BitVec.eq_of_toNat_eq hm, add_ofNat_mem_wordsFrom _ (by simpa using hk)⟩).addCycles 16
  case h_7 => exact h
  all_goals exact h.setBody _

/-! ### The Disk -/

/-- The words of memory a job stores: the block of a read job (R312). -/
def jobCells (p : Params) (j : Job) : Set Word :=
  {x | j.direction = .read ∧ ∃ k < p.diskSectorWords, x = j.address + BitVec.ofNat 16 k}

/-- Stores at other addresses leave a word as it was. -/
theorem read_foldl_write_of_ne {ks : List Nat} {addr : Nat → Nat} {x : Nat} (h : ∀ k ∈ ks, x ≠ addr k)
    (val : Nat → Word) (mem : Memory) :
    Memory.read (ks.foldl (fun m k => Memory.write m (addr k) (val k)) mem) x = Memory.read mem x := by
  induction ks generalizing mem with
  | nil => rfl
  | cons k ks ih =>
    obtain ⟨hk, hks⟩ := List.forall_mem_cons.1 h
    exact (ih hks _).trans (Memory.read_write_other mem _ hk)

theorem transfer_read_of_notMem {p : Params} {j : Job} {x : Word} (h : x ∉ jobCells p j) (media : Option Memory)
    (mem : Memory) : Memory.read (transfer p j media mem).2 x.toNat = Memory.read mem x.toNat := by
  unfold transfer
  split
  · rfl
  split
  case h_1 hread =>
    refine read_foldl_write_of_ne (fun k hk e => h ⟨hread, k, List.mem_range.1 hk, ?_⟩) _ mem
    exact BitVec.eq_of_toNat_eq e
  case h_2 => rfl

theorem DeviceFrame.runBlocking {i : Nat} {regs : List Gpr} {cells : Set Word} {s : State} (jobs : List Job)
    {d : DiskState} {t : State} (h : DeviceFrame i regs cells s t)
    (hcells : ∀ j ∈ jobs, jobCells s.params j ⊆ cells) :
    DeviceFrame i regs cells s (runBlocking i jobs d t) := by
  induction jobs generalizing d t with
  | nil => exact h
  | cons j rest ih =>
    obtain ⟨hj, hrest⟩ := List.forall_mem_cons.1 hcells
    rw [← h.params] at hj
    rw [runBlocking_cons]
    refine ih (((h.setMem fun x hx => ?_).addCycles _).setBody _) hrest
    exact transfer_read_of_notMem (fun hjx => hx (hj hjx)) _ _

/-- The jobs of a request store within its sectors' words, and those of a write request nowhere (R312). -/
theorem jobCells_subset {p : Params} {dir : JobDirection} {sector count : Nat} {address : Word} {j : Job}
    (hj : j ∈ requestJobs p dir sector count address) :
    jobCells p j ⊆ {x | dir = .read ∧ x ∈ wordsFrom address (count * p.diskSectorWords)} := by
  obtain ⟨n, hn, rfl⟩ := List.mem_map.1 hj
  rintro x ⟨hdir, k, hk, rfl⟩
  refine ⟨hdir, ?_⟩
  have hword : n * p.diskSectorWords + k < count * p.diskSectorWords :=
    calc n * p.diskSectorWords + k < (n + 1) * p.diskSectorWords := by rw [Nat.succ_mul]; omega
      _ ≤ count * p.diskSectorWords := Nat.mul_le_mul_right _ (List.mem_range.1 hn)
  rw [BitVec.add_assoc, ← BitVec.ofNat_add]
  exact add_ofNat_mem_wordsFrom address hword

/-- The registers the Disk's commands write (R311). -/
def diskRegs : List Gpr := [.a, .b, .c, .x]

theorem diskRequest_frame (i : Nat) (dir : JobDirection) (d : DiskState) {cells : Set Word} {s : State}
    (hcells : dir = .read → wordsFrom s.gpr.x (s.gpr.c.toNat * s.params.diskSectorWords) ⊆ cells) :
    DeviceFrame i diskRegs cells s (diskRequest i dir d s) := by
  have h := DeviceFrame.refl i diskRegs cells s
  have hstatus : ∀ v, DeviceFrame i diskRegs cells s (s.setGpr .a v) := h.setGpr (by decide)
  unfold diskRequest
  simp only
  split
  · exact hstatus _
  split
  · exact hstatus _
  split
  · exact hstatus _
  split
  · exact (hstatus _).setBody _
  · exact ((hstatus _).setBody _).runBlocking _ fun j hj x hx => by
      obtain ⟨hdir, hmem⟩ := jobCells_subset hj hx
      exact hcells hdir hmem

/-- The words a command of the Disk stores: the requested sectors of a read (R312). -/
def diskCells (command : Word) (s : State) : Set Word :=
  {x | command = s.params.diskCodes.readSectors ∧
    x ∈ wordsFrom s.gpr.x (s.gpr.c.toNat * s.params.diskSectorWords)}

theorem diskReceive_frame (i : Nat) (d : DiskState) (m : Word) (s : State) :
    DeviceFrame i diskRegs (diskCells m s) s (diskReceive i d m s) := by
  have h := DeviceFrame.refl i diskRegs (diskCells m s) s
  have ha : Gpr.a ∈ diskRegs := by decide
  have hb : Gpr.b ∈ diskRegs := by decide
  have hc : Gpr.c ∈ diskRegs := by decide
  have hx : Gpr.x ∈ diskRegs := by decide
  have hquery : ∀ v w, DeviceFrame i diskRegs (diskCells m s) s ((s.setGpr .b v).setGpr .a w) := fun v w =>
    (h.setGpr hb v).setGpr ha w
  unfold diskReceive
  simp only
  split
  · exact hquery _ _
  split
  · split
    · exact (((h.setGpr hb _).setGpr hc _).setGpr hx _).setGpr ha _
    · exact h.setGpr ha _
  split
  · exact hquery _ _
  split
  · exact (h.setBody _).setGpr ha _
  split
  · exact hquery _ _
  split
  · exact (h.setBody _).setGpr ha _
  split
  case isTrue hread => exact diskRequest_frame i .read d fun _ _ hmem => ⟨hread, hmem⟩
  split
  · exact diskRequest_frame i .write d nofun
  split
  · exact hquery _ _
  · exact h

/-! ### The bus -/

/-- The registers the commands of a reference device write (R302, R307, R311, R321); the spec gives another device none (log 10). -/
def receiveRegs : DeviceBody → List Gpr
  | .clock _ => [.c]
  | .keyboard _ => [.c]
  | .disk _ => diskRegs
  | .display _ => []
  | .other _ => []

theorem receiveRegs_subset (b : DeviceBody) : receiveRegs b ⊆ diskRegs := by
  cases b <;> simp [receiveRegs, diskRegs]

/-- The words a reference device stores at the command in A (R312, R321); the spec gives another device no command (log 10). -/
def receiveCells (s : State) : DeviceBody → Set Word
  | .clock _ => ∅
  | .keyboard _ => ∅
  | .disk _ => diskCells s.gpr.a s
  | .display _ => displayCells s.gpr.a s.gpr.b
  | .other _ => ∅

/-- A call of a reference device keeps to the frame of its commands (R290). -/
theorem deviceReceive_frame {i : Nat} {b : DeviceBody} {s t : State} (hb : s.bodyAt i = some b)
    (hother : ∀ o, b ≠ .other o) (h : deviceReceive i s = .next t) :
    DeviceFrame i (receiveRegs b) (receiveCells s b) s t := by
  rw [deviceReceive, hb] at h
  cases b with
  | clock c => cases h; exact clockReceive_frame i c _ s
  | keyboard k => cases h; exact keyboardReceive_frame i k _ s
  | disk d => cases h; exact diskReceive_frame i d _ s
  | display d => cases h; exact displayReceive_frame i d _ s
  | other o => exact absurd rfl (hother o)

/-- A call of a Clock or a Keyboard leaves memory as it is (R302, R307). -/
theorem deviceReceive_mem {i : Nat} {b : DeviceBody} {s t : State} (hb : s.bodyAt i = some b)
    (hkind : (∃ c, b = .clock c) ∨ ∃ k, b = .keyboard k) (h : deviceReceive i s = .next t) : t.mem = s.mem := by
  rw [deviceReceive, hb] at h
  rcases hkind with ⟨c, rfl⟩ | ⟨k, rfl⟩
  · cases h; exact clockReceive_mem i c _ s
  · cases h; exact keyboardReceive_mem i k _ s

/-! ### The obligations -/

/-- Settles O29: HWN's count and HWQ's device are those before the operand was resolved. -/
theorem hwnHwqReportDevices : Obligations.HwnHwqReportDevices :=
  ⟨specialWord rfl (by simp [specialTable]), rfl, specialWord rfl (by simp [specialTable]), rfl, fun a s =>
    ⟨exec_hwn a s, exec_hwq_of_no_device, fun _ => exec_hwq_of_device⟩⟩

/-- Settles O30: HWI calls the device at the index, in the state its operand leaves, where the device is as it was. -/
theorem hwiRunsReferenceDevice : Obligations.HwiRunsReferenceDevice := by
  refine ⟨specialWord rfl (by simp [specialTable]), rfl, fun a s => ⟨exec_hwi_of_no_device, fun c hb => ?clock,
    fun c hb => ?keyboard, fun c hb => ?disk, fun c hb => ?display, fun c hb => ?other⟩⟩
  all_goals simp only [exec_hwi_of_bodyAt hb, deviceReceive, afterSpecial_bodyAt, hb, Gprs.get]

/-- Settles O36: the operand's resolution moves PC and, by a POP, SP; the call of the device then keeps to the frame of its commands. -/
theorem hwiFrame : Obligations.HwiFrame := by
  intro a s t b he hb hother
  rw [exec_hwi_of_bodyAt hb] at he
  rw [← afterSpecial_bodyAt s.params.cost.hwi a s] at hb
  have hframe := deviceReceive_frame hb hother he
  have hgpr : ∀ r, r ∉ receiveRegs b → t.gpr.get r = s.gpr.get r := fun r hr => by simpa using hframe.gpr r hr
  have hrest : ∀ r, r ∉ diskRegs → t.gpr.get r = s.gpr.get r := fun r hr =>
    hgpr r fun h => hr (receiveRegs_subset b h)
  have hmem : ∀ x, x ∉ receiveCells (afterSpecial s.params.cost.hwi a s) b → t.readMem x = s.readMem x := fun x hx => by
    simpa using hframe.readMem x hx
  obtain ⟨hex, hia, hiaq, hqueue, hfire, himage, hparams⟩ : t.ex = s.ex ∧ t.ia = s.ia ∧ t.iaq = s.iaq ∧
      t.queue = s.queue ∧ t.fire = s.fire ∧ t.image = s.image ∧ t.params = s.params := by
    rw [hframe.rest]; simp
  refine ⟨hex, hia, hiaq, hqueue, hfire, himage, hparams, fun ha => ?sp, fun k hk => ?others,
    hrest .y (by decide), hrest .z (by decide), hrest .i (by decide), hrest .j (by decide),
    fun hkind => ⟨?mem, ?regs⟩, ?display, ?disk⟩
  case sp => rw [hframe.rest, ← afterSpecial_sp_of_ne ha s.params.cost.hwi s]
  case others => simpa using hframe.others k hk
  case mem => simpa using deviceReceive_mem hb hkind he
  case regs =>
    have hc : receiveRegs b = [.c] := by rcases hkind with ⟨_, rfl⟩ | ⟨_, rfl⟩ <;> rfl
    rw [hc] at hgpr
    exact ⟨hgpr .a (by decide), hgpr .b (by decide), hgpr .x (by decide)⟩
  case display =>
    rintro ⟨d, rfl⟩
    refine ⟨Gprs.ext_get fun r => hgpr r List.not_mem_nil, fun x hfont hpalette => hmem x ?_⟩
    simp only [receiveCells, displayCells, wordsFrom, afterSpecial_gpr, Set.mem_ofPred_eq]
    rintro (⟨h4, hx⟩ | ⟨h5, hx⟩)
    · exact Nat.not_lt.2 (hfont h4) hx
    · exact Nat.not_lt.2 (hpalette h5) hx
  case disk =>
    rintro ⟨d, rfl⟩ x hread
    refine hmem x ?_
    simp only [receiveCells, diskCells, wordsFrom, afterSpecial_gpr, afterSpecial_params, Set.mem_ofPred_eq]
    exact fun ⟨hcommand, hx⟩ => Nat.not_lt.2 (hread hcommand) hx

end Sys2Proof.Machine
end

section
/-! ## Interrupts: a dispatch, a trigger, an entry with its return, and the frame of INT, RFI and IAQ -/

namespace Sys2Proof.Machine

open Sys2Proof.Claims

/-! ### A dispatch and a trigger -/

/-- A dispatch does nothing while queueing is on (R264). -/
theorem dispatch_of_iaq {s : State} (h : s.iaq = true) : dispatch s = s := by
  cases hq : s.queue with
  | nil => exact dispatch_of_queue_nil hq
  | cons m rest => simp [dispatch, hq, h]

/-- On fire a trigger changes nothing (R262, D39). -/
theorem trigger_of_fire {s : State} (h : s.fire ≠ none) (m : Word) (bypass : Bool) : trigger m bypass s = .next s := by
  simp [trigger, Option.isSome_iff_ne_none, h]

/-- A trigger without bypass, with room in the queue, appends its message and dispatches (R262). -/
theorem trigger_of_room (m : Word) {s : State} (hfire : s.fire = none) (hroom : s.queue.length < queueMax) :
    trigger m false s = .next (dispatch (s.setQueue (s.queue ++ [m]))) := by
  rcases trigger_cases m false s hfire with ⟨h, -⟩ | ⟨-, -, e⟩ | ⟨-, hfull, -⟩
  · cases h
  · exact e
  · omega

/-- A trigger without bypass fires on a full queue, its message in the queue (R263, D24). -/
theorem trigger_of_full (m : Word) {s : State} (hfire : s.fire = none) (hfull : queueMax ≤ s.queue.length) :
    trigger m false s = raise (.queueOverflow m) (s.setQueue (s.queue ++ [m])) := by
  rcases trigger_cases m false s hfire with ⟨h, -⟩ | ⟨-, hroom, -⟩ | ⟨-, -, e⟩
  · cases h
  · omega
  · exact e

/-- Settles O37: the model's dispatch in each of its cases. -/
theorem dispatchEntersAtIa : Obligations.DispatchEntersAtIa := by
  refine ⟨rfl, rfl, fun s => ⟨fun h => h.elim dispatch_of_queue_nil dispatch_of_iaq, fun m rest hq hiaq =>
    ⟨fun hia hdrop => ?dropsAll, fun hia hdrop => ?dropsHead, fun hia => ?enters⟩⟩⟩
  case dropsAll =>
    rw [dispatch_of_ia_zero hq hiaq hia, hdrop]
    rfl
  case dropsHead =>
    rw [dispatch_of_ia_zero hq hiaq hia, hdrop]
    rfl
  case enters => rw [dispatch_of_ia_ne_zero hq hiaq hia, enterInterrupt_eq]

/-- Settles O38: a trigger on fire, a bypass, and an append below and at the bound of the queue. -/
theorem triggerQueuesAndDispatches : Obligations.TriggerQueuesAndDispatches := fun m _ =>
  ⟨fun hfire => trigger_of_fire hfire m, fun hfire =>
    ⟨trigger_bypass m hfire, trigger_of_room m hfire, trigger_of_full m hfire⟩⟩

/-! ### Entry and return -/

/-- The two stack words of an entry are different words (R270). -/
theorem sub_two_ne_sub_one (p : Word) : p - 2 ≠ p - 1 := by
  bv_omega

/-- An entry stores PC and then A below SP (R270). -/
theorem enterInterrupt_readMem (m : Word) (rest : List Word) (s : State) (x : Word) :
    (enterInterrupt m rest s).readMem x =
      ((s.writeMem (s.sp - 1) s.pc).writeMem (s.sp - 2) (s.gpr.get .a)).readMem x := by
  rw [enterInterrupt_eq]
  rfl

/-- An entry leaves every word but the two below SP (R270). -/
theorem enterInterrupt_readMem_of_ne (m : Word) (rest : List Word) {s : State} {x : Word} (h1 : x ≠ s.sp - 1)
    (h2 : x ≠ s.sp - 2) : (enterInterrupt m rest s).readMem x = s.readMem x := by
  rw [enterInterrupt_readMem, State.readMem_writeMem_other _ _ h2, State.readMem_writeMem_other _ _ h1]

theorem enterInterrupt_readMem_a (m : Word) (rest : List Word) {s : State} (h : Memory.wf memWords s.mem = true) :
    (enterInterrupt m rest s).readMem (s.sp - 2) = s.gpr.get .a := by
  rw [enterInterrupt_readMem, State.readMem_writeMem_self _ (State.wf_writeMem s h _ _)]

theorem enterInterrupt_readMem_pc (m : Word) (rest : List Word) {s : State} (h : Memory.wf memWords s.mem = true) :
    (enterInterrupt m rest s).readMem (s.sp - 1) = s.pc := by
  rw [enterInterrupt_readMem, State.readMem_writeMem_other _ _ (sub_two_ne_sub_one s.sp).symm,
    State.readMem_writeMem_self s h]

/-- Settles O39: the return pops the two words the entry pushed, and finds no message waiting. -/
theorem entryThenReturnRestores : Obligations.EntryThenReturnRestores := by
  intro s m hwf
  have hsp : (enterInterrupt m [] s).sp = s.sp - 2 := by rw [enterInterrupt_eq]
  have hpc : s.sp - 2 + 1 = s.sp - 1 := by bv_omega
  have hqueue : (returned (enterInterrupt m [] s)).queue = [] := by rw [enterInterrupt_eq]; rfl
  simp only [returnFromInterrupt_eq, dispatch_of_queue_nil hqueue]
  refine ⟨?pc, ?gpr, ?sp, ?ex, ?ia, rfl, hqueue, fun x h1 h2 => enterInterrupt_readMem_of_ne m [] h1 h2⟩
  case pc => simp only [returned, hsp, hpc, enterInterrupt_readMem_pc m [] hwf]
  case gpr =>
    have ha := enterInterrupt_readMem_a m [] hwf
    rw [← hsp] at ha
    simp only [returned, ha]
    rw [enterInterrupt_eq]
    rfl
  case sp => simp only [returned, hsp, BitVec.sub_add_cancel]
  case ex => rw [enterInterrupt_eq]; rfl
  case ia => rw [enterInterrupt_eq]; rfl

/-! ### The frame of INT, RFI and IAQ -/

/-- From `s` to `t` the controller moved: PC, SP, A, IAQ, the queue and the cost may have changed, and memory in the two words below
`sp`. -/
structure ControllerFrame (sp : Word) (s t : State) : Prop where
  gpr : ∀ r, r ≠ .a → t.gpr.get r = s.gpr.get r
  ex : t.ex = s.ex
  ia : t.ia = s.ia
  fire : t.fire = s.fire
  devices : t.devices = s.devices
  image : t.image = s.image
  params : t.params = s.params
  readMem : ∀ x, x ≠ sp - 1 → x ≠ sp - 2 → t.readMem x = s.readMem x

/-- The frame of a special instruction leaves PC, SP and the cost in motion only, whatever becomes of IAQ and the queue. -/
theorem afterSpecial_controllerFrame (sp : Word) (cost : Nat) (a : Operand) (s : State) (iaq : Bool) (queue : List Word) :
    ControllerFrame sp s (((afterSpecial cost a s).setIaq iaq).setQueue queue) := by
  constructor <;> simp

/-- RFI pops A and PC, and stores nothing (R214). -/
theorem returned_controllerFrame (sp : Word) (cost : Nat) (a : Operand) (s : State) :
    ControllerFrame sp s (returned (afterSpecial cost a s)) where
  gpr r hr := by simp [returned, Gprs.get_put_ne _ _ hr]
  ex := by simp [returned]
  ia := by simp [returned]
  fire := by simp [returned]
  devices := by simp [returned]
  image := by simp [returned]
  params := by simp [returned]
  readMem x _ _ := by simp [returned, State.readMem]

/-- A dispatch keeps to the frame of the controller, its stack words those below the SP it finds (R264, R270). -/
theorem ControllerFrame.dispatch {sp : Word} {s t : State} (h : ControllerFrame sp s t) (hsp : t.sp = sp) :
    ControllerFrame sp s (dispatch t) := by
  subst hsp
  refine ⟨fun r hr => ?gpr, by simp [h.ex], by simp [h.ia], by simp [h.fire], by simp [h.devices], by simp [h.image],
    by simp [h.params], fun x h1 h2 => ?readMem⟩
  case gpr =>
    rw [← h.gpr r hr]
    rcases dispatch_cases t with ⟨-, e⟩ | ⟨-, e⟩ | ⟨_, _, -, -, -, e⟩ | ⟨_, _, -, -, -, e⟩
    · rw [e]
    · rw [e]
    · rw [e, State.setQueue_gpr]
    · rw [e, enterInterrupt_eq]
      exact Gprs.get_put_ne _ _ hr
  case readMem =>
    rw [← h.readMem x h1 h2]
    rcases dispatch_cases t with ⟨-, e⟩ | ⟨-, e⟩ | ⟨_, _, -, -, -, e⟩ | ⟨_, _, -, -, -, e⟩
    · rw [e]
    · rw [e]
    · rw [e, State.setQueue_readMem]
    · rw [e, enterInterrupt_readMem_of_ne _ _ h1 h2]

/-- INT keeps to the frame, on fire too, where its trigger changes nothing (R211, D39). -/
theorem exec_int_controllerFrame {a : Operand} {s t : State} (h : exec (.int a) s = .next t) :
    ControllerFrame (resolve a .src s).2.sp s t := by
  have hframe := afterSpecial_controllerFrame (resolve a .src s).2.sp s.params.cost.int a s
  rw [exec_int] at h
  by_cases hfire : (afterSpecial s.params.cost.int a s).fire = none
  · cases (trigger_bypass _ hfire).symm.trans h
    exact (hframe _ _).dispatch rfl
  · cases (trigger_of_fire hfire _ _).symm.trans h
    exact hframe _ _

/-- IAQ keeps to the frame (R215). -/
theorem exec_iaq_controllerFrame {a : Operand} {s t : State} (h : exec (.iaq a) s = .next t) :
    ControllerFrame (resolve a .src s).2.sp s t := by
  have hframe := fun iaq => afterSpecial_controllerFrame (resolve a .src s).2.sp s.params.cost.iaq a s iaq
    (afterSpecial s.params.cost.iaq a s).queue
  simp only [exec, execIaq] at h
  split at h
  · cases h
    exact hframe true
  · cases h
    exact (hframe false).dispatch rfl

/-- RFI keeps to the frame, with its dispatch two words higher on the stack (R214). -/
theorem exec_rfi_controllerFrame {a : Operand} {s t : State} (h : exec (.rfi a) s = .next t) :
    ControllerFrame ((resolve a .src s).2.sp + 2) s t := by
  cases (exec_rfi a s).symm.trans h
  exact (returned_controllerFrame _ _ a s).dispatch rfl

/-- Settles O35: each of the three keeps to the frame of the controller. -/
theorem controlFrame : Obligations.ControlFrame := by
  intro a s t
  refine ⟨fun h => ?kept, fun h => ?mem, fun h x h1 h0 => ?memRfi⟩
  case kept =>
    obtain ⟨sp, hframe⟩ : ∃ sp, ControllerFrame sp s t := by
      rcases h with h | h | h
      · exact ⟨_, exec_int_controllerFrame h⟩
      · exact ⟨_, exec_rfi_controllerFrame h⟩
      · exact ⟨_, exec_iaq_controllerFrame h⟩
    obtain ⟨hgpr, hex, hia, hfire, hdevices, himage, hparams, -⟩ := hframe
    exact ⟨hgpr, hex, hia, hfire, hdevices, himage, hparams⟩
  case mem => exact h.elim (fun h => (exec_int_controllerFrame h).readMem) fun h => (exec_iaq_controllerFrame h).readMem
  case memRfi =>
    refine (exec_rfi_controllerFrame h).readMem x ?_ ?_
    · rwa [show (resolve a .src s).2.sp + 2 - 1 = (resolve a .src s).2.sp + 1 by bv_omega]
    · rwa [BitVec.add_sub_cancel]

end Sys2Proof.Machine
end

section
/-! ## Host calls

A reset meets the invariant from whatever keeps the host side, so a host call keeps it by a reset, by an event inside the invariant with a
dispatch at its end, or by leaving the machine as it is. -/

namespace Sys2Proof.Machine

open Sys2Proof.Claims

/-! ### Reset -/

/-- A reset leaves the medium of a device where it was (R310). -/
@[simp] theorem bodyMedium_bodyReset (p : Params) (b : DeviceBody) : bodyMedium (bodyReset p b) = bodyMedium b := by
  cases b <;> rfl

/-- A device at its reset values is in order, if its medium fits (R301, R305, R310, R320). -/
theorem bodyOk_bodyReset {p : Params} {b : DeviceBody} (h : mediumFits p (bodyMedium b) = true) :
    bodyOk p (bodyReset p b) = true := by
  cases b with
  | clock c => rfl
  | keyboard k => rfl
  | disk d => exact (diskOk_iff p _).2 ⟨h, by simp [diskReset, diskNew], .inl rfl, fun _ => rfl⟩
  | display d => rfl
  | other o => rfl

theorem resetMachine_sameHost (s : State) : SameHost s (resetMachine s) where
  image := rfl
  params := rfl
  handles := by simp [resetMachine, deviceReset]
  idents := by simp [resetMachine, deviceReset]

/-- A reset meets the invariant whatever the registers, memory, controller and devices were (R330). -/
theorem HostOk.inv_resetMachine {s : State} (h : HostOk s) : Inv (resetMachine s) := by
  have hbody : ∀ k b, (resetMachine s).bodyAt k = some b → ∃ b', s.bodyAt k = some b' ∧ b = bodyReset s.params b' := by
    intro k b hb
    rw [resetMachine_bodyAt] at hb
    obtain ⟨b', hb', rfl⟩ := Option.map_eq_some_iff.1 hb
    exact ⟨b', hb', rfl⟩
  refine Mid.inv ⟨⟨h.of_same (resetMachine_sameHost s) fun k b hb => ?media, Memory.wf_ofWords _ _ h.imageFits,
    Nat.zero_le _, rfl⟩, fun k b hb => ?bodies⟩ fun _ hq => absurd rfl hq
  case media =>
    obtain ⟨b', hb', rfl⟩ := hbody k b hb
    rw [bodyMedium_bodyReset]
    exact h.media_at hb'
  case bodies =>
    obtain ⟨b', hb', rfl⟩ := hbody k b hb
    exact bodyOk_bodyReset (h.media_at hb')

/-- Settles O47: a step that fires keeps the host side, and the reset needs no more. -/
theorem resetAfterFireMeetsInvariant : Obligations.ResetAfterFireMeetsInvariant := by
  intro s post k hs h
  have hends := step_ends hs
  rw [h] at hends
  exact hends.host.inv_resetMachine

/-! ### Attach and detach -/

theorem attached_iff {handle : Nat} {s : State} : attached handle s = true ↔ ∃ e ∈ s.devices, e.handle = handle := by
  simp [attached]

theorem attached_eq_false_iff {handle : Nat} {s : State} :
    attached handle s = false ↔ ∀ e ∈ s.devices, e.handle ≠ handle := by
  simp [attached]

/-- An attach of a device present, or with all places taken, is rejected (R285). -/
theorem attach_of_present {d : Device} {s : State} (h : maxDevices ≤ s.devices.length ∨ attached d.handle s = true) :
    attach d s = .refused .attachRejected := if_pos (by simpa using h)

/-- Any other attach appends the device and resets (R285). -/
theorem attach_of_absent {d : Device} {s : State} (hroom : s.devices.length < maxDevices)
    (habsent : attached d.handle s = false) :
    attach d s = .next (resetMachine { s with devices := s.devices ++ [d] }) :=
  if_neg (by simp [habsent, Nat.not_le.2 hroom])

theorem detach_of_present {handle : Nat} {s : State} (h : attached handle s = true) :
    detach handle s = .next (resetMachine { s with devices := s.devices.filter (·.handle != handle) }) := if_pos h

theorem detach_of_absent {handle : Nat} {s : State} (h : attached handle s = false) : detach handle s = .next s :=
  if_neg (by simp [h])

/-- Settles O49: `attached` tells the two cases of each call. -/
theorem attachDetach : Obligations.AttachDetach := by
  refine fun s => ⟨fun d => ⟨fun h => ?rejected, fun hroom habsent => ?appended⟩, fun handle =>
    ⟨fun habsent => ?unchanged, fun hpresent => ?removed⟩⟩
  case rejected => exact attach_of_present (h.imp (fun hfull => hfull.ge) attached_iff.2)
  case appended => exact attach_of_absent hroom (attached_eq_false_iff.2 habsent)
  case unchanged => exact detach_of_absent (attached_eq_false_iff.2 habsent)
  case removed =>
    refine (detach_of_present (attached_iff.2 hpresent)).trans ?_
    have hfilter : (fun e : Device => e.handle != handle) = fun e => decide (e.handle ≠ handle) := by
      funext e
      simp [bne, beq_eq_decide]
    rw [hfilter]

/-- The host side with one more device, a different object whose medium fits (R285). -/
theorem HostOk.append {s : State} (h : HostOk s) {d : Device} (hroom : s.devices.length < maxDevices)
    (habsent : attached d.handle s = false) (hm : mediumFits s.params (bodyMedium d.body) = true) :
    HostOk { s with devices := s.devices ++ [d] } where
  deviceCount := by simpa using hroom
  handlesDiffer := by
    rw [List.map_append, List.map_singleton]
    refine List.Nodup.append h.handlesDiffer (List.nodup_singleton _) (List.disjoint_singleton.2 fun hmem => ?_)
    obtain ⟨e, he, heq⟩ := List.mem_map.1 hmem
    exact attached_eq_false_iff.1 habsent e he heq
  mediaFit e he := by
    rcases List.mem_append.1 he with he | he
    · exact h.mediaFit e he
    · rwa [List.mem_singleton.1 he]
  imageFits := h.imageFits
  clockRuns := h.clockRuns

/-- The host side with some devices taken out (R286). -/
theorem HostOk.filter {s : State} (h : HostOk s) (keep : Device → Bool) :
    HostOk { s with devices := s.devices.filter keep } where
  deviceCount := (List.length_filter_le keep s.devices).trans h.deviceCount
  handlesDiffer := h.handlesDiffer.sublist (List.filter_sublist.map Device.handle)
  mediaFit e he := h.mediaFit e (List.mem_of_mem_filter he)
  imageFits := h.imageFits
  clockRuns := h.clockRuns

theorem attach_inv {s t : State} (h : Inv s) {d : Device} (hm : mediumFits s.params (bodyMedium d.body) = true)
    (he : attach d s = .next t) : Inv t := by
  by_cases hpresent : maxDevices ≤ s.devices.length ∨ attached d.handle s = true
  · cases (attach_of_present hpresent).symm.trans he
  · obtain ⟨hroom, habsent⟩ := not_or.1 hpresent
    have hroom' := Nat.not_le.1 hroom
    have habsent' := Bool.eq_false_of_not_eq_true habsent
    cases (attach_of_absent hroom' habsent').symm.trans he
    exact (h.host.append hroom' habsent' hm).inv_resetMachine

theorem detach_inv {s t : State} (h : Inv s) {handle : Nat} (he : detach handle s = .next t) : Inv t := by
  cases hpresent : attached handle s with
  | true =>
    cases (detach_of_present hpresent).symm.trans he
    exact (h.host.filter _).inv_resetMachine
  | false =>
    cases (detach_of_absent hpresent).symm.trans he
    exact h

/-! ### Load -/

theorem loadWords_inv {s t : State} (h : Inv s) {image : List Word} (he : loadWords image s = .next t) : Inv t := by
  rcases Nat.lt_or_ge memWords image.length with hlong | hfits
  · cases (loadWords_of_lt hlong s).symm.trans he
  · cases (loadWords_of_le hfits s).symm.trans he
    obtain ⟨hcount, hhandles, hmedia, -, hclock⟩ := h.host
    exact ⟨⟨hcount, hhandles, hmedia, hfits, hclock⟩, h.memWf, h.queueBound, h.queueHeld, h.notOnFire, h.devicesOk⟩

theorem loadBytes_inv {s t : State} (h : Inv s) {order : ByteOrder} {bytes : List Byte}
    (he : loadBytes order bytes s = .next t) : Inv t := by
  cases hws : wordsOfBytes order bytes with
  | none => simp [loadBytes, hws] at he
  | some image => exact loadWords_inv h ((loadBytes_of_some hws s).symm.trans he)

/-! ### Events -/

/-- A trigger that does not fire keeps the invariant: its dispatch leaves a message waiting only while queueing is on (R262, R266). -/
theorem trigger_inv {s t : State} (h : Inv s) {m : Word} {bypass : Bool} (he : trigger m bypass s = .next t) : Inv t := by
  refine ((trigger_ends m bypass h.stays).next he).mid.inv ?_
  rcases trigger_cases m bypass s h.notOnFire with ⟨-, e⟩ | ⟨-, -, e⟩ | ⟨-, -, e⟩
  · cases e.symm.trans he
    exact fun hdrop => dispatch_queue_held _ (by simpa using hdrop)
  · cases e.symm.trans he
    exact fun hdrop => dispatch_queue_held _ (by simpa using hdrop)
  · cases e.symm.trans he

theorem signalled_inv {s t : State} (h : Inv s) {m : Word} (he : signalled m s = .next t) : Inv t := by
  unfold signalled at he
  split at he
  · cases he
    exact h
  · exact trigger_inv h he

/-- A device moves to another state that is in order. -/
theorem Inv.setBody {s : State} (h : Inv s) {i : Nat} {b b' : DeviceBody} (hb : s.bodyAt i = some b)
    (hm : mediumFits s.params (bodyMedium b') = true) (hok : bodyOk s.params b' = true) : Inv (s.setBody i b') :=
  (((h.stays.moving hb).setBody hm).stays hok).mid.inv h.queueHeld

/-- A key event that has a next state is one of a keyboard (R306). -/
theorem keyEvent_eq_next {i : Nat} {f : KeyboardState → State → Result} {s t : State} (h : keyEvent i f s = .next t) :
    ∃ k, s.bodyAt i = some (.keyboard k) ∧ f k s = .next t := by
  unfold keyEvent at h
  split at h
  · exact ⟨_, ‹_›, h⟩
  · cases h

/-- A media event that has a next state is one of a disk (R316). -/
theorem mediaEvent_eq_next {i : Nat} {f : DiskState → State → Result} {s t : State} (h : mediaEvent i f s = .next t) :
    ∃ d, s.bodyAt i = some (.disk d) ∧ f d s = .next t := by
  unfold mediaEvent at h
  split at h
  · exact ⟨_, ‹_›, h⟩
  · cases h

/-- A key pressed is put among the held keys and into the buffer, and signalled (R306). -/
theorem keyDown_eq (i : Nat) (k : KeyboardState) (code : Word) (s : State) :
    keyDown i k code s = signalled k.message
      (s.setBody i (.keyboard { k with down := holdKey k.down code, buffer := k.buffer ++ [code] })) := rfl

/-- A key released is taken out of the held keys, and signalled (R306). -/
theorem keyUp_eq (i : Nat) (k : KeyboardState) (code : Word) (s : State) :
    keyUp i k code s =
      signalled k.message (s.setBody i (.keyboard { k with down := releaseKey k.down code })) := rfl

theorem keyDown_inv {s t : State} (h : Inv s) {i : Nat} {k : KeyboardState} (hb : s.bodyAt i = some (.keyboard k))
    {code : Word} (he : keyDown i k code s = .next t) : Inv t := by
  rw [keyDown_eq] at he
  refine signalled_inv (h.setBody hb rfl ?_) he
  exact strictlyRising_holdKey code (h.stays.mid.bodies i _ hb)

theorem keyUp_inv {s t : State} (h : Inv s) {i : Nat} {k : KeyboardState} (hb : s.bodyAt i = some (.keyboard k))
    {code : Word} (he : keyUp i k code s = .next t) : Inv t := by
  rw [keyUp_eq] at he
  refine signalled_inv (h.setBody hb rfl ?_) he
  exact strictlyRising_releaseKey code (h.stays.mid.bodies i _ hb)

/-- With the media-status bit clear a medium goes in or out, and that is all (R316). -/
theorem mediaChange_of_clear {d : DiskState} {s : State} (h : flagMediaStatus s.params d = false) (i : Nat)
    (media : Option Memory) :
    mediaChange i media d s = .next (s.setBody i (.disk { d with media := media, jobs := [], acc := 0 })) :=
  if_neg (by simp [h])

/-- With the media-status bit set the cause is recorded and signalled (R316). -/
theorem mediaChange_of_set {d : DiskState} {s : State} (h : flagMediaStatus s.params d = true) (i : Nat)
    (media : Option Memory) :
    mediaChange i media d s = signalled d.message (s.setBody i (.disk { d with
      media := media, jobs := [], acc := 0, intType := s.params.diskCodes.intMediaStatus })) :=
  if_pos h

theorem mediaChange_inv {s t : State} (h : Inv s) {i : Nat} {d : DiskState} (hb : s.bodyAt i = some (.disk d))
    {media : Option Memory} (hm : mediumFits s.params media = true) (he : mediaChange i media d s = .next t) : Inv t := by
  have hmoved : ∀ cause,
      Inv (s.setBody i (.disk { d with media := media, jobs := [], acc := 0, intType := cause })) := fun cause =>
    h.setBody (b' := .disk { d with media := media, jobs := [], acc := 0, intType := cause }) hb hm
      ((diskOk_iff _ _).2 ⟨hm, by simp, .inl rfl, fun _ => rfl⟩)
  cases hflag : flagMediaStatus s.params d with
  | false =>
    cases (mediaChange_of_clear hflag i media).symm.trans he
    exact hmoved d.intType
  | true => exact signalled_inv (hmoved _) ((mediaChange_of_set hflag i media).symm.trans he)

theorem busAction_inv {s t : State} (h : Inv s) {a : BusAction} (he : busAction a s = .next t) : Inv t := by
  cases a with
  | setReg r v =>
    cases he
    exact (setHandleReg_stays r v h.stays).mid.inv (by cases r <;> exact h.queueHeld)
  | setMem x v =>
    cases he
    exact ((busAction_ends (.setMem x v) h.stays).next rfl).mid.inv h.queueHeld
  | trigger m => exact trigger_inv h he

theorem busActions_inv {s t : State} (h : Inv s) {actions : List BusAction} (he : busActions actions s = .next t) :
    Inv t := by
  induction actions generalizing s with
  | nil => cases he; exact h
  | cons a rest ih =>
    obtain ⟨u, hu, ht⟩ := andThen_eq_next.1 he
    exact ih (busAction_inv h hu) ht

/-- Settles O46: a reset, whatever brought it, meets the invariant; an image is no part of the machine yet; and each event is a change
inside the invariant that ends with its trigger's dispatch, if it has one. -/
theorem hostCallKeepsInvariant : Obligations.HostCallKeepsInvariant := by
  intro c s t h hok he
  cases c with
  | reset => cases he; exact h.host.inv_resetMachine
  | loadWords image => exact loadWords_inv h he
  | loadBytes order bytes => exact loadBytes_inv h he
  | attach d => exact attach_inv h hok he
  | detach handle => exact detach_inv h he
  | keyDown i code =>
    obtain ⟨k, hb, he⟩ := keyEvent_eq_next he
    exact keyDown_inv h hb he
  | keyUp i code =>
    obtain ⟨k, hb, he⟩ := keyEvent_eq_next he
    exact keyUp_inv h hb he
  | insertMedia i media =>
    obtain ⟨d, hb, he⟩ := mediaEvent_eq_next he
    exact mediaChange_inv h (media := some media) hb hok he
  | ejectMedia i =>
    obtain ⟨d, hb, he⟩ := mediaEvent_eq_next he
    exact mediaChange_inv h hb rfl he
  | otherEvent i actions =>
    simp only [hostCall, otherEvent] at he
    split at he
    · exact busActions_inv h he
    · cases he

/-! ### Media events -/

/-- Settles O60: both calls are the change of a medium, and the media-status bit tells its two cases. -/
theorem diskMediaEvents : Obligations.DiskMediaEvents := by
  intro i d s hb call media hcall
  have hevent : hostCall call s = mediaChange i media d s := by
    rcases hcall with ⟨md, rfl, rfl⟩ | ⟨rfl, rfl⟩ <;> simp only [hostCall, mediaEvent, hb]
  rw [hevent]
  exact ⟨fun hclear => mediaChange_of_clear hclear i media, fun hset => mediaChange_of_set hset i media⟩

end Sys2Proof.Machine
end

section
/-! ## What a fatal fault leaves

Every part of a step either goes on, or records the fault it ends in, from every state, whatever the invariant. -/

namespace Sys2Proof.Machine

open Sys2Proof.Claims

/-- A fatal fault in this answer has its kind recorded in the machine it leaves, and the answer is no refusal (R250, R251). -/
def FaultRecorded : Result → Prop
  | .next _ => True
  | .fault (.fire k post) => post.fire = some k
  | .fault .skipChainHangs => True
  | .refused _ => False

theorem FaultRecorded.andThen {r : Result} {f : State → Result} (h : FaultRecorded r) (hf : ∀ s, FaultRecorded (f s)) :
    FaultRecorded (andThen r f) := by
  cases r with
  | next s => exact hf s
  | fault e => exact h
  | refused e => exact h

theorem raise_faultRecorded (k : Fire) (s : State) : FaultRecorded (raise k s) := rfl

theorem trigger_faultRecorded (m : Word) (bypass : Bool) (s : State) : FaultRecorded (trigger m bypass s) := by
  by_cases hfire : s.fire = none
  · rcases trigger_cases m bypass s hfire with ⟨-, e⟩ | ⟨-, -, e⟩ | ⟨-, -, e⟩ <;> rw [e]
    · trivial
    · trivial
    · exact raise_faultRecorded _ _
  · rw [trigger_of_fire hfire]
    trivial

theorem signalled_faultRecorded (m : Word) (s : State) : FaultRecorded (signalled m s) := by
  unfold signalled
  split
  · trivial
  · exact trigger_faultRecorded m false s

theorem clockTicks_faultRecorded (i n : Nat) (c : ClockState) (s : State) : FaultRecorded (clockTicks i n c s) := by
  induction n generalizing c s with
  | zero => trivial
  | succ n ih =>
    simp only [clockTicks]
    split
    · exact ih _ _
    · exact (trigger_faultRecorded _ _ _).andThen (ih _)

theorem clockAdvance_faultRecorded (i n : Nat) (c : ClockState) (s : State) : FaultRecorded (clockAdvance i c n s) := by
  unfold clockAdvance
  split
  · trivial
  · exact clockTicks_faultRecorded i _ _ _

theorem drainJobs_faultRecorded (i : Nat) (jobs : List Job) (d : DiskState) (s : State) :
    FaultRecorded (drainJobs i jobs d s) := by
  induction jobs generalizing d s with
  | nil => trivial
  | cons j rest ih =>
    rcases Nat.lt_or_ge d.acc (jobCost s.params d.head j) with hshort | hcovered
    · rw [drainJobs_short i j rest hshort]
      trivial
    · cases rest with
      | nil =>
        rw [drainJobs_last i j hcovered]
        exact signalled_faultRecorded _ _
      | cons k more =>
        rw [drainJobs_more i j k more hcovered]
        exact ih _ _

theorem diskAdvance_faultRecorded (i n : Nat) (d : DiskState) (s : State) : FaultRecorded (diskAdvance i d n s) := by
  unfold diskAdvance
  split
  · trivial
  · exact drainJobs_faultRecorded i _ _ _

theorem busAction_faultRecorded (a : BusAction) (s : State) : FaultRecorded (busAction a s) := by
  cases a with
  | setReg r v => trivial
  | setMem x v => trivial
  | trigger m => exact trigger_faultRecorded m false s

theorem busActions_faultRecorded (as : List BusAction) (s : State) : FaultRecorded (busActions as s) := by
  induction as generalizing s with
  | nil => trivial
  | cons a as ih => exact (busAction_faultRecorded a s).andThen ih

theorem receiveActions_faultRecorded (as : List ReceiveAction) (s : State) : FaultRecorded (receiveActions as s) := by
  induction as generalizing s with
  | nil => trivial
  | cons a as ih =>
    refine FaultRecorded.andThen ?_ ih
    cases a with
    | act b => exact busAction_faultRecorded b s
    | consume n => trivial

theorem deviceReceive_faultRecorded (i : Nat) (s : State) : FaultRecorded (deviceReceive i s) := by
  unfold deviceReceive
  split
  case h_6 =>
    unfold otherReceive
    split
    · trivial
    · exact receiveActions_faultRecorded _ _
  all_goals trivial

theorem deviceClock_faultRecorded (i n : Nat) (s : State) : FaultRecorded (deviceClock i n s) := by
  unfold deviceClock
  split
  · trivial
  · exact clockAdvance_faultRecorded i n _ s
  · trivial
  · exact diskAdvance_faultRecorded i n _ s
  · trivial
  · unfold otherAdvance
    split
    · trivial
    · exact busActions_faultRecorded _ _

theorem clockDevices_faultRecorded (n : Nat) (is : List Nat) (s : State) : FaultRecorded (clockDevices n is s) := by
  induction is generalizing s with
  | nil => trivial
  | cons i is ih => exact (deviceClock_faultRecorded i n s).andThen ih

theorem endStep_faultRecorded (s : State) : FaultRecorded (endStep s) :=
  (clockDevices_faultRecorded _ _ s).andThen fun _ => trivial

theorem continueIf_faultRecorded (test : Bool) (s : State) : FaultRecorded (continueIf test s) := by
  unfold continueIf
  split
  · trivial
  · unfold skip
    rcases skipChain_cases memWords s with ⟨_, _, e⟩ | ⟨_, _, e, -⟩ | e <;> rw [e]
    · trivial
    · exact raise_faultRecorded _ _
    · trivial

/-- The conditionals, INT, HWQ and HWI can fire; every other instruction has a next state. -/
theorem exec_faultRecorded (i : Instr) (s : State) : FaultRecorded (exec i s) := by
  cases i with
  | ifb b a | ifc b a | ife b a | ifn b a | ifg b a | ifa b a | ifl b a | ifu b a => exact continueIf_faultRecorded _ _
  | int a => exact trigger_faultRecorded _ true _
  | iaq a =>
    simp only [exec, execIaq]
    split <;> trivial
  | hwq a =>
    simp only [exec, execHwq]
    split
    · exact raise_faultRecorded _ _
    · trivial
  | hwi a =>
    simp only [exec, execHwi]
    split
    · exact raise_faultRecorded _ _
    · exact deviceReceive_faultRecorded _ _
  | _ => trivial

/-- A machine on fire does no step (R250). -/
theorem step_of_fire {k : Fire} {s : State} (h : s.fire = some k) : step s = .fault (.fire k s) := by
  simp only [step, beginStep, h]

theorem step_faultRecorded (s : State) : FaultRecorded (step s) := by
  cases hfire : s.fire with
  | some k =>
    rw [step_of_fire hfire]
    exact hfire
  | none =>
    cases hdecode : decode s.params.opcodes (s.readMem s.pc) with
    | ok i =>
      rw [step_of_decode hfire hdecode]
      exact (exec_faultRecorded i _).andThen endStep_faultRecorded
    | error e =>
      have hword : decode s.params.opcodes (fetchWord s).1 = .error e := hdecode
      simp only [step, beginStep, hfire, hword]
      exact raise_faultRecorded _ _

/-- Settles O41: every part of a step records the fault it ends in, and refuses nothing. -/
theorem fireStopsTheMachine : Obligations.FireStopsTheMachine := by
  refine ⟨fun w => ⟨fun _ => rfl, rfl, rfl⟩, fun k s => step_of_fire, fun s i e hfire hdecode he => ?_,
    fun s k post h => ?_, fun s r h => ?_⟩
  · rw [step_of_decode hfire hdecode, he, andThen_fault]
  · have hrecorded := step_faultRecorded s
    rwa [h] at hrecorded
  · have hrecorded := step_faultRecorded s
    rwa [h] at hrecorded

end Sys2Proof.Machine
end

section
/-! ## The Clock

The tick loop takes one period from the accumulator at each pass, so its `n` passes are one move of the Clock by `n` ticks, and the Clock
after the cycles given is that move by the whole periods in them (R303). -/

namespace Sys2Proof.Machine

open Sys2Proof.Claims

/-- Settles O52: the model's command table, row by row. -/
theorem clockCommands : Obligations.ClockCommands := by
  refine fun i c s => ⟨rfl, rfl, rfl, fun m hm => ?unlisted⟩
  unfold clockReceive
  split
  case h_4 => rfl
  all_goals omega

/-! ### The tick loop -/

/-- A Clock after `n` passes of the tick loop (R303). -/
def ticked (p : Params) (c : ClockState) (n : Nat) : ClockState :=
  { c with acc60 := c.acc60 - n * clockPeriod60 p c, ticks := c.ticks + BitVec.ofNat 16 n }

/-- A Clock that was given `n` cycles, before any tick (R303). -/
def charged (c : ClockState) (n : Nat) : ClockState := { c with acc60 := c.acc60 + 60 * n }

theorem ticked_zero (p : Params) (c : ClockState) : ticked p c 0 = c := by
  simp [ticked]

/-- One pass, and then `n` more. -/
theorem ticked_succ (p : Params) (c : ClockState) (n : Nat) : ticked p (ticked p c 1) n = ticked p c (n + 1) := by
  have hacc : c.acc60 - 1 * clockPeriod60 p c - n * clockPeriod60 p c = c.acc60 - (n + 1) * clockPeriod60 p c := by
    rw [Nat.sub_sub, ← Nat.add_mul, Nat.add_comm]
  have hticks : c.ticks + BitVec.ofNat 16 1 + BitVec.ofNat 16 n = c.ticks + BitVec.ofNat 16 (n + 1) := by
    rw [Nat.add_comm n 1, BitVec.ofNat_add, ← BitVec.add_assoc]
  simp only [ticked, ← hticks, ← hacc]
  rfl

/-- The whole periods become ticks, and the rest stays (R303). -/
theorem clockAfter_eq_ticked {p : Params} {c : ClockState} (hrate : c.rate ≠ 0) (n : Nat) :
    clockAfter p c n = ticked p (charged c n) ((c.acc60 + 60 * n) / (p.clockHz * c.rate.toNat)) := by
  rw [clockAfter, if_neg hrate, ticked, Nat.mod_eq_sub_div_mul]
  rfl

/-- One pass of the tick loop: the Clock moves by a tick, and triggers its message unless it is 0 (R303). -/
theorem clockTicks_succ (i n : Nat) (c : ClockState) (s : State) :
    clockTicks i (n + 1) c s =
      if c.message = 0 then clockTicks i n (ticked s.params c 1) (s.setBody i (.clock (ticked s.params c 1)))
      else andThen (trigger c.message false (s.setBody i (.clock (ticked s.params c 1))))
        (clockTicks i n (ticked s.params c 1)) := by
  rw [ticked, Nat.one_mul]
  rfl

/-- The tick loop of a silent Clock moves the Clock, and nothing else. -/
theorem clockTicks_of_silent {i : Nat} {c : ClockState} {s : State} (hb : s.bodyAt i = some (.clock c))
    (hsilent : c.message = 0) (n : Nat) :
    clockTicks i n c s = .next (s.setBody i (.clock (ticked s.params c n))) := by
  induction n generalizing c s with
  | zero =>
    rw [ticked_zero, setBody_self s hb]
    rfl
  | succ n ih =>
    rw [clockTicks_succ, if_pos hsilent, ih (c := ticked s.params c 1) (bodyAt_setBody_self s hb) hsilent,
      setBody_setBody, State.setBody_params, ticked_succ]

/-- With queueing on and room in the queue a trigger adds its message to the queue, and nothing else happens (R262, R264). -/
theorem trigger_of_queueing (m : Word) {s : State} (hfire : s.fire = none) (hiaq : s.iaq = true)
    (hroom : s.queue.length < queueMax) : trigger m false s = .next (s.setQueue (s.queue ++ [m])) := by
  rw [trigger_of_room m hfire hroom, dispatch_of_iaq (by exact hiaq)]

/-- With queueing on and room for every tick, the tick loop moves the Clock and adds a message for each tick. -/
theorem clockTicks_of_queueing {i : Nat} {c : ClockState} {s : State} (hb : s.bodyAt i = some (.clock c))
    (hmessage : c.message ≠ 0) (hfire : s.fire = none) (hiaq : s.iaq = true) {n : Nat}
    (hroom : s.queue.length + n ≤ queueMax) :
    clockTicks i n c s = .next ((s.setBody i (.clock (ticked s.params c n))).setQueue
      (s.queue ++ List.replicate n c.message)) := by
  induction n generalizing c s with
  | zero =>
    rw [ticked_zero, setBody_self s hb, List.replicate_zero, List.append_nil]
    rfl
  | succ n ih =>
    have hroom1 : s.queue.length < queueMax := by omega
    have htrigger := trigger_of_queueing c.message (s := s.setBody i (.clock (ticked s.params c 1))) hfire hiaq hroom1
    have hrest := ih (c := ticked s.params c 1)
      (s := (s.setBody i (.clock (ticked s.params c 1))).setQueue (s.queue ++ [c.message]))
      (bodyAt_setBody_self s hb) hmessage hfire hiaq (by simp; omega)
    have hqueue : s.queue ++ List.replicate (n + 1) c.message = s.queue ++ [c.message] ++ List.replicate n c.message := by
      rw [List.replicate_succ, List.append_cons]
    rw [clockTicks_succ, if_neg hmessage, htrigger, andThen_next]
    refine hrest.trans ?_
    rw [← ticked_succ s.params c n, hqueue,
      ← setBody_setBody s i (.clock (ticked s.params c 1)) (.clock (ticked s.params (ticked s.params c 1) n))]
    rfl

/-! ### The clock of a Clock -/

theorem deviceClock_clock {i : Nat} {c : ClockState} {s : State} (hb : s.bodyAt i = some (.clock c)) (n : Nat) :
    deviceClock i n s = clockAdvance i c n s := by
  simp only [deviceClock, hb]

/-- A Clock whose rate is not 0 is given the cycles, and the tick loop runs for the whole periods (R303). -/
theorem deviceClock_of_rate_ne_zero {i : Nat} {c : ClockState} {s : State} (hb : s.bodyAt i = some (.clock c))
    (hrate : c.rate ≠ 0) (n : Nat) :
    deviceClock i n s = clockTicks i ((c.acc60 + 60 * n) / (s.params.clockHz * c.rate.toNat)) (charged c n)
      (s.setBody i (.clock (charged c n))) := by
  rw [deviceClock_clock hb, clockAdvance, if_neg hrate]
  rfl

/-- A silent Clock is moved by the whole periods in the cycles (R303). -/
theorem deviceClock_of_silent {i : Nat} {c : ClockState} {s : State} (hb : s.bodyAt i = some (.clock c))
    (hsilent : c.message = 0) (n : Nat) :
    deviceClock i n s = .next (s.setBody i (.clock (clockAfter s.params c n))) := by
  by_cases hrate : c.rate = 0
  · rw [deviceClock_clock hb, clockAdvance, if_pos hrate, clockAfter, if_pos hrate, setBody_self s hb]
  · rw [deviceClock_of_rate_ne_zero hb hrate,
      clockTicks_of_silent (c := charged c n) (bodyAt_setBody_self s hb) hsilent, setBody_setBody,
      State.setBody_params, clockAfter_eq_ticked hrate]

/-- Settles O53: the tick loop in its two forms, run for the whole periods. -/
theorem clockTicksAreExact : Obligations.ClockTicksAreExact := by
  refine fun i n c s hb _ => ⟨fun hsilent => deviceClock_of_silent hb hsilent n,
    fun hmessage hrate hfire hiaq hroom => ?_⟩
  rw [deviceClock_of_rate_ne_zero hb hrate,
    clockTicks_of_queueing (c := charged c n) (bodyAt_setBody_self s hb) hmessage hfire hiaq hroom, setBody_setBody,
    State.setBody_params, clockAfter_eq_ticked hrate]
  rfl

/-! ### The broadcast to silent Clocks -/

/-- Every device is a Clock without a message. -/
def silentClocksOnly (s : State) : Prop := ∀ i b, s.bodyAt i = some b → ∃ c, b = .clock c ∧ c.message = 0

theorem clockAfter_message (p : Params) (c : ClockState) (n : Nat) : (clockAfter p c n).message = c.message := by
  unfold clockAfter
  split <;> rfl

theorem silentClocksOnly.setBody {s : State} (h : silentClocksOnly s) (i : Nat) {c : ClockState}
    (hsilent : c.message = 0) : silentClocksOnly (s.setBody i (.clock c)) := by
  intro k b hk
  by_cases hki : k = i
  · subst hki
    cases hd : s.devices[k]? <;> simp [State.bodyAt, putBody_getElem?, hd] at hk
    exact ⟨c, hk.symm, hsilent⟩
  · exact h k b (by rwa [bodyAt_setBody_ne s _ hki] at hk)

/-- Clocking one device of a machine with silent Clocks only advances it, if it is there, and leaves the others (R294). -/
theorem deviceClock_of_silentClocksOnly (i n : Nat) {s : State} (h : silentClocksOnly s) :
    ∃ u, deviceClock i n s = .next u ∧ silentClocksOnly u ∧ u.params = s.params ∧
      (∀ k, k ≠ i → u.bodyAt k = s.bodyAt k) ∧
      ∀ c, s.bodyAt i = some (.clock c) → u.bodyAt i = some (.clock (clockAfter s.params c n)) := by
  cases hb : s.bodyAt i with
  | none => exact ⟨s, by simp only [deviceClock, hb], h, rfl, fun _ _ => rfl, nofun⟩
  | some b =>
    obtain ⟨c, rfl, hsilent⟩ := h i b hb
    refine ⟨_, deviceClock_of_silent hb hsilent n, h.setBody i ((clockAfter_message _ c n).trans hsilent), rfl,
      fun k hk => bodyAt_setBody_ne s _ hk, fun c' hc' => ?_⟩
    cases hc'
    exact bodyAt_setBody_self s hb

/-- Clocking different devices, all silent Clocks, advances each of them by the cycles and leaves the others (R294). -/
theorem clockDevices_of_silentClocksOnly (n : Nat) {is : List Nat} (hdiffer : is.Nodup) {s : State}
    (h : silentClocksOnly s) :
    ∃ t, clockDevices n is s = .next t ∧ (∀ k, k ∉ is → t.bodyAt k = s.bodyAt k) ∧
      ∀ k ∈ is, ∀ c, s.bodyAt k = some (.clock c) → t.bodyAt k = some (.clock (clockAfter s.params c n)) := by
  induction is generalizing s with
  | nil => exact ⟨s, rfl, fun _ _ => rfl, fun k hk => absurd hk List.not_mem_nil⟩
  | cons i is ih =>
    obtain ⟨hi, hrest⟩ := List.nodup_cons.1 hdiffer
    obtain ⟨u, hu, hsilent, hparams, hothers, hself⟩ := deviceClock_of_silentClocksOnly i n h
    obtain ⟨t, ht, hout, hin⟩ := ih hrest hsilent
    refine ⟨t, by rw [clockDevices, hu, andThen_next, ht], fun k hk => ?out, fun k hk c hc => ?into⟩
    case out =>
      obtain ⟨hki, hkis⟩ := not_or.1 (mt List.mem_cons.2 hk)
      exact (hout k hkis).trans (hothers k hki)
    case into =>
      by_cases hki : k = i
      · subst hki
        exact (hout k hi).trans (hself c hc)
      · rw [← hparams]
        exact hin k (List.mem_of_ne_of_mem hki hk) c ((hothers k hki).trans hc)

/-- Settles O54: the broadcast clocks every index of the device list once. -/
theorem everyClockSeesTheStepCost : Obligations.EveryClockSeesTheStepCost := by
  intro s _ hclocks
  obtain ⟨t, ht, -, hin⟩ := clockDevices_of_silentClocksOnly s.cyc (List.nodup_range (n := s.devices.length)) hclocks
  refine ⟨t, ht, fun i c hc => hin i (List.mem_range.2 ?_) c hc⟩
  obtain ⟨d, hd, -⟩ := Option.map_eq_some_iff.1 hc
  exact (List.getElem?_eq_some_iff.1 hd).1

end Sys2Proof.Machine
end

section
/-! ## The Keyboard and the Display -/

namespace Sys2Proof.Machine

open Sys2Proof.Claims

/-! ### The Keyboard -/

theorem mem_releaseKey {down : List Word} {k x : Word} : x ∈ releaseKey down k ↔ x ≠ k ∧ x ∈ down := by
  simp [releaseKey, and_comm]

/-- Command 2 tells in C whether the key in B is held (R307). -/
theorem keyboardReceive_held (i : Nat) (k : KeyboardState) (s : State) :
    keyboardReceive i k 2 s = { s with gpr := { s.gpr with c := if s.gpr.b ∈ k.down then 1 else 0 } } := by
  simp only [← List.contains_iff_mem]
  rfl

/-- A Keyboard lists the commands 0 to 3 (R307). -/
theorem keyboardReceive_of_unlisted {m : Word} (h : 4 ≤ m.toNat) (i : Nat) (k : KeyboardState) (s : State) :
    keyboardReceive i k m s = s := by
  unfold keyboardReceive
  split
  case h_5 => rfl
  all_goals omega

/-- Settles O55: the key events, the command table row by row, and the held keys as a set. -/
theorem keyboardIsFifo : Obligations.KeyboardIsFifo := by
  refine fun i k s => ⟨fun hb code => ⟨?down, ?up⟩, fun code rest hbuffer => ?front, fun hbuffer => ?empty, rfl,
    keyboardReceive_held i k s, rfl, fun m hm => keyboardReceive_of_unlisted hm i k s,
    fun code x => ⟨mem_holdKey, mem_releaseKey⟩⟩
  case down => simp only [hostCall, keyEvent, hb, keyDown_eq]
  case up => simp only [hostCall, keyEvent, hb, keyUp_eq]
  case front =>
    show keyboardReceive i k (BitVec.ofNat 16 1) s = _
    simp only [keyboardReceive, hbuffer]
    rfl
  case empty =>
    simp only [keyboardReceive, hbuffer]
    rfl

/-! ### The words a Display stores -/

@[simp] theorem storeWords_cyc (ws : List Word) (base : Word) (s : State) : (storeWords base ws s).cyc = s.cyc := by
  induction ws generalizing base s with
  | nil => rfl
  | cons w ws ih => exact ih _ _

/-- An address is not among fewer than 65536 words that begin behind it (R61). -/
theorem notMem_wordsFrom_succ (base : Word) {n : Nat} (h : n < 65536) : base ∉ wordsFrom (base + 1) n := by
  have hlast : base - (base + 1) = -1#16 := by bv_omega
  show ¬ (base - (base + 1)).toNat < n
  rw [hlast]
  exact Nat.not_lt.2 (Nat.le_of_lt_succ h)

/-- Words stored from an address on are read back from there on (R321, D28). -/
theorem storeWords_readMem {ws : List Word} (hlength : ws.length ≤ 65536) (base : Word) {s : State}
    (hwf : Memory.wf memWords s.mem = true) {k : Nat} (hk : k < ws.length) :
    (storeWords base ws s).readMem (base + BitVec.ofNat 16 k) = ws[k] := by
  induction ws generalizing base s k with
  | nil => exact absurd hk (Nat.not_lt_zero k)
  | cons w ws ih =>
    have hfits : ws.length < 65536 := hlength
    cases k with
    | zero =>
      have hkept := ((DeviceFrame.refl 0 [] (wordsFrom (base + 1) ws.length) (s.writeMem base w)).storeWords ws
        fun k hk => add_ofNat_mem_wordsFrom _ hk).readMem base (notMem_wordsFrom_succ base hfits)
      rw [State.readMem_writeMem_self s hwf] at hkept
      rw [BitVec.add_zero]
      exact hkept
    | succ k =>
      have hnext : base + BitVec.ofNat 16 (k + 1) = base + 1 + BitVec.ofNat 16 k := by
        rw [Nat.add_comm k 1, BitVec.ofNat_add, ← BitVec.add_assoc]
        rfl
      rw [hnext]
      exact ih hfits.le (base + 1) (State.wf_writeMem s hwf base w) (Nat.lt_of_succ_lt_succ hk)

/-! ### The Display -/

/-- A Display lists the commands 0 to 5 (R321). -/
theorem displayReceive_of_unlisted {m : Word} (h : 6 ≤ m.toNat) (i : Nat) (d : DisplayState) (s : State) :
    displayReceive i d m s = s := by
  unfold displayReceive
  split
  case h_7 => rfl
  all_goals omega

/-- The low four bits of a word (R321). -/
theorem extractLsb'_border (w : Word) : w.extractLsb' 0 4 = BitVec.ofNat 4 (w.toNat % 16) := by
  apply BitVec.eq_of_toNat_eq
  simp

/-- Settles O59: the command table row by row, and the words of commands 4 and 5 as they are read back. -/
theorem displayCommands : Obligations.DisplayCommands := by
  refine ⟨rfl, fun i d s => ⟨rfl, rfl, rfl, ?border, fun m hm => displayReceive_of_unlisted hm i d s,
    fun hb n => ?clock, fun hwf => ⟨?fontCycles, fun k => ?font, ?paletteCycles, fun k => ?palette⟩⟩⟩
  case border =>
    rw [← extractLsb'_border]
    rfl
  case clock => simp only [deviceClock, hb]
  case fontCycles => exact congrArg (· + 256) (storeWords_cyc _ _ s)
  case font => exact storeWords_readMem (by simp) _ hwf (by simp)
  case paletteCycles => exact congrArg (· + 16) (storeWords_cyc _ _ s)
  case palette => exact storeWords_readMem (by simp) _ hwf (by simp)

end Sys2Proof.Machine
end

section
/-! ## The Disk: its commands, and the requests it turns away or queues -/

namespace Sys2Proof.Machine

open Sys2Proof.Claims

/-! ### Requests -/

/-- A request without a medium is turned away (R312). -/
theorem diskRequest_of_no_media (i : Nat) (dir : JobDirection) {d : DiskState} (s : State) (h : d.media = none) :
    diskRequest i dir d s = s.setGpr .a s.params.diskCodes.errorNoMedia := by
  simp [diskRequest, h]

section
variable (i : Nat) (dir : JobDirection) {d : DiskState} {s : State} (hmedia : d.media ≠ none)
include hmedia

/-- A request while jobs wait is turned away (R312). -/
theorem diskRequest_of_jobs (hjobs : d.jobs ≠ []) :
    diskRequest i dir d s = s.setGpr .a s.params.diskCodes.errorPending := by
  simp [diskRequest, hmedia, hjobs]

/-- A request past the last sector is turned away (R312). -/
theorem diskRequest_of_past_end (hjobs : d.jobs = [])
    (hpast : s.params.diskSectors < s.gpr.b.toNat + s.gpr.c.toNat) :
    diskRequest i dir d s = s.setGpr .a s.params.diskCodes.errorInvalidSector := by
  have hpast' : s.params.diskSectors < (s.gpr.get .b).toNat + (s.gpr.get .c).toNat := hpast
  simp [diskRequest, hmedia, hjobs, hpast']

/-- A request that is taken queues its jobs, and in blocking mode runs them (R312, R314). -/
theorem diskRequest_of_taken (hjobs : d.jobs = [])
    (hfits : s.gpr.b.toNat + s.gpr.c.toNat ≤ s.params.diskSectors) :
    diskRequest i dir d s =
      let jobs := requestJobs s.params dir s.gpr.b.toNat s.gpr.c.toNat s.gpr.x
      let queued := (s.setGpr .a s.params.diskCodes.errorNone).setBody i (.disk { d with jobs := jobs })
      if flagNonBlocking s.params d then queued else runBlocking i jobs { d with jobs := jobs } queued := by
  have hfits' : ¬ s.params.diskSectors < (s.gpr.get .b).toNat + (s.gpr.get .c).toNat := Nat.not_lt.2 hfits
  have hnone : ¬ d.media.isNone = true := by simpa using hmedia
  rw [diskRequest, if_neg hnone, if_neg (not_not.2 hjobs), if_neg hfits']
  rfl

end

/-! ### Commands -/

/-- The command values in the order of the table (R311). -/
def diskCommandValues (c : DiskCodes) : List Word :=
  [c.mediaQuery, c.parameterQuery, c.flagsGet, c.flagsSet, c.interruptTypeQuery, c.interruptMessageSet,
    c.readSectors, c.writeSectors, c.qualityQuery]

/-- A command outside the table has no effect (R311). -/
theorem diskReceive_of_unlisted {m : Word} {s : State} (h : m ∉ diskCommandValues s.params.diskCodes) (i : Nat)
    (d : DiskState) : diskReceive i d m s = s := by
  simp only [diskCommandValues, List.mem_cons, List.not_mem_nil, or_false, not_or] at h
  simp [diskReceive, h]

/-- The media query answers in B (R311). -/
theorem diskReceive_mediaQuery (i : Nat) (d : DiskState) (s : State) :
    diskReceive i d s.params.diskCodes.mediaQuery s =
      (s.setGpr .b (if d.media = none then 0 else 1)).setGpr .a s.params.diskCodes.errorNone := by
  cases hmedia : d.media <;> simp [diskReceive, hmedia]

/-- Settles O56: each value of the table differs from those before it, so it meets its own row; the requests by their cases. -/
theorem diskCommands : Obligations.DiskCommands := by
  refine ⟨rfl, rfl, rfl, fun i d s => ⟨fun hdiffer => ?table, fun m hm => diskReceive_of_unlisted hm i d, fun dir =>
    ⟨diskRequest_of_no_media i dir s, fun hmedia hjobs => diskRequest_of_jobs i dir hmedia hjobs,
      fun hmedia hjobs hpast => diskRequest_of_past_end i dir hmedia hjobs hpast,
      fun hmedia hjobs hfits hflag => ?queued⟩⟩⟩
  case queued =>
    rw [diskRequest_of_taken i dir hmedia hjobs hfits]
    exact if_pos hflag
  case table =>
    have hlater := List.nodup_reverse.2 hdiffer
    simp only [List.reverse_cons, List.reverse_nil, List.nil_append, List.cons_append, List.nodup_cons, List.mem_cons,
      List.not_mem_nil, or_false, not_or, not_false_eq_true, List.nodup_nil, and_self, and_true] at hlater
    obtain ⟨hquality, hwrite, hread, hmessage, htype, hflagsSet, hflagsGet, hparameter⟩ := hlater
    refine ⟨diskReceive_mediaQuery i d s, ?parameterQuery, ?flagsGet, ?flagsSet, ?typeQuery, ?messageSet, ?read, ?write,
      ?quality⟩
    case parameterQuery =>
      simp only [diskReceive, hparameter, if_true, if_false]
      cases d.media <;> rfl
    case flagsGet =>
      simp only [diskReceive, hflagsGet, if_true, if_false]
      rfl
    case flagsSet =>
      simp only [diskReceive, hflagsSet, if_true, if_false]
      rfl
    case typeQuery =>
      simp only [diskReceive, htype, if_true, if_false]
      rfl
    case messageSet =>
      simp only [diskReceive, hmessage, if_true, if_false]
      rfl
    case read => simp only [diskReceive, hread, if_true, if_false]
    case write => simp only [diskReceive, hwrite, if_true, if_false]
    case quality =>
      simp only [diskReceive, hquality, if_true, if_false]
      rfl

end Sys2Proof.Machine
end

section
/-! ## The Disk: its job loops

Both loops take the jobs from the front: what `n` jobs do together is the transfers in order, the head at the last of them, and the sum of
their costs. The loop of the clock runs as far as the cycles cover (R315); the loop of blocking mode runs them all (R314). -/

namespace Sys2Proof.Machine

open Sys2Proof.Claims

/-! ### Jobs one after another -/

theorem jobsCost_append (p : Params) (head : Nat) (jobs later : List Job) :
    jobsCost p head (jobs ++ later) = jobsCost p head jobs + jobsCost p (headAfter head jobs) later := by
  induction jobs generalizing head with
  | nil => exact (Nat.zero_add _).symm
  | cons j jobs ih => rw [List.cons_append, jobsCost, ih, jobsCost, Nat.add_assoc (_ + _)]; rfl

/-- The cost of a front job and of those behind it (R313). -/
theorem jobsCost_cons (p : Params) (head : Nat) (j : Job) (jobs : List Job) :
    jobsCost p head (j :: jobs) = jobCost p head j + jobsCost p j.sector jobs := rfl

theorem headAfter_append (head : Nat) (jobs later : List Job) :
    headAfter head (jobs ++ later) = headAfter (headAfter head jobs) later := List.foldl_append

theorem transferAll_append (p : Params) (jobs later : List Job) (media : Option Memory) (mem : Memory) :
    transferAll p (jobs ++ later) media mem =
      transferAll p later (transferAll p jobs media mem).1 (transferAll p jobs media mem).2 := List.foldl_append

/-- The disk after jobs have run, others waiting: `afterJob` for any number of them. -/
def afterJobs (p : Params) (jobs rest : List Job) (acc : Nat) (d : DiskState) (mem : Memory) : DiskState :=
  { d with media := (transferAll p jobs d.media mem).1, head := headAfter d.head jobs, jobs := rest, acc := acc }

theorem afterJobs_nil {p : Params} {rest : List Job} {d : DiskState} (hjobs : d.jobs = rest) (mem : Memory) :
    afterJobs p [] rest d.acc d mem = d := by
  subst hjobs
  rfl

/-- The machine after the disk that is device `i` has run jobs: memory moved, and the disk (R312). -/
def withJobsDone (s : State) (i : Nat) (jobs : List Job) (media : Option Memory) (d : DiskState) : State :=
  { s with mem := (transferAll s.params jobs media s.mem).2 }.setBody i (.disk d)

/-- Of two batches of jobs both transfers stay, and of the disk's two states the second (R312). -/
theorem withJobsDone_append (s : State) (i : Nat) (jobs later : List Job) (media : Option Memory) (d d' : DiskState) :
    withJobsDone (withJobsDone s i jobs media d) i later (transferAll s.params jobs media s.mem).1 d' =
      withJobsDone s i (jobs ++ later) media d' := by
  rw [withJobsDone, withJobsDone, withJobsDone, transferAll_append]
  exact setBody_setBody
    { s with mem := (transferAll s.params later (transferAll s.params jobs media s.mem).1
      (transferAll s.params jobs media s.mem).2).2 } i (.disk d) (.disk d')

theorem withJobsDone_nil (s : State) (i : Nat) (media : Option Memory) (d : DiskState) :
    withJobsDone s i [] media d = s.setBody i (.disk d) := rfl

/-! ### The loop of the clock -/

/-- The jobs the cycles cover are done, and the loop goes on with those behind them (R315). -/
theorem drainJobs_append (i : Nat) (done : List Job) (k : Job) (more : List Job) {d : DiskState} {s : State}
    (hb : s.bodyAt i = some (.disk d)) (hjobs : d.jobs = done ++ k :: more)
    (hcost : jobsCost s.params d.head done ≤ d.acc) :
    let d' := afterJobs s.params done (k :: more) (d.acc - jobsCost s.params d.head done) d s.mem
    drainJobs i (done ++ k :: more) d s = drainJobs i (k :: more) d' (withJobsDone s i done d.media d') := by
  induction done generalizing d s with
  | nil =>
    have hd : afterJobs s.params [] (k :: more) (d.acc - jobsCost s.params d.head []) d s.mem = d :=
      afterJobs_nil hjobs s.mem
    simp only [hd, withJobsDone_nil, setBody_self s hb, List.nil_append]
  | cons j done ih =>
    obtain ⟨next, later, hnext⟩ : ∃ next later, done ++ k :: more = next :: later := List.exists_cons_of_ne_nil (by simp)
    have hsplit : jobCost s.params d.head j + jobsCost s.params j.sector done ≤ d.acc := hcost
    have hrest := ih (d := afterJob s.params j (done ++ k :: more) (d.acc - jobCost s.params d.head j) d s.mem)
      (s := withJobsDone s i [j] d.media
        (afterJob s.params j (done ++ k :: more) (d.acc - jobCost s.params d.head j) d s.mem))
      (bodyAt_setBody_self _ hb) rfl (Nat.le_sub_of_add_le' hsplit)
    rw [List.cons_append, hnext, drainJobs_more i j next later (by omega), ← hnext]
    refine hrest.trans ?_
    rw [jobsCost_cons, ← Nat.sub_sub]
    exact congrArg _ (withJobsDone_append s i [j] done d.media _ _)

/-- A Disk with jobs is given the cycles, and its job loop runs (R315). -/
theorem deviceClock_of_jobs {i : Nat} {d : DiskState} {s : State} (hb : s.bodyAt i = some (.disk d)) (hjobs : d.jobs ≠ [])
    (n : Nat) :
    deviceClock i n s =
      drainJobs i d.jobs { d with acc := d.acc + n } (s.setBody i (.disk { d with acc := d.acc + n })) := by
  simp only [deviceClock, hb, diskAdvance]

/-- The cycles cover some jobs and others wait behind them: the covered ones are done, and the loop goes on (R315). -/
theorem deviceClock_of_covered {i : Nat} {d : DiskState} {s : State} (hb : s.bodyAt i = some (.disk d)) {n : Nat}
    {done : List Job} {k : Job} {more : List Job} (hjobs : d.jobs = done ++ k :: more)
    (hcost : jobsCost s.params d.head done ≤ d.acc + n) :
    let d' := afterJobs s.params done (k :: more) (d.acc + n - jobsCost s.params d.head done) d s.mem
    deviceClock i n s = drainJobs i (k :: more) d' (withJobsDone s i done d.media d') := by
  have hne : d.jobs ≠ [] := by simp [hjobs]
  have hloop := drainJobs_append (d := { d with acc := d.acc + n }) i done k more (bodyAt_setBody_self s hb) hjobs hcost
  rw [← hjobs] at hloop
  rw [deviceClock_of_jobs hb hne]
  refine hloop.trans ?_
  exact congrArg _ (withJobsDone_append s i [] done d.media _ _)

theorem completionType_eq (p : Params) (dir : JobDirection) :
    completionType p dir = if dir = .read then p.diskCodes.intReadComplete else p.diskCodes.intWriteComplete := by
  cases dir <;> rfl

/-- Settles O58: the covered jobs are done; then the first of the others is not covered, or the last of all is done too. -/
theorem diskJobCompletesByClock : Obligations.DiskJobCompletesByClock := by
  refine fun i n d s hb => ⟨fun hjobs => ?noJob, fun done rest hjobs hcost hshort =>
    ⟨fun hrest => ?waits, fun last hrest hlast => ?drained⟩⟩
  case noJob => simp only [deviceClock, hb, diskAdvance, hjobs]
  case waits =>
    obtain ⟨k, more, rfl⟩ := List.exists_cons_of_ne_nil hrest
    have hk := hshort k rfl
    rw [jobsCost_append] at hk
    rw [deviceClock_of_covered hb hjobs hcost, drainJobs_short]
    · rfl
    · exact (Nat.sub_lt_iff_lt_add' hcost).2 hk
  case drained =>
    subst hrest
    obtain ⟨init, rfl⟩ := List.getLast?_eq_some_iff.1 hlast
    rw [List.append_nil] at hjobs
    rw [jobsCost_append] at hcost
    rw [deviceClock_of_covered hb hjobs (Nat.le_of_add_right_le hcost), drainJobs_last, transferAll_append]
    · rw [completionType_eq]
      exact congrArg (signalled d.message) (setBody_setBody
        { s with mem := (transferAll s.params [last] (transferAll s.params init d.media s.mem).1
          (transferAll s.params init d.media s.mem).2).2 } i _ _)
    · exact Nat.le_sub_of_add_le' hcost

end Sys2Proof.Machine
end

section
/-! ## The Disk: blocking requests

The sectors of a request are consecutive in the medium, and its blocks in memory: its jobs together copy one block of words to another,
each word once. -/

namespace Sys2Proof.Machine

open Sys2Proof.Claims

/-! ### The loop of blocking mode -/

theorem addCycles_addCycles (s : State) (m n : Nat) : (s.addCycles m).addCycles n = s.addCycles (m + n) := by
  simp only [State.addCycles, Nat.add_assoc]

/-- Every job is done, and its cost consumed (R314). -/
theorem runBlocking_eq (i : Nat) {jobs : List Job} {d : DiskState} {s : State} (hb : s.bodyAt i = some (.disk d))
    (hjobs : d.jobs = jobs) :
    runBlocking i jobs d s = (withJobsDone s i jobs d.media (afterJobs s.params jobs [] d.acc d s.mem)).addCycles
      (jobsCost s.params d.head jobs) := by
  induction jobs generalizing d s with
  | nil =>
    rw [afterJobs_nil hjobs, withJobsDone_nil, setBody_self s hb]
    rfl
  | cons j rest ih =>
    have hrest := ih (d := afterJob s.params j rest d.acc d s.mem)
      (s := (withJobsDone s i [j] d.media (afterJob s.params j rest d.acc d s.mem)).addCycles
        (jobCost s.params d.head j)) (bodyAt_setBody_self _ hb) rfl
    rw [runBlocking_cons, jobsCost_cons, ← addCycles_addCycles]
    refine hrest.trans ?_
    exact congrArg (fun t : State => (t.addCycles (jobCost s.params d.head j)).addCycles (jobsCost s.params j.sector rest))
      (withJobsDone_append s i [j] rest d.media _ _)

/-! ### The jobs of a request -/

theorem requestJobs_succ (p : Params) (dir : JobDirection) (sector count : Nat) (address : Word) :
    requestJobs p dir sector (count + 1) address = requestJobs p dir sector count address ++
      [⟨dir, sector + count, address + BitVec.ofNat 16 (count * p.diskSectorWords)⟩] := by
  simp [requestJobs, List.range_succ]

/-- The head after a request: at its last sector (R313). -/
def requestHead (head sector count : Nat) : Nat := if count = 0 then head else sector + count - 1

/-- The cost of a request: the seek to its first sector, one seek between sectors, and a transfer for each (R313). -/
def requestCost (p : Params) (head sector count : Nat) : Nat :=
  if count = 0 then 0 else
    seekDistance head sector * p.diskSeekCycles + (count - 1) * p.diskSeekCycles + count * p.diskTransferCycles

theorem headAfter_requestJobs (p : Params) (dir : JobDirection) (head sector count : Nat) (address : Word) :
    headAfter head (requestJobs p dir sector count address) = requestHead head sector count := by
  cases count with
  | zero => rfl
  | succ count =>
    rw [requestJobs_succ, headAfter_append, requestHead, if_neg (Nat.succ_ne_zero count)]
    rfl

theorem jobsCost_requestJobs (p : Params) (dir : JobDirection) (head sector count : Nat) (address : Word) :
    jobsCost p head (requestJobs p dir sector count address) = requestCost p head sector count := by
  induction count with
  | zero => rfl
  | succ count ih =>
    rw [requestJobs_succ, jobsCost_append, ih, headAfter_requestJobs]
    cases count with
    | zero => simp [jobsCost, requestCost, requestHead]
    | succ count =>
      have hnext : seekDistance (requestHead head sector (count + 1)) (sector + (count + 1)) = 1 := by
        simp [requestHead, seekDistance, ← Nat.add_assoc]
      simp only [jobsCost, requestCost, if_neg (Nat.succ_ne_zero _), hnext, Nat.add_sub_cancel]
      ring

/-! ### Copying words -/

/-- Words `0` to `n - 1` of a block copied from one store to another. -/
def copyWords (n : Nat) (target source : Nat → Nat) (here : Memory) (there : Memory) : Memory :=
  (List.range n).foldl (fun m q => Memory.write m (target q) (Memory.read here (source q))) there

theorem copyWords_succ (n : Nat) (target source : Nat → Nat) (here there : Memory) :
    copyWords (n + 1) target source here there =
      Memory.write (copyWords n target source here there) (target n) (Memory.read here (source n)) := by
  simp [copyWords, List.range_succ]

/-- A block copied in two parts. -/
theorem copyWords_add (m n : Nat) (target source : Nat → Nat) (here there : Memory) :
    copyWords (m + n) target source here there =
      copyWords n (fun q => target (m + q)) (fun q => source (m + q)) here (copyWords m target source here there) := by
  induction n with
  | zero => rfl
  | succ n ih => rw [← Nat.add_assoc, copyWords_succ, ih, copyWords_succ]

theorem copyWords_wf {bound n : Nat} {target : Nat → Nat} {there : Memory} (hwf : Memory.wf bound there = true)
    (hbound : ∀ q < n, target q < bound) (source : Nat → Nat) (here : Memory) :
    Memory.wf bound (copyWords n target source here there) = true :=
  foldl_write_wf target (fun q => Memory.read here (source q)) _ there hwf fun q hq => hbound q (List.mem_range.1 hq)

/-- Copied to different places, each word is read back at its own. -/
theorem copyWords_read {bound n : Nat} {target : Nat → Nat} {there : Memory} (hwf : Memory.wf bound there = true)
    (hbound : ∀ q < n, target q < bound) (hdiffer : ∀ q < n, ∀ r < n, target q = target r → q = r)
    (source : Nat → Nat) (here : Memory) {q : Nat} (hq : q < n) :
    Memory.read (copyWords n target source here there) (target q) = Memory.read here (source q) := by
  induction n with
  | zero => exact absurd hq (Nat.not_lt_zero q)
  | succ n ih =>
    have hbound' : ∀ r < n, target r < bound := fun r hr => hbound r (Nat.lt_succ_of_lt hr)
    rw [copyWords_succ]
    by_cases hlast : q = n
    · subst hlast
      exact Memory.read_write_self (copyWords_wf hwf hbound' source here) _ _
    · have hq' : q < n := by omega
      rw [Memory.read_write_other _ _ fun e => hlast (hdiffer q hq n (Nat.lt_succ_self n) e)]
      exact ih hbound' (fun q hq r hr => hdiffer q (Nat.lt_succ_of_lt hq) r (Nat.lt_succ_of_lt hr)) hq'

/-- A word outside the target block is as it was. -/
theorem copyWords_read_of_ne {n x : Nat} {target : Nat → Nat} (h : ∀ q < n, x ≠ target q) (source : Nat → Nat)
    (here there : Memory) : Memory.read (copyWords n target source here there) x = Memory.read there x :=
  read_foldl_write_of_ne (fun q hq => h q (List.mem_range.1 hq)) _ there

/-! ### The transfers of a request -/

/-- Word `q` of the block at `base` in memory; addresses wrap (R61). -/
def blockAddress (base : Word) (q : Nat) : Nat := (base + BitVec.ofNat 16 q).toNat

/-- Word `q` of the sectors from `sector` on, as a key of the medium. -/
def blockKey (p : Params) (sector q : Nat) : Nat := sector * p.diskSectorWords + q

/-- The block of a job of a request is its part of the whole block. -/
theorem blockAddress_add (base : Word) (m q : Nat) :
    blockAddress (base + BitVec.ofNat 16 m) q = blockAddress base (m + q) := by
  rw [blockAddress, blockAddress, BitVec.add_assoc, ← BitVec.ofNat_add]

theorem blockKey_add (p : Params) (sector n q : Nat) :
    blockKey p (sector + n) q = blockKey p sector (n * p.diskSectorWords + q) := by
  rw [blockKey, blockKey, Nat.add_mul, Nat.add_assoc]

/-- The jobs of a read request copy its sectors to its block of memory (R312). -/
theorem transferAll_read (p : Params) (sector count : Nat) (address : Word) (md mem : Memory) :
    transferAll p (requestJobs p .read sector count address) (some md) mem =
      (some md, copyWords (count * p.diskSectorWords) (blockAddress address) (blockKey p sector) md mem) := by
  induction count with
  | zero => rw [Nat.zero_mul]; rfl
  | succ count ih =>
    rw [requestJobs_succ, transferAll_append, ih, Nat.succ_mul, copyWords_add]
    simp only [← blockAddress_add, ← blockKey_add]
    rfl

/-- The jobs of a write request copy its block of memory to its sectors (R312). -/
theorem transferAll_write (p : Params) (sector count : Nat) (address : Word) (md mem : Memory) :
    transferAll p (requestJobs p .write sector count address) (some md) mem =
      (some (copyWords (count * p.diskSectorWords) (blockKey p sector) (blockAddress address) mem md), mem) := by
  induction count with
  | zero => rw [Nat.zero_mul]; rfl
  | succ count ih =>
    rw [requestJobs_succ, transferAll_append, ih, Nat.succ_mul, copyWords_add]
    simp only [← blockAddress_add, ← blockKey_add]
    rfl

/-- The words of a block no larger than memory have different addresses. -/
theorem blockAddress_injective {base : Word} {n : Nat} (hn : n ≤ 65536) :
    ∀ q < n, ∀ r < n, blockAddress base q = blockAddress base r → q = r := by
  intro q hq r hr h
  have hoffset : BitVec.ofNat 16 q = BitVec.ofNat 16 r := (BitVec.add_right_inj base).1 (BitVec.eq_of_toNat_eq h)
  have := congrArg BitVec.toNat hoffset
  simp only [BitVec.toNat_ofNat] at this
  omega

/-- Word `k` of sector `n` of a request is one of its words. -/
theorem sectorWord_lt {n count k words : Nat} (hn : n < count) (hk : k < words) : n * words + k < count * words :=
  calc n * words + k < (n + 1) * words := by rw [Nat.succ_mul]; omega
    _ ≤ count * words := Nat.mul_le_mul_right _ hn

/-- The words of a request within the drive are words of the drive. -/
theorem blockKey_lt {p : Params} {sector count : Nat} (hfits : sector + count ≤ p.diskSectors) :
    ∀ q < count * p.diskSectorWords, blockKey p sector q < p.diskSectors * p.diskSectorWords := fun q hq =>
  calc sector * p.diskSectorWords + q < (sector + count) * p.diskSectorWords := by rw [Nat.add_mul]; omega
    _ ≤ p.diskSectors * p.diskSectorWords := Nat.mul_le_mul_right _ hfits

/-- A word of another sector is none of a request's. -/
theorem ne_blockKey {p : Params} {sector count x : Nat}
    (hx : x < sector * p.diskSectorWords ∨ (sector + count) * p.diskSectorWords ≤ x) :
    ∀ q < count * p.diskSectorWords, x ≠ blockKey p sector q := by
  intro q hq
  rw [Nat.add_mul] at hx
  simp only [blockKey]
  omega

theorem blockAddress_lt (base : Word) (q : Nat) : blockAddress base q < memWords :=
  (base + BitVec.ofNat 16 q).isLt

/-- A word outside a block of memory is none of its words (R61). -/
theorem ne_blockAddress {base x : Word} {n : Nat} (hx : n ≤ (x - base).toNat) :
    ∀ q < n, x.toNat ≠ blockAddress base q := by
  intro q hq h
  have hmem : x ∈ wordsFrom base n := BitVec.eq_of_toNat_eq h ▸ add_ofNat_mem_wordsFrom base hq
  exact Nat.not_lt.2 hx hmem

/-! ### The obligation -/

section
variable {i : Nat} {d : DiskState} {md : Memory} {s : State} (hb : s.bodyAt i = some (.disk d))
  (hmedia : d.media = some md) (hjobs : d.jobs = []) (hflag : flagNonBlocking s.params d = false)
  (hfits : s.gpr.b.toNat + s.gpr.c.toNat ≤ s.params.diskSectors)
include hb hmedia hjobs hflag hfits

/-- A blocking request that is taken: A is ERROR_NONE, all its jobs are done within the call and their cost is consumed; the disk has the
medium they leave, its head at the last sector, and no job (R312, R313, R314). -/
theorem diskRequest_of_blocking (dir : JobDirection) :
    diskRequest i dir d s =
      let jobs := requestJobs s.params dir s.gpr.b.toNat s.gpr.c.toNat s.gpr.x
      (withJobsDone (s.setGpr .a s.params.diskCodes.errorNone) i jobs (some md) { d with
        media := (transferAll s.params jobs (some md) s.mem).1
        head := requestHead d.head s.gpr.b.toNat s.gpr.c.toNat }).addCycles
        (requestCost s.params d.head s.gpr.b.toNat s.gpr.c.toNat) := by
  rw [diskRequest_of_taken i dir (by simp [hmedia]) hjobs hfits]
  simp only [hflag, Bool.false_eq_true, if_false]
  have hdone := runBlocking_eq i
    (d := { d with jobs := requestJobs s.params dir s.gpr.b.toNat s.gpr.c.toNat s.gpr.x })
    (bodyAt_setBody_self (s.setGpr .a s.params.diskCodes.errorNone) hb) rfl
  refine hdone.trans ?_
  rw [← headAfter_requestJobs s.params dir d.head _ _ s.gpr.x, ← jobsCost_requestJobs s.params dir d.head _ _ s.gpr.x]
  obtain ⟨media, flags, intType, message, head, jobs, acc⟩ := d
  subst hjobs hmedia
  exact congrArg (State.addCycles · _)
    (withJobsDone_append (s.setGpr .a s.params.diskCodes.errorNone) i [] _ (some md) _ _)

/-- A blocking read copies the sectors to the block of memory, and leaves the medium (R312, R314). -/
theorem diskRequest_read :
    diskRequest i .read d s =
      ({ s.setGpr .a s.params.diskCodes.errorNone with
          mem := copyWords (s.gpr.c.toNat * s.params.diskSectorWords) (blockAddress s.gpr.x)
            (blockKey s.params s.gpr.b.toNat) md s.mem }.setBody i
        (.disk { d with head := requestHead d.head s.gpr.b.toNat s.gpr.c.toNat })).addCycles
        (requestCost s.params d.head s.gpr.b.toNat s.gpr.c.toNat) := by
  rw [diskRequest_of_blocking hb hmedia hjobs hflag hfits]
  simp only [withJobsDone, State.setGpr_params, State.setGpr_mem, transferAll_read]
  rw [← hmedia]

/-- A blocking write copies the block of memory to the sectors, and leaves memory (R312, R314). -/
theorem diskRequest_write :
    diskRequest i .write d s =
      ((s.setGpr .a s.params.diskCodes.errorNone).setBody i (.disk { d with
        media := some (copyWords (s.gpr.c.toNat * s.params.diskSectorWords) (blockKey s.params s.gpr.b.toNat)
          (blockAddress s.gpr.x) s.mem md)
        head := requestHead d.head s.gpr.b.toNat s.gpr.c.toNat })).addCycles
        (requestCost s.params d.head s.gpr.b.toNat s.gpr.c.toNat) := by
  rw [diskRequest_of_blocking hb hmedia hjobs hflag hfits]
  simp only [withJobsDone, State.setGpr_params, State.setGpr_mem, transferAll_write]
  rfl

end

/-- Settles O57: each request is one copy of a block to another, whose words are read back at their places. -/
theorem diskBlockingTransfers : Obligations.DiskBlockingTransfers := by
  intro i d md s first count words hb hmedia hjobs hflag hfits hblock hmem hmd head cost
  have hread := diskRequest_read hb hmedia hjobs hflag hfits
  have hwrite := diskRequest_write hb hmedia hjobs hflag hfits
  refine ⟨fun dir => ?registers, ⟨copyWords (count * words) (blockKey s.params first) (blockAddress s.gpr.x) s.mem md,
    ?written, ?memory, fun n hn k hk => ?sectors, fun x hx => ?otherSectors⟩, ?kept, fun n hn k hk => ?block,
    fun x hx => ?otherWords⟩
  case registers =>
    cases dir with
    | read => rw [hread]; exact ⟨rfl, rfl, rfl, rfl⟩
    | write => rw [hwrite]; exact ⟨rfl, rfl, rfl, rfl⟩
  case written =>
    rw [hwrite]
    exact bodyAt_setBody_self (s.setGpr .a s.params.diskCodes.errorNone) hb
  case memory =>
    rw [hwrite]
    rfl
  case sectors =>
    have hcopied := copyWords_read hmd (blockKey_lt hfits) (fun q _ r _ => Nat.add_left_cancel) (blockAddress s.gpr.x)
      s.mem (sectorWord_lt hn hk)
    rwa [← blockKey_add] at hcopied
  case otherSectors => exact copyWords_read_of_ne (ne_blockKey hx) _ _ _
  case kept =>
    rw [hread]
    exact bodyAt_setBody_self (s.setGpr .a s.params.diskCodes.errorNone) hb
  case block =>
    have hcopied := copyWords_read hmem (fun q _ => blockAddress_lt s.gpr.x q) (blockAddress_injective hblock)
      (blockKey s.params first) md (sectorWord_lt hn hk)
    rw [← blockKey_add] at hcopied
    rwa [hread]
  case otherWords =>
    rw [hread]
    exact copyWords_read_of_ne (ne_blockAddress hx) _ _ _

end Sys2Proof.Machine
end

section
/-! ## The cost of a step

Every part of a step leaves the cost counted so far or adds to it, and every instruction adds its base cost: a step that ends in a next
state has cost at least a cycle, if every base cost is at least one (R350, R351). -/

namespace Sys2Proof.Machine

open Sys2Proof.Claims

/-- If this answer is a next state, the step has cost at least `n` cycles there. -/
def CostsAtLeast (n : Nat) (r : Result) : Prop := Ends (fun t => n ≤ t.cyc) (fun _ => True) r

theorem CostsAtLeast.andThen {n : Nat} {r : Result} {f : State → Result} (h : CostsAtLeast n r)
    (hf : ∀ t, n ≤ t.cyc → CostsAtLeast n (f t)) : CostsAtLeast n (andThen r f) :=
  Ends.andThen h hf

/-! ### The controller -/

/-- An interrupt entry may cost cycles, and nothing else a dispatch does (R270, D7). -/
theorem le_dispatch_cyc (s : State) : s.cyc ≤ (dispatch s).cyc := by
  rcases dispatch_cases s with ⟨-, e⟩ | ⟨-, e⟩ | ⟨_, _, -, -, -, e⟩ | ⟨_, _, -, -, -, e⟩ <;> rw [e]
  · rfl
  · rw [enterInterrupt_eq]
    exact Nat.le_add_right _ _

theorem le_returnFromInterrupt_cyc (s : State) : s.cyc ≤ (returnFromInterrupt s).cyc := by
  rw [returnFromInterrupt_eq]
  exact le_dispatch_cyc (returned s)

/-! ### What a command consumes -/

@[simp] theorem clockReceive_cyc (i : Nat) (c : ClockState) (m : Word) (s : State) :
    (clockReceive i c m s).cyc = s.cyc := by
  unfold clockReceive
  split <;> rfl

@[simp] theorem keyboardReceive_cyc (i : Nat) (k : KeyboardState) (m : Word) (s : State) :
    (keyboardReceive i k m s).cyc = s.cyc := by
  unfold keyboardReceive
  split
  case h_2 => split <;> rfl
  all_goals rfl

/-- The two copies to memory consume cycles, and no other command of the Display does (R321). -/
theorem le_displayReceive_cyc (i : Nat) (d : DisplayState) (m : Word) (s : State) :
    s.cyc ≤ (displayReceive i d m s).cyc := by
  have hstored : ∀ base ws n, s.cyc ≤ ((storeWords base ws s).addCycles n).cyc := fun base ws n => by
    rw [State.addCycles_cyc, storeWords_cyc]
    exact Nat.le_add_right _ _
  unfold displayReceive
  split
  case h_5 => exact hstored _ _ _
  case h_6 => exact hstored _ _ _
  all_goals exact Nat.le_refl _

/-- Each job of a blocking request consumes its cost (R314). -/
theorem le_runBlocking_cyc (i : Nat) (jobs : List Job) (d : DiskState) (s : State) :
    s.cyc ≤ (runBlocking i jobs d s).cyc := by
  induction jobs generalizing d s with
  | nil => exact Nat.le_refl _
  | cons j rest ih =>
    rw [runBlocking_cons]
    refine Nat.le_trans ?_ (ih _ _)
    exact Nat.le_add_right s.cyc (jobCost s.params d.head j)

theorem le_diskRequest_cyc (i : Nat) (dir : JobDirection) (d : DiskState) (s : State) :
    s.cyc ≤ (diskRequest i dir d s).cyc := by
  unfold diskRequest
  simp only
  split_ifs
  case neg => exact le_runBlocking_cyc i _ _ ((s.setGpr .a s.params.diskCodes.errorNone).setBody i _)
  all_goals exact Nat.le_refl _

/-- The two requests are the only commands of the Disk that may consume cycles (R311). -/
theorem le_diskReceive_cyc (i : Nat) (d : DiskState) (m : Word) (s : State) : s.cyc ≤ (diskReceive i d m s).cyc := by
  unfold diskReceive
  simp only
  split_ifs
  any_goals exact le_diskRequest_cyc i _ d s
  all_goals exact Nat.le_refl _

section
variable {n : Nat} {s : State} (h : n ≤ s.cyc)
include h

theorem trigger_costsAtLeast (m : Word) (bypass : Bool) : CostsAtLeast n (trigger m bypass s) := by
  by_cases hfire : s.fire = none
  · rcases trigger_cases m bypass s hfire with ⟨-, e⟩ | ⟨-, -, e⟩ | ⟨-, -, e⟩ <;> rw [e]
    · exact h.trans (le_dispatch_cyc ((s.setIaq false).setQueue (m :: s.queue)))
    · exact h.trans (le_dispatch_cyc (s.setQueue (s.queue ++ [m])))
    · trivial
  · rw [trigger_of_fire hfire]
    exact h

theorem signalled_costsAtLeast (m : Word) : CostsAtLeast n (signalled m s) := by
  unfold signalled
  split
  · exact h
  · exact trigger_costsAtLeast h m false

/-! ### The bus -/

theorem clockTicks_costsAtLeast (i ticks : Nat) (c : ClockState) : CostsAtLeast n (clockTicks i ticks c s) := by
  induction ticks generalizing c s with
  | zero => exact h
  | succ ticks ih =>
    simp only [clockTicks]
    split
    · exact ih (s := s.setBody i _) h _
    · exact (trigger_costsAtLeast (s := s.setBody i _) h _ _).andThen fun t ht => ih ht _

theorem clockAdvance_costsAtLeast (i cycles : Nat) (c : ClockState) : CostsAtLeast n (clockAdvance i c cycles s) := by
  unfold clockAdvance
  split
  · exact h
  · exact clockTicks_costsAtLeast (s := s.setBody i _) h i _ _

theorem drainJobs_costsAtLeast (i : Nat) (jobs : List Job) (d : DiskState) : CostsAtLeast n (drainJobs i jobs d s) := by
  induction jobs generalizing d s with
  | nil => exact h
  | cons j rest ih =>
    rcases Nat.lt_or_ge d.acc (jobCost s.params d.head j) with hshort | hcovered
    · rw [drainJobs_short i j rest hshort]
      exact h
    · cases rest with
      | nil =>
        rw [drainJobs_last i j hcovered]
        exact signalled_costsAtLeast (s := { s with mem := (transfer s.params j d.media s.mem).2 }.setBody i _) h d.message
      | cons k more =>
        rw [drainJobs_more i j k more hcovered]
        exact ih (s := { s with mem := (transfer s.params j d.media s.mem).2 }.setBody i _) h _

theorem diskAdvance_costsAtLeast (i cycles : Nat) (d : DiskState) : CostsAtLeast n (diskAdvance i d cycles s) := by
  unfold diskAdvance
  split
  · exact h
  · exact drainJobs_costsAtLeast (s := s.setBody i _) h i _ _

theorem busAction_costsAtLeast (a : BusAction) : CostsAtLeast n (busAction a s) := by
  cases a with
  | setReg r v => cases r <;> exact h
  | setMem x v => exact h
  | trigger m => exact trigger_costsAtLeast h m false

theorem busActions_costsAtLeast (as : List BusAction) : CostsAtLeast n (busActions as s) := by
  induction as generalizing s with
  | nil => exact h
  | cons a as ih => exact (busAction_costsAtLeast h a).andThen fun _ ht => ih ht

theorem receiveActions_costsAtLeast (as : List ReceiveAction) : CostsAtLeast n (receiveActions as s) := by
  induction as generalizing s with
  | nil => exact h
  | cons a as ih =>
    refine CostsAtLeast.andThen ?_ fun _ ht => ih ht
    cases a with
    | act b => exact busAction_costsAtLeast h b
    | consume cycles => exact h.trans (Nat.le_add_right _ _)

theorem deviceReceive_costsAtLeast (i : Nat) : CostsAtLeast n (deviceReceive i s) := by
  unfold deviceReceive
  split
  · exact h
  · exact h.trans_eq (clockReceive_cyc i _ _ s).symm
  · exact h.trans_eq (keyboardReceive_cyc i _ _ s).symm
  · exact h.trans (le_diskReceive_cyc i _ _ s)
  · exact h.trans (le_displayReceive_cyc i _ _ s)
  · unfold otherReceive
    split
    · exact h
    · exact receiveActions_costsAtLeast (s := s.setBody i _) h _

theorem deviceClock_costsAtLeast (i cycles : Nat) : CostsAtLeast n (deviceClock i cycles s) := by
  unfold deviceClock
  split
  · exact h
  · exact clockAdvance_costsAtLeast h i cycles _
  · exact h
  · exact diskAdvance_costsAtLeast h i cycles _
  · exact h
  · unfold otherAdvance
    split
    · exact h
    · exact busActions_costsAtLeast (s := s.setBody i _) h _

theorem clockDevices_costsAtLeast (cycles : Nat) (is : List Nat) : CostsAtLeast n (clockDevices cycles is s) := by
  induction is generalizing s with
  | nil => exact h
  | cons i is ih => exact (deviceClock_costsAtLeast h i cycles).andThen fun _ ht => ih ht

theorem endStep_costsAtLeast : CostsAtLeast n (endStep s) :=
  (clockDevices_costsAtLeast h _ _).andThen fun t ht => ht.trans (le_dispatch_cyc t)

/-! ### The instructions -/

theorem continueIf_costsAtLeast (test : Bool) : CostsAtLeast n (continueIf test s) := by
  unfold continueIf
  split
  · exact h
  · unfold skip
    rcases skipChain_cases memWords s with ⟨passes, p, e⟩ | ⟨_, _, e, -⟩ | e <;> rw [e]
    · exact h.trans (Nat.le_add_right s.cyc passes)
    · trivial
    · trivial

end

/-- The basic frame counts the instruction's base cost (R107). -/
theorem basicFrame_cyc_pos {cost : Nat} (hcost : 0 < cost) (b a : Operand) (s : State) :
    1 ≤ (basicFrame cost b a s).st.cyc := by
  rw [basicFrame_st, State.addCycles_cyc]
  omega

/-- The special frame counts the instruction's base cost (R108). -/
theorem specialFrame_cyc_pos {cost : Nat} (hcost : 0 < cost) (a : Operand) (s : State) :
    1 ≤ (specialFrame cost a s).st.cyc := by
  rw [specialFrame_st, State.addCycles_cyc]
  omega

@[simp] theorem stepIJ_cyc (d : Word) (s : State) : (stepIJ d s).cyc = s.cyc := rfl

/-- The frame of an instruction counts its base cost, and nothing after it takes cycles back. -/
theorem exec_costsAtLeast {s : State} (hcost : costsPositive s.params.cost) (i : Instr) : CostsAtLeast 1 (exec i s) := by
  cases i with
  | set b a | mod b a | mdi b a | and b a | bor b a | xor b a =>
    exact (basicFrame_cyc_pos (hcost _ (by simp)) b a s).trans_eq (writeRef_cyc _ _ _).symm
  | sti b a | std b a =>
    exact (basicFrame_cyc_pos (hcost _ (by simp)) b a s).trans_eq ((writeRef_cyc _ _ _).symm.trans (stepIJ_cyc _ _).symm)
  | add b a | sub b a | mul b a | mli b a | div b a | dvi b a | shr b a | asr b a | shl b a | adx b a | sbx b a =>
    exact (basicFrame_cyc_pos (hcost _ (by simp)) b a s).trans_eq (writeValEx_cyc _ _ _).symm
  | ifb b a | ifc b a | ife b a | ifn b a | ifg b a | ifa b a | ifl b a | ifu b a =>
    exact continueIf_costsAtLeast (basicFrame_cyc_pos (hcost _ (by simp)) b a s) _
  | jsr a => exact specialFrame_cyc_pos (hcost s.params.cost.jsr (by simp)) a s
  | int a => exact trigger_costsAtLeast (specialFrame_cyc_pos (hcost _ (by simp)) a s) _ true
  | iag a | hwn a => exact (specialFrame_cyc_pos (hcost _ (by simp)) a s).trans_eq (writeRef_cyc _ _ _).symm
  | ias a => exact specialFrame_cyc_pos (hcost s.params.cost.ias (by simp)) a s
  | rfi a => exact (specialFrame_cyc_pos (hcost _ (by simp)) a s).trans (le_returnFromInterrupt_cyc _)
  | iaq a =>
    have hframe := specialFrame_cyc_pos (hcost s.params.cost.iaq (by simp)) a s
    simp only [exec, execIaq]
    split
    · exact hframe
    · exact hframe.trans (le_dispatch_cyc ((specialFrame s.params.cost.iaq a s).st.setIaq false))
  | hwq a =>
    have hframe := specialFrame_cyc_pos (hcost s.params.cost.hwq (by simp)) a s
    simp only [exec, execHwq]
    split
    · trivial
    · exact hframe
  | hwi a =>
    have hframe := specialFrame_cyc_pos (hcost s.params.cost.hwi (by simp)) a s
    simp only [exec, execHwi]
    split
    · trivial
    · exact deviceReceive_costsAtLeast hframe _

/-! ### The step -/

/-- A step that ends in a next state cost at least a cycle (R351). -/
theorem step_cyc_pos {s t : State} (hcost : costsPositive s.params.cost) (h : step s = .next t) : 0 < t.cyc := by
  obtain ⟨i, u, -, hexec, hend⟩ := step_eq_next h
  have hu : 1 ≤ u.cyc := (exec_costsAtLeast (s := (fetchWord s).2) hcost i).next hexec
  exact (endStep_costsAtLeast hu).next hend

end Sys2Proof.Machine
end

section
/-! ## A run

The budget falls by at least a cycle at each step, so one pass more than the budget is enough: the last only finds the budget used
up. The budget is an integer in the induction, since the last step may overshoot it (R336, D43). -/

namespace Sys2Proof.Machine

open Sys2Proof.Claims

theorem FaultRecorded.outcomes {r : Result} (h : FaultRecorded r) :
    (∃ t, r = .next t) ∨ (∃ k post, r = .fault (.fire k post) ∧ post.fire = some k) ∨ r = .fault .skipChainHangs := by
  cases r with
  | next t => exact .inl ⟨t, rfl⟩
  | fault e =>
    cases e with
    | fire k post => exact .inr (.inl ⟨k, post, rfl, h⟩)
    | skipChainHangs => exact .inr (.inr rfl)
  | refused e => exact h.elim

/-! ### One pass of the loop -/

section
variable (fuel : Nat) {budget : Int} {s : State}

theorem run_of_stop (h : ¬(0 < budget ∧ s.fire = none)) : run (fuel + 1) budget s = .ended budget s := if_neg h

variable (hgo : 0 < budget ∧ s.fire = none)
include hgo

theorem run_of_next {u : State} (h : step s = .next u) : run (fuel + 1) budget s = run fuel (budget - u.cyc) u := by
  simp only [run, if_pos hgo, h]

theorem run_of_fire {k : Fire} {post : State} (h : step s = .fault (.fire k post)) :
    run (fuel + 1) budget s = .ended budget post := by
  simp only [run, if_pos hgo, h]

theorem run_of_hang (h : step s = .fault .skipChainHangs) :
    run (fuel + 1) budget s = .stuck (.fault .skipChainHangs) := by
  simp only [run, if_pos hgo, h]

end

/-! ### The steps of a run -/

/-- Each of the first `n` steps from `s` begins with budget left and the machine not on fire. -/
def BeginsInBudget (budget : Int) (n : Nat) (s : State) : Prop :=
  ∀ m d u, m < n → StepsTo m d s u → (d : Int) < budget ∧ u.fire = none

theorem beginsInBudget_zero (budget : Int) (s : State) : BeginsInBudget budget 0 s :=
  fun _ _ _ hm => absurd hm (Nat.not_lt_zero _)

theorem BeginsInBudget.succ {budget : Int} {n : Nat} {s u : State} (hgo : 0 < budget ∧ s.fire = none)
    (hstep : step s = .next u) (h : BeginsInBudget (budget - u.cyc) n u) : BeginsInBudget budget (n + 1) s := by
  intro m d v hm hsteps
  cases m with
  | zero =>
    obtain ⟨rfl, rfl⟩ := hsteps
    exact hgo
  | succ m =>
    obtain ⟨w, e, hw, rfl, hrest⟩ := hsteps
    cases hstep.symm.trans hw
    obtain ⟨hleft, hfire⟩ := h m e v (Nat.lt_of_succ_lt_succ hm) hrest
    exact ⟨by omega, hfire⟩

/-- The three ends of a run, at the state `t` its last step left and with `left` of the budget: the loop's test fails; or the next step
fires; or it never returns (R336, log 41, I11). -/
def RunEnds (r : RunResult) (left : Int) (t : State) : Prop :=
  (r = .ended left t ∧ (left ≤ 0 ∨ t.fire ≠ none)) ∨
  (0 < left ∧ t.fire = none ∧ ∃ k post, step t = .fault (.fire k post) ∧ post.fire = some k ∧ r = .ended left post) ∨
  (0 < left ∧ t.fire = none ∧ step t = .fault .skipChainHangs ∧ r = .stuck (.fault .skipChainHangs))

/-- A run from `s` ends so, after steps begun in its budget and no more of them than the budget. -/
def EndsInBudget (r : RunResult) (budget : Int) (s : State) : Prop :=
  ∃ (n c : Nat) (t : State), n ≤ budget.toNat ∧ StepsTo n c s t ∧ BeginsInBudget budget n s ∧ RunEnds r (budget - c) t

theorem RunEnds.endsInBudget {r : RunResult} {budget : Int} {s : State} (h : RunEnds r budget s) :
    EndsInBudget r budget s :=
  ⟨0, 0, s, Nat.zero_le _, ⟨rfl, rfl⟩, beginsInBudget_zero budget s, by rwa [Int.natCast_zero, Int.sub_zero]⟩

/-- A step of at least a cycle, and then a run with the budget it leaves. -/
theorem EndsInBudget.succ {r : RunResult} {budget : Int} {s u : State} (hgo : 0 < budget ∧ s.fire = none)
    (hstep : step s = .next u) (hpos : 0 < u.cyc) (h : EndsInBudget r (budget - u.cyc) u) : EndsInBudget r budget s := by
  obtain ⟨n, c, t, hn, hsteps, hbegin, hend⟩ := h
  refine ⟨n + 1, u.cyc + c, t, by omega, ⟨u, c, hstep, rfl, hsteps⟩, hbegin.succ hgo hstep, ?_⟩
  rwa [Int.natCast_add, ← Int.sub_sub]

/-- More passes than the budget are enough for a run to end. -/
theorem run_endsInBudget {fuel : Nat} {budget : Int} {s : State} (hcost : costsPositive s.params.cost)
    (hfuel : budget.toNat < fuel) : EndsInBudget (run fuel budget s) budget s := by
  induction fuel generalizing budget s with
  | zero => exact absurd hfuel (Nat.not_lt_zero _)
  | succ fuel ih =>
    by_cases hgo : 0 < budget ∧ s.fire = none
    · rcases (step_faultRecorded s).outcomes with ⟨u, hstep⟩ | ⟨k, post, hstep, hpost⟩ | hstep
      · have hpos := step_cyc_pos hcost hstep
        obtain ⟨-, hparams, -, -⟩ := stepKeepsHostSide s u hstep
        rw [run_of_next fuel hgo hstep]
        exact (ih (hparams ▸ hcost) (by omega)).succ hgo hstep hpos
      · exact RunEnds.endsInBudget (.inr (.inl ⟨hgo.1, hgo.2, k, post, hstep, hpost, run_of_fire fuel hgo hstep⟩))
      · exact RunEnds.endsInBudget (.inr (.inr ⟨hgo.1, hgo.2, hstep, run_of_hang fuel hgo hstep⟩))
    · refine RunEnds.endsInBudget (.inl ⟨run_of_stop fuel hgo, ?_⟩)
      rwa [not_and_or, Int.not_lt] at hgo

/-- Settles O51: a run from a budget that is no deficit. -/
theorem runEndsWithinBudget : Obligations.RunEndsWithinBudget := by
  intro s budget hcost
  obtain ⟨n, c, t, hn, hsteps, hbegin, hend⟩ :=
    run_endsInBudget (fuel := budget + 1) (budget := budget) hcost (Nat.lt_succ_self budget)
  refine ⟨n, c, t, hn, hsteps, fun m d u hm hu => ?_, ?_⟩
  · obtain ⟨hleft, hfire⟩ := hbegin m d u hm hu
    exact ⟨Int.ofNat_lt.1 hleft, hfire⟩
  · simpa only [RunEnds, sub_nonpos, Int.sub_pos, Int.ofNat_le, Int.ofNat_lt] using hend

end Sys2Proof.Machine
end

section
/-! ## Decoder and encoder: the round trip both ways, and the invalid words -/

namespace Sys2Proof.Machine

open Sys2Proof.Claims

/-! ### Decode after encode -/

/-- Every instruction is one of a row of the opcode tables, and its word is the word of that row (R81, R82, R99, R100). -/
theorem row_of_instr (v : OpcodeValues) (i : Instr) :
    (∃ o mk b a, (o, mk) ∈ basicTable v ∧ i = mk b a ∧ encode v i = encodeBasic o b a ∧ i.wf = b.fitsB) ∨
    (∃ op mk a, (op, mk) ∈ specialTable v ∧ i = mk a ∧ encode v i = encodeSpecial op a) := by
  cases i with
  | set b a | add b a | sub b a | mul b a | mli b a | div b a | dvi b a | mod b a | mdi b a | and b a | bor b a
  | xor b a | shr b a | asr b a | shl b a =>
    exact .inl ⟨_, _, b, a, by simp [basicTable, arithmeticTable], rfl, rfl, rfl⟩
  | ifb b a | ifc b a | ife b a | ifn b a | ifg b a | ifa b a | ifl b a | ifu b a =>
    exact .inl ⟨_, _, b, a, by simp [basicTable, conditionalTable], rfl, rfl, rfl⟩
  | adx b a | sbx b a | sti b a | std b a =>
    exact .inl ⟨_, _, b, a, by simp [basicTable, carryTable], rfl, rfl, rfl⟩
  | jsr a | int a | iag a | ias a | rfi a | iaq a | hwn a | hwq a | hwi a =>
    exact .inr ⟨_, _, a, by simp [specialTable], rfl, rfl⟩

/-- Settles O2: an instruction's word is that of its row, and decode and encode agree on each row. -/
theorem decodeOfEncode : Obligations.DecodeOfEncode := by
  intro v i hv hi
  rcases row_of_instr v i with ⟨o, mk, b, a, hrow, he, hword, hwf⟩ | ⟨op, mk, a, hrow, he, hword⟩
  · rw [hword, he]
    exact decode_encodeBasic hv hrow (hwf ▸ hi) a
  · rw [hword, he]
    exact decode_encodeSpecial hv hrow a

/-- A word decodes to a well-formed instruction whose word, by default, it is. -/
theorem decode_default {w : Word} {i : Instr} (hword : encode defaultOpcodes i = w) (hwf : i.wf = true) :
    decode defaultOpcodes w = .ok i :=
  hword ▸ decodeOfEncode defaultOpcodes i defaultOpcodes_wf hwf

/-- Settles O1: each of the twelve is the word of its instruction. -/
theorem decodedExampleWords : Obligations.DecodedExampleWords :=
  ⟨defaultOpcodes_wf, decode_default rfl rfl, decode_default rfl rfl, decode_default rfl rfl, decode_default rfl rfl,
    decode_default rfl rfl, decode_default rfl rfl, decode_default rfl rfl, decode_default rfl rfl,
    decode_default rfl rfl, decode_default rfl rfl, decode_default rfl rfl, decode_default rfl rfl⟩

/-! ### Encode after decode -/

/-- A word with opcode field 0 decodes as a row of the special map says, and no other way (R100). -/
theorem decode_of_opField_zero {v : OpcodeValues} {w : Word} (h0 : opField w = 0) :
    decode v w = decodeSpecial v (bField w) (decodeOperand (aField w)) := if_pos h0

/-- A word with another opcode field decodes as a row of the basic map says (R99). -/
theorem decode_of_opField_ne_zero {v : OpcodeValues} {w : Word} (h0 : opField w ≠ 0) :
    decode v w = decodeBasic v (opField w) (decodeOperand (0b0#1 ++ bField w)) (decodeOperand (aField w)) := if_neg h0

theorem decodeSpecial_eq_ok {v : OpcodeValues} {op : BitVec 5} {a : Operand} {i : Instr} :
    decodeSpecial v op a = .ok i ↔ ∃ mk, findRow op (specialTable v) = some mk ∧ mk a = i := by
  cases h : findRow op (specialTable v) <;> simp [decodeSpecial, h]

theorem decodeBasic_eq_ok {v : OpcodeValues} {o : BitVec 5} {b a : Operand} {i : Instr} :
    decodeBasic v o b a = .ok i ↔ ∃ mk, findRow o (basicTable v) = some mk ∧ mk b a = i := by
  cases h : findRow o (basicTable v) <;> simp [decodeBasic, h]

/-- The instructions of a row of the basic map are encoded with its opcode, and are well-formed where their b field is (R81, R99). -/
theorem encode_basic_row {v : OpcodeValues} {o : BitVec 5} {mk : Operand → Operand → Instr} (h : (o, mk) ∈ basicTable v)
    (b a : Operand) : encode v (mk b a) = encodeBasic o b a ∧ (mk b a).wf = b.fitsB := by
  have hall : ∀ row ∈ basicTable v,
      encode v (row.2 b a) = encodeBasic row.1 b a ∧ (row.2 b a).wf = b.fitsB := by
    simp [basicTable, conditionalTable, arithmeticTable, carryTable, encode, Instr.wf]
  exact hall _ h

/-- The instructions of a row of the special map are encoded with its opcode, and are all well-formed (R82, R100). -/
theorem encode_special_row {v : OpcodeValues} {op : BitVec 5} {mk : Operand → Instr} (h : (op, mk) ∈ specialTable v)
    (a : Operand) : encode v (mk a) = encodeSpecial op a ∧ (mk a).wf = true := by
  have hall : ∀ row ∈ specialTable v, encode v (row.2 a) = encodeSpecial row.1 a ∧ (row.2 a).wf = true := by
    simp [specialTable, encode, Instr.wf]
  exact hall _ h

/-- Settles O3: a word is its three fields, and each field is the code of what it was decoded to. -/
theorem encodeOfDecode : Obligations.EncodeOfDecode := by
  intro v w i h
  by_cases h0 : opField w = 0
  · rw [decode_of_opField_zero h0] at h
    obtain ⟨mk, hrow, rfl⟩ := decodeSpecial_eq_ok.1 h
    obtain ⟨hword, hwf⟩ := encode_special_row (mem_of_findRow hrow) (decodeOperand (aField w))
    refine ⟨hwf, ?_⟩
    calc encode v (mk (decodeOperand (aField w)))
        = aField w ++ bField w ++ 0b00000#5 := by rw [hword, encodeSpecial_decodeOperand]
      _ = aField w ++ bField w ++ opField w := by rw [h0]; rfl
      _ = w := word_eq_fields w
  · rw [decode_of_opField_ne_zero h0] at h
    obtain ⟨mk, hrow, rfl⟩ := decodeBasic_eq_ok.1 h
    obtain ⟨hword, hwf⟩ :=
      encode_basic_row (mem_of_findRow hrow) (decodeOperand (0b0#1 ++ bField w)) (decodeOperand (aField w))
    refine ⟨hwf.trans (fitsB_decodeOperand _), ?_⟩
    rw [hword, encodeBasic_decodeOperand, word_eq_fields]

/-! ### The invalid words -/

theorem isInvalid_iff {v : OpcodeValues} {w : Word} : isInvalid v w = true ↔ ∃ e, decode v w = .error e := by
  cases h : decode v w <;> simp [isInvalid, h]

theorem decodeSpecial_eq_error {v : OpcodeValues} {op : BitVec 5} {a : Operand} :
    (∃ e, decodeSpecial v op a = .error e) ↔ findRow op (specialTable v) = none := by
  cases h : findRow op (specialTable v) <;> simp [decodeSpecial, h]

theorem decodeBasic_eq_error {v : OpcodeValues} {o : BitVec 5} {b a : Operand} :
    (∃ e, decodeBasic v o b a = .error e) ↔ findRow o (basicTable v) = none := by
  cases h : findRow o (basicTable v) <;> simp [decodeBasic, h]

/-- The keys of the special map are the special opcode values. -/
theorem specialTable_keys (v : OpcodeValues) : (specialTable v).map Prod.fst = specialValues v := rfl

/-- The keys of the basic map, where the conditionals come first, are the basic opcode values. -/
theorem mem_basicTable_keys {v : OpcodeValues} {o : BitVec 5} :
    o ∈ (basicTable v).map Prod.fst ↔ o ∈ basicValues v := by
  have horder : basicValues v =
      (arithmeticTable v).map Prod.fst ++ ((conditionalTable v).map Prod.fst ++ (carryTable v).map Prod.fst) := rfl
  rw [horder, basicTable]
  simp only [List.map_append, List.mem_append]
  exact or_left_comm

/-- A word is invalid when no instruction has its opcode value, the special one where the opcode is 0 (R101). -/
theorem isInvalid_iff_values (v : OpcodeValues) (w : Word) :
    isInvalid v w = true ↔ if opField w = 0 then bField w ∉ specialValues v else opField w ∉ basicValues v := by
  rw [isInvalid_iff]
  split
  · next h0 => rw [decode_of_opField_zero h0, decodeSpecial_eq_error, findRow_eq_none, specialTable_keys]
  · next h0 =>
    rw [decode_of_opField_ne_zero h0, decodeBasic_eq_error, findRow_eq_none, mem_basicTable_keys]

/-- The special opcodes of no instruction by default (R100). -/
theorem notMem_specialValues_default : ∀ op : BitVec 5, op ∉ specialValues defaultOpcodes ↔
    (op.toNat = 0 ∨ (0x02 ≤ op.toNat ∧ op.toNat ≤ 0x07) ∨ (0x0D ≤ op.toNat ∧ op.toNat ≤ 0x0F) ∨ 0x13 ≤ op.toNat) := by
  decide

/-- The opcodes of no basic instruction by default, 0 apart (R99). -/
theorem notMem_basicValues_default : ∀ o : BitVec 5, o ≠ 0 →
    (o ∉ basicValues defaultOpcodes ↔ o.toNat ∈ [0x18, 0x19, 0x1C, 0x1D]) := by
  decide

/-- By default the invalid words are those R101 lists. -/
theorem isInvalid_default (w : Word) : isInvalid defaultOpcodes w = true ↔ listedInvalid w := by
  rw [isInvalid_iff_values, listedInvalid]
  by_cases h0 : opField w = 0
  · rw [if_pos h0, notMem_specialValues_default, h0]
    simp
  · have hne : (opField w).toNat ≠ 0 := fun h => h0 (BitVec.eq_of_toNat_eq h)
    rw [if_neg h0, notMem_basicValues_default _ h0]
    simp [hne]

/-- A step off fire whose word does not decode fires with PC past the word and no operand resolved (R101, D3). -/
theorem step_of_decode_error {s : State} {e : DecodeError} (hfire : s.fire = none)
    (hdecode : decode s.params.opcodes (s.readMem s.pc) = .error e) :
    step s = raise (.invalidOpcode (s.readMem s.pc) s.pc) { s with pc := s.pc + 1, cyc := 0 } := by
  have hword : decode s.params.opcodes (fetchWord s).1 = .error e := hdecode
  simp only [step, beginStep, hfire, hword]
  rfl

/-- Settles O4: the words by the keys of the opcode tables, and the fault by the beginning of a step. -/
theorem invalidEncodingFiresAtDecode : Obligations.InvalidEncodingFiresAtDecode := by
  refine ⟨isInvalid_default, isInvalid_iff_values, fun s hfire hinvalid => ?_⟩
  obtain ⟨e, hdecode⟩ := isInvalid_iff.1 hinvalid
  exact step_of_decode_error hfire hdecode

end Sys2Proof.Machine
end

section
/-! ## The instructions that write their destination and EX

Each ends in `writeValEx` of a result with its EX, which the model takes among the integers; the rules take it among words and natural
numbers. The order of the two writes is a parameter, and two writes to different places can change places. -/

namespace Sys2Proof.Machine

open Sys2Proof.Claims

/-! ### Words of integers -/

/-- A word is the word of its unsigned reading (R10). -/
theorem u16_uval (w : Word) : u16 (uval w) = w := by
  rw [uval, u16_natCast, BitVec.ofNat_toNat, BitVec.setWidth_eq]

/-- A word is the word of its signed reading (R11). -/
theorem u16_sval (w : Word) : u16 (sval w) = w := by
  rw [sval_eq_toInt, u16, BitVec.ofInt_toInt]

theorem u16_add (m n : Int) : u16 (m + n) = u16 m + u16 n := BitVec.ofInt_add m n

theorem u16_sub (m n : Int) : u16 (m - n) = u16 m - u16 n := by
  rw [sub_eq_add_neg, u16_add, sub_eq_add_neg]
  exact congrArg (u16 m + ·) BitVec.ofInt_neg

/-! ### Results and EX -/

/-- ADD (R121). -/
theorem addVal_eq (b a : Word) :
    addVal b a = ⟨b + a, if 0xFFFF < b.toNat + a.toNat then 0x0001 else 0x0000⟩ := by
  have hcarry : 0xFFFF < uval b + uval a ↔ 0xFFFF < b.toNat + a.toNat := by simp only [uval]; omega
  simp only [addVal, u16_add, u16_uval, hcarry]

/-- SUB (R122). -/
theorem subVal_eq (b a : Word) : subVal b a = ⟨b - a, if b.toNat < a.toNat then 0xFFFF else 0x0000⟩ := by
  have hborrow : uval b - uval a < 0 ↔ b.toNat < a.toNat := by simp only [uval]; omega
  simp only [subVal, u16_sub, u16_uval, hborrow]

/-- MUL (R123). -/
theorem mulVal_eq (b a : Word) :
    mulVal b a = ⟨BitVec.ofNat 16 (b.toNat * a.toNat), BitVec.ofNat 16 (b.toNat * a.toNat / 0x10000)⟩ := by
  simp only [← u16_natCast, Int.ofNat_fdiv, Int.natCast_mul]
  rfl

/-- MLI (R124). -/
theorem mliVal_eq (b a : Word) :
    mliVal b a = ⟨BitVec.ofInt 16 (b.toInt * a.toInt), BitVec.ofInt 16 ((b.toInt * a.toInt).fdiv 0x10000)⟩ := by
  simp only [mliVal, sval_eq_toInt, u16]

/-- DIV (R125). -/
theorem divVal_eq (b a : Word) :
    divVal b a = if a = 0 then ⟨0, 0⟩
      else ⟨BitVec.ofNat 16 (b.toNat / a.toNat), BitVec.ofNat 16 (b.toNat * 0x10000 / a.toNat)⟩ := by
  simp only [← u16_natCast, Int.ofNat_fdiv, Int.natCast_mul]
  rfl

/-- DVI (R126). -/
theorem dviVal_eq (b a : Word) :
    dviVal b a = if a = 0 then ⟨0, 0⟩
      else ⟨BitVec.ofInt 16 (b.toInt.tdiv a.toInt), BitVec.ofInt 16 ((b.toInt * 0x10000).tdiv a.toInt)⟩ := by
  simp only [dviVal, sval_eq_toInt, u16]

/-- SHR (R153). -/
theorem shrVal_eq (b : Word) (n : Nat) :
    shrVal b n = ⟨BitVec.ofNat 16 (b.toNat / 2 ^ n), BitVec.ofNat 16 (b.toNat * 0x10000 / 2 ^ n)⟩ := by
  simp only [← u16_natCast, Int.ofNat_fdiv, Int.natCast_mul, Int.natCast_pow]
  rfl

/-- ASR (R154). -/
theorem asrVal_eq (b : Word) (n : Nat) :
    asrVal b n =
      ⟨BitVec.ofInt 16 (b.toInt.fdiv (2 ^ n)), BitVec.ofInt 16 ((b.toInt * 0x10000).fdiv (2 ^ n))⟩ := by
  simp only [asrVal, sval_eq_toInt, u16]

/-- SHL (R155). -/
theorem shlVal_eq (b : Word) (n : Nat) :
    shlVal b n = ⟨BitVec.ofNat 16 (b.toNat * 2 ^ n), BitVec.ofNat 16 (b.toNat * 2 ^ n / 0x10000)⟩ := by
  simp only [← u16_natCast, Int.ofNat_fdiv, Int.natCast_mul, Int.natCast_pow]
  rfl

/-- The count of a shift is the one the rules name (D12). -/
theorem shiftCount_eq (s : State) (a : Word) : shiftCount s.params.shiftSemantics a = countOf s a := by
  unfold countOf
  cases s.params.shiftSemantics <;> rfl

/-- ADX under both readings (R190, D13). -/
theorem adxVal_eq (mode : AdxExMode) (b a ex : Word) :
    adxVal mode b a ex = ⟨b + a + ex, if mode = .flag
      then (if 0xFFFF < b.toNat + a.toNat + ex.toNat then 0x0001 else 0x0000)
      else BitVec.ofNat 16 ((b.toNat + a.toNat + ex.toNat) / 0x10000)⟩ := by
  have hval : u16 (uval b + uval a + uval ex) = b + a + ex := by simp only [u16_add, u16_uval]
  cases mode with
  | flag =>
    have hcarry : 0xFFFF < uval b + uval a + uval ex ↔ 0xFFFF < b.toNat + a.toNat + ex.toNat := by
      simp only [uval]; omega
    simp only [adxVal, hval, hcarry]
    rfl
  | highWord =>
    simp only [adxVal, hval, ← u16_natCast, Int.ofNat_fdiv, Int.natCast_add]
    rfl

/-- How SBX reads EX (R191, D14). -/
theorem sbxReading_eq (mode : SbxExReading) (ex : Word) :
    sbxReading mode ex = if mode = .unsigned then (ex.toNat : Int) else ex.toInt := by
  cases mode with
  | unsigned => rfl
  | signed => exact sval_eq_toInt ex

/-- Under both readings it is a number whose word is EX. -/
theorem u16_sbxReading (mode : SbxExReading) (ex : Word) : u16 (sbxReading mode ex) = ex := by
  cases mode with
  | unsigned => exact u16_uval ex
  | signed => exact u16_sval ex

/-- SBX under both readings (R191, D14). -/
theorem sbxVal_eq (mode : SbxExReading) (b a ex : Word) :
    sbxVal b a (sbxReading mode ex) = ⟨b - a + ex,
      if (b.toNat : Int) - a.toNat + sbxReading mode ex < 0 then 0xFFFF
      else if 0xFFFF < (b.toNat : Int) - a.toNat + sbxReading mode ex then 0x0001 else 0x0000⟩ := by
  simp only [sbxVal, u16_add, u16_sub, u16_uval, u16_sbxReading]
  rfl

/-! ### The rules -/

/-- The two writes of a result are those of the rules (D15). -/
theorem writeValEx_eq (r : Ref) (x : ValEx) (s : State) : writeValEx r x s = bothWrites r x.val x.ex s := by
  unfold writeValEx bothWrites
  cases s.params.exWriteOrder <;> rfl

/-- An instruction of the basic map that ends in the two writes of `result`, after the basic frame, has the rule of the same writes
written out. -/
theorem valExRule {value : OpcodeValues → BitVec 5} {o : BitVec 5} {mk : Operand → Operand → Instr}
    {base : BaseCosts → Nat} {cycles : Nat} {effect : Ref → Ref → State → State} (result : Ref → Ref → State → ValEx)
    (ho : value defaultOpcodes = o) (hcost : base defaultCosts = cycles) (hrow : ∀ v, (value v, mk) ∈ basicTable v)
    (hexec : ∀ b a s, exec (mk b a) s = .next (writeValEx (dstRef b a s)
      (result (dstRef b a s) (srcRef a s) (afterBasic (base s.params.cost) b a s))
      (afterBasic (base s.params.cost) b a s)))
    (heffect : ∀ rb ra s, writeValEx rb (result rb ra s) s = effect rb ra s) :
    BasicRule value o mk base cycles effect :=
  basicRule ho hcost hrow fun b a s => by rw [hexec, heffect]

/-- Settles O10: the sum and the difference with their carry and borrow. -/
theorem addSubResults : Obligations.AddSubResults := by
  refine ⟨rfl, ?add, ?sub⟩
  case add =>
    exact valExRule (fun rb ra _ => addVal rb.u ra.u) rfl rfl (by simp [basicTable, arithmeticTable]) (fun _ _ _ => rfl)
      fun rb ra s => by rw [writeValEx_eq, addVal_eq]
  case sub =>
    exact valExRule (fun rb ra _ => subVal rb.u ra.u) rfl rfl (by simp [basicTable, arithmeticTable]) (fun _ _ _ => rfl)
      fun rb ra s => by rw [writeValEx_eq, subVal_eq]

/-- Settles O11: the products with their high words, and the quotients with their fraction bits, 0 by a divisor of 0. -/
theorem multiplyDivideResults : Obligations.MultiplyDivideResults := by
  refine ⟨rfl, ?mul, ?mli, ?div, ?dvi⟩
  case mul =>
    exact valExRule (fun rb ra _ => mulVal rb.u ra.u) rfl rfl (by simp [basicTable, arithmeticTable]) (fun _ _ _ => rfl)
      fun rb ra s => by rw [writeValEx_eq, mulVal_eq]
  case mli =>
    exact valExRule (fun rb ra _ => mliVal rb.u ra.u) rfl rfl (by simp [basicTable, arithmeticTable]) (fun _ _ _ => rfl)
      fun rb ra s => by rw [writeValEx_eq, mliVal_eq]
  case div =>
    exact valExRule (fun rb ra _ => divVal rb.u ra.u) rfl rfl (by simp [basicTable, arithmeticTable]) (fun _ _ _ => rfl)
      fun rb ra s => by rw [writeValEx_eq, divVal_eq]; split <;> rfl
  case dvi =>
    exact valExRule (fun rb ra _ => dviVal rb.u ra.u) rfl rfl (by simp [basicTable, arithmeticTable]) (fun _ _ _ => rfl)
      fun rb ra s => by rw [writeValEx_eq, dviVal_eq]; split <;> rfl

/-- Settles O13: the three shifts by the count that SHIFT_SEMANTICS gives. -/
theorem shiftResults : Obligations.ShiftResults := by
  refine ⟨rfl, rfl, ?shr, ?asr, ?shl⟩
  case shr =>
    exact valExRule (fun rb ra s => shrVal rb.u (shiftCount s.params.shiftSemantics ra.u)) rfl rfl
      (by simp [basicTable, arithmeticTable]) (fun _ _ _ => rfl)
      fun rb ra s => by rw [writeValEx_eq, shiftCount_eq, shrVal_eq]
  case asr =>
    exact valExRule (fun rb ra s => asrVal rb.u (shiftCount s.params.shiftSemantics ra.u)) rfl rfl
      (by simp [basicTable, arithmeticTable]) (fun _ _ _ => rfl)
      fun rb ra s => by rw [writeValEx_eq, shiftCount_eq, asrVal_eq]
  case shl =>
    exact valExRule (fun rb ra s => shlVal rb.u (shiftCount s.params.shiftSemantics ra.u)) rfl rfl
      (by simp [basicTable, arithmeticTable]) (fun _ _ _ => rfl)
      fun rb ra s => by rw [writeValEx_eq, shiftCount_eq, shlVal_eq]

/-- Settles O14: ADX and SBX under each reading of EX. -/
theorem carryArithmeticResults : Obligations.CarryArithmeticResults := by
  refine ⟨rfl, rfl, rfl, ?adx, ?sbx⟩
  case adx =>
    exact valExRule (fun rb ra s => adxVal s.params.adxExMode rb.u ra.u s.ex) rfl rfl
      (by simp [basicTable, carryTable]) (fun _ _ _ => rfl)
      fun rb ra s => by rw [writeValEx_eq, adxVal_eq]
  case sbx =>
    exact valExRule (fun rb ra s => sbxVal rb.u ra.u (sbxReading s.params.sbxExReading s.ex)) rfl rfl
      (by simp [basicTable, carryTable]) (fun _ _ _ => rfl)
      fun rb ra s => by rw [writeValEx_eq, sbxVal_eq, sbxReading_eq]

/-! ### The order of the two writes -/

/-- The state under another order of the two writes. -/
def State.withOrder (s : State) (m : ExWriteOrder) : State := { s with params := { s.params with exWriteOrder := m } }

/-- No operand's resolution depends on the order. -/
theorem resolve_withOrder (o : Operand) (pos : Pos) (s : State) (m : ExWriteOrder) :
    resolve o pos (s.withOrder m) = ((resolve o pos s).1, (resolve o pos s).2.withOrder m) := by
  cases o <;> cases pos <;> rfl

theorem srcRef_withOrder (a : Operand) (s : State) (m : ExWriteOrder) : srcRef a (s.withOrder m) = srcRef a s := by
  simp only [srcRef, resolve_withOrder]

theorem dstRef_withOrder (b a : Operand) (s : State) (m : ExWriteOrder) :
    dstRef b a (s.withOrder m) = dstRef b a s := by
  simp only [dstRef, resolve_withOrder]

theorem afterBasic_withOrder (cost : Nat) (b a : Operand) (s : State) (m : ExWriteOrder) :
    afterBasic cost b a (s.withOrder m) = (afterBasic cost b a s).withOrder m := by
  simp only [afterBasic, resolve_withOrder]
  rfl

theorem writeRef_withOrder (r : Ref) (v : Word) (s : State) (m : ExWriteOrder) :
    writeRef r v (s.withOrder m) = (writeRef r v s).withOrder m := by
  unfold writeRef
  split <;> rfl

/-- A write that is not to EX and a write to EX can change places. -/
theorem writeRef_setEx {r : Ref} (h : r.loc ≠ .reg .ex) (v e : Word) (s : State) :
    writeRef r v (s.setEx e) = (writeRef r v s).setEx e := by
  unfold writeRef
  split
  case h_4 hloc => exact absurd hloc h
  all_goals rfl

/-- The effect of a writer leaves the same state under both orders, but for the order, where the destination is not EX. -/
def OrderFree (effect : Ref → Ref → State → State) : Prop :=
  ∀ (rb ra : Ref) (s : State), rb.loc ≠ .reg .ex →
    effect rb ra (s.withOrder .exThenDest) = (effect rb ra (s.withOrder .destThenEx)).withOrder .exThenDest

theorem bothWrites_orderFree {rb : Ref} (h : rb.loc ≠ .reg .ex) (v e : Word) (s : State) :
    bothWrites rb v e (s.withOrder .exThenDest) =
      (bothWrites rb v e (s.withOrder .destThenEx)).withOrder .exThenDest :=
  calc bothWrites rb v e (s.withOrder .exThenDest)
      = writeRef rb v ((s.setEx e).withOrder .exThenDest) := rfl
    _ = ((writeRef rb v s).setEx e).withOrder .exThenDest := by rw [writeRef_withOrder, writeRef_setEx h]
    _ = (((writeRef rb v s).withOrder .destThenEx).setEx e).withOrder .exThenDest := rfl
    _ = (bothWrites rb v e (s.withOrder .destThenEx)).withOrder .exThenDest := by rw [← writeRef_withOrder]; rfl

/-- The two writes of a division are chosen by the divisor, which is no matter of the order. -/
theorem OrderFree.byDivisor {zero nonzero : Ref → Ref → State → State} (hzero : OrderFree zero)
    (hnonzero : OrderFree nonzero) :
    OrderFree fun rb ra s => if ra.u = 0 then zero rb ra s else nonzero rb ra s := by
  intro rb ra s h
  by_cases ha : ra.u = 0
  · simp only [if_pos ha, hzero rb ra s h]
  · simp only [if_neg ha, hnonzero rb ra s h]

/-- An instruction whose rule has such an effect leaves the same state under both orders, where b is not EX. -/
theorem eq_of_orderFree_rule {value : OpcodeValues → BitVec 5} {o : BitVec 5} {mk : Operand → Operand → Instr}
    {base : BaseCosts → Nat} {cycles : Nat} {effect : Ref → Ref → State → State}
    (hrule : BasicRule value o mk base cycles effect) (hfree : OrderFree effect) {b a : Operand} {s t u : State}
    (hb : b ≠ .ex) (ht : exec (mk b a) (s.withOrder .destThenEx) = .next t)
    (hu : exec (mk b a) (s.withOrder .exThenDest) = .next u) : u = { t with params := u.params } := by
  obtain ⟨-, -, hexec⟩ := hrule
  rw [hexec, srcRef_withOrder, dstRef_withOrder, afterBasic_withOrder] at ht hu
  cases ht
  cases hu
  rw [hfree _ _ _ (dstRef_loc_ne_reg hb)]
  rfl

/-- Settles O16: each of the eleven has a rule of two writes, with b not EX in either order. -/
theorem writeOrderMattersOnlyForEx : Obligations.WriteOrderMattersOnlyForEx := by
  intro mk hmk b a s t u hb ht hu
  obtain ⟨-, hadd, hsub⟩ := addSubResults
  obtain ⟨-, hmul, hmli, hdiv, hdvi⟩ := multiplyDivideResults
  obtain ⟨-, -, hshr, hasr, hshl⟩ := shiftResults
  obtain ⟨-, -, -, hadx, hsbx⟩ := carryArithmeticResults
  simp only [exWriters, List.mem_cons, List.not_mem_nil, or_false] at hmk
  rcases hmk with rfl | rfl | rfl | rfl | rfl | rfl | rfl | rfl | rfl | rfl | rfl
  · exact eq_of_orderFree_rule hadd (fun _ _ _ h => bothWrites_orderFree h _ _ _) hb ht hu
  · exact eq_of_orderFree_rule hsub (fun _ _ _ h => bothWrites_orderFree h _ _ _) hb ht hu
  · exact eq_of_orderFree_rule hmul (fun _ _ _ h => bothWrites_orderFree h _ _ _) hb ht hu
  · exact eq_of_orderFree_rule hmli (fun _ _ _ h => bothWrites_orderFree h _ _ _) hb ht hu
  · exact eq_of_orderFree_rule hdiv (.byDivisor (fun _ _ _ h => bothWrites_orderFree h _ _ _)
      fun _ _ _ h => bothWrites_orderFree h _ _ _) hb ht hu
  · exact eq_of_orderFree_rule hdvi (.byDivisor (fun _ _ _ h => bothWrites_orderFree h _ _ _)
      fun _ _ _ h => bothWrites_orderFree h _ _ _) hb ht hu
  · exact eq_of_orderFree_rule hshr (fun _ _ _ h => bothWrites_orderFree h _ _ _) hb ht hu
  · exact eq_of_orderFree_rule hasr (fun _ _ _ h => bothWrites_orderFree h _ _ _) hb ht hu
  · exact eq_of_orderFree_rule hshl (fun _ _ _ h => bothWrites_orderFree h _ _ _) hb ht hu
  · exact eq_of_orderFree_rule hadx (fun _ _ _ h => bothWrites_orderFree h _ _ _) hb ht hu
  · exact eq_of_orderFree_rule hsbx (fun _ _ _ h => bothWrites_orderFree h _ _ _) hb ht hu

end Sys2Proof.Machine
end

section
/-! ## The frame of JSR, IAG, IAS, HWN and HWQ

Each resolves its operand and then does one thing: a push and a jump, a write to the operand, a write to IA, or a report in five
registers. -/

namespace Sys2Proof.Machine

open Sys2Proof.Claims

/-! ### What the five end in -/

theorem exec_jsr (a : Operand) (s : State) :
    exec (.jsr a) s = .next ((push (afterSpecial s.params.cost.jsr a s).pc (afterSpecial s.params.cost.jsr a s)).setPc
      (srcRef a s).u) := rfl

theorem exec_ias (a : Operand) (s : State) :
    exec (.ias a) s = .next ((afterSpecial s.params.cost.ias a s).setIa (srcRef a s).u) := rfl

/-- IAG and HWN end in one write to their operand (R212, R230). -/
theorem exec_iag_or_hwn {a : Operand} {s t : State} (h : exec (.iag a) s = .next t ∨ exec (.hwn a) s = .next t) :
    ∃ cost v, t = writeRef (srcRef a s) v (afterSpecial cost a s) := by
  rcases h with h | h <;> cases h <;> exact ⟨_, _, rfl⟩

/-- HWQ fires or reports a device (R231). -/
theorem exec_hwq_eq_next {a : Operand} {s t : State} (h : exec (.hwq a) s = .next t) :
    ∃ ident, t = reportIdent ident (afterSpecial s.params.cost.hwq a s) := by
  rcases Nat.lt_or_ge (srcRef a s).u.toNat s.devices.length with hin | hout
  · cases (exec_hwq_of_device (List.getElem?_eq_getElem hin)).symm.trans h
    exact ⟨_, rfl⟩
  · cases (exec_hwq_of_no_device hout).symm.trans h

/-! ### What is kept -/

theorem afterSpecial_untouched (cost : Nat) (a : Operand) (s : State) : Untouched s (afterSpecial cost a s) := by
  constructor <;> simp

theorem writeRef_untouched {s t : State} (h : Untouched s t) (r : Ref) (v : Word) : Untouched s (writeRef r v t) := by
  obtain ⟨hia, hiaq, hqueue, hfire, hdevices, himage, hparams⟩ := h
  constructor <;> simpa

theorem srcRef_loc_ne_reg {a : Operand} {s : State} {q : LocReg} (h : a ≠ q.operand) :
    (srcRef a s).loc ≠ .reg q := fun e => h (resolve_loc_eq_reg.1 e)

/-- A report leaves Z, I and J (R231). -/
theorem reportIdent_gpr_get (ident : DeviceIdent) (s : State) {r : Gpr} (h : r ∉ [Gpr.a, .b, .c, .x, .y]) :
    (reportIdent ident s).gpr.get r = s.gpr.get r := by
  simp only [List.mem_cons, List.not_mem_nil, or_false, not_or] at h
  obtain ⟨ha, hb, hc, hx, hy⟩ := h
  simp only [reportIdent, State.setGpr_gpr, Gprs.get_put_ne _ _ ha, Gprs.get_put_ne _ _ hb, Gprs.get_put_ne _ _ hc,
    Gprs.get_put_ne _ _ hx, Gprs.get_put_ne _ _ hy]

/-- Settles O34: the rules of the push, the writes and the report, each after the special frame. -/
theorem specialWritersFrame : Obligations.SpecialWritersFrame := by
  intro a s t
  have hkept := fun cost => afterSpecial_untouched cost a s
  refine ⟨fun h => ?jsr, fun h => ?iagHwn, fun h => ?ias, fun h => ?hwq⟩
  case jsr =>
    cases (exec_jsr a s).symm.trans h
    obtain ⟨hia, hiaq, hqueue, hfire, hdevices, himage, hparams⟩ := hkept s.params.cost.jsr
    refine ⟨⟨hia, hiaq, hqueue, hfire, hdevices, himage, hparams⟩, by simp, by simp, rfl, fun x hx => ?_⟩
    calc State.readMem _ x
        = ((afterSpecial s.params.cost.jsr a s).setSp ((resolve a .src s).2.sp - 1)).readMem x :=
          State.readMem_writeMem_other _ _ hx
      _ = s.readMem x := by simp
  case iagHwn =>
    obtain ⟨cost, v, rfl⟩ := exec_iag_or_hwn h
    refine ⟨writeRef_untouched (hkept cost) _ v, fun r hr => ?gpr, fun hex => ?ex, fun hsp hpop => ?sp, fun x hx => ?mem⟩
    case gpr => rw [writeRef_gpr_of_ne _ v _ r (srcRef_loc_ne_reg hr), afterSpecial_gpr]
    case ex => rw [writeRef_ex_of_ne _ v _ (srcRef_loc_ne_reg hex), afterSpecial_ex]
    case sp => rw [writeRef_sp_of_ne _ v _ (srcRef_loc_ne_reg hsp), afterSpecial_sp_of_ne hpop]
    case mem => rw [writeRef_readMem_of_ne _ v _ x hx, afterSpecial_readMem]
  case ias =>
    cases (exec_ias a s).symm.trans h
    obtain ⟨-, hiaq, hqueue, hfire, hdevices, himage, hparams⟩ := hkept s.params.cost.ias
    exact ⟨⟨rfl, hiaq, hqueue, hfire, hdevices, himage, hparams⟩, by simp, by simp, by simp, fun hpop =>
      afterSpecial_sp_of_ne hpop s.params.cost.ias s⟩
  case hwq =>
    obtain ⟨ident, rfl⟩ := exec_hwq_eq_next h
    have hgpr : ∀ r, r ∉ [Gpr.a, .b, .c, .x, .y] →
        (reportIdent ident (afterSpecial s.params.cost.hwq a s)).gpr.get r = s.gpr.get r := fun r hr => by
      rw [reportIdent_gpr_get ident _ hr, afterSpecial_gpr]
    obtain ⟨hia, hiaq, hqueue, hfire, hdevices, himage, hparams⟩ := hkept s.params.cost.hwq
    exact ⟨⟨hia, hiaq, hqueue, hfire, hdevices, himage, hparams⟩, afterSpecial_ex s.params.cost.hwq a s,
      afterSpecial_mem s.params.cost.hwq a s, fun hpop => afterSpecial_sp_of_ne hpop s.params.cost.hwq s,
      hgpr .z (by decide), hgpr .i (by decide), hgpr .j (by decide)⟩

end Sys2Proof.Machine
end

section
/-! ## The operand codes of SP, PC, EX and the literals, and what registers and memory hold -/

namespace Sys2Proof.Machine

open Sys2Proof.Claims

/-- The codes from 0x20 on are the inline literals (R94). -/
theorem decodeOperand_inline : ∀ code : BitVec 6, 0x20 ≤ code.toNat →
    decodeOperand code = .inline (BitVec.ofNat 5 (code.toNat - 0x20)) := by
  decide

/-- Settles O7: the codes by the operand table; each operand form then resolves, and each location is written, as its rule says. -/
theorem specialRegisterAndLiteralOperands : Obligations.SpecialRegisterAndLiteralOperands := by
  refine ⟨fun pos s => ⟨rfl, rfl, rfl, rfl, rfl⟩, fun code pos s hcode => ?inline, fun B k hk => ?field,
    fun u v s => ⟨fun _ => rfl, rfl, rfl, rfl, fun _ => rfl, rfl⟩⟩
  case inline =>
    have hk : ((BitVec.ofNat 5 (code.toNat - 0x20)).toNat : Int) - 1 = (code.toNat : Int) - 0x21 := by
      rw [BitVec.toNat_ofNat]
      omega
    rw [decodeOperand_inline code hcode, ← hk]
    rfl
  case field =>
    have hfits := fitsB_decodeOperand B
    rw [hk] at hfits
    cases hfits

/-- Settles O8: the laws of the register file and of a canonical memory. -/
theorem registersAndMemoryHoldWhatIsWritten : Obligations.RegistersAndMemoryHoldWhatIsWritten := by
  refine ⟨fun s r q v => Gprs.get_put s.gpr r q v, fun s x y v hwf => ?_⟩
  by_cases hyx : y = x
  · rw [if_pos hyx, hyx, State.readMem_writeMem_self s hwf]
  · rw [if_neg hyx, State.readMem_writeMem_other s v hyx]

end Sys2Proof.Machine
end
